-- ==== Sys2Proof/Word.lean ====
section
/-! DEFINITION. The words of the LZW codec core: every operand, result, INFO and output word is 32 bits
(00_scope.md R9), a symbol is 8 bits (R6), and an index of a table is a plain number. -/

namespace Sys2Proof

/-- `WORD_W` = 32 (00_scope.md R9). -/
abbrev Word := BitVec 32

/-- `SYM_W` = 8 (00_scope.md R6): a symbol, a grid cell, a status code. -/
abbrev Byte := BitVec 8

end Sys2Proof
end

