-- ==== Sys2Proof/Syntax.lean ====
section
/-! DEFINITION. The commands of the block (30_encoding.md R70, R73): the command word as four words, and one
constructor per row of spec/opcode_table.json. -/

namespace Sys2Proof

/-- A command as it travels: four 32-bit words, format `CMD4` (30_encoding.md R70). -/
structure Command where
  w0 : Word
  w1 : Word
  w2 : Word
  w3 : Word
deriving DecidableEq, Repr

/-- The 15 commands of 30_encoding.md R73, with the operands R71 gives them, already read as mathematical integers:
signed for the grid and the encoder, unsigned for a code and a CSR number. DEDUCED (log 9). -/
inductive Instr where
  | nop
  | readCsr (n : Nat)
  | gridCreate (rows cols : Int)
  | gridClear (value : Int)
  | gridGet (row col : Int)
  | gridSet (row col value : Int)
  | gridRows
  | gridCols
  | encStart
  | encPush (c : Int)
  | encFlush
  | encGrid
  | decStart
  | decPush (k : Nat)
  | decFinish
deriving DecidableEq, Repr

/-- Why a command word is illegal (30_encoding.md R74). -/
inductive Illegal where
  /-- `W0[7:0]` is not an opcode: `IllegalCommand` with INFO 0. -/
  | opcode
  /-- `W0[31:8]` is not 0: `IllegalCommand` with INFO 1. -/
  | reserved
deriving DecidableEq, Repr

end Sys2Proof
end

