-- ==== Sys2Proof/WellFormed.lean ====
section
/-! DEFINITION. Which instructions can be presented to the block: "An integer outside the 32-bit range cannot be
presented to the block" (00_scope.md R9). -/

namespace Sys2Proof

/-- The range of `sint_32` (00_scope.md R11). -/
def fitsSigned (v : Int) : Bool := decide (-2147483648 ≤ v ∧ v < 2147483648)

/-- The range of `uint_32` (00_scope.md R11). -/
def fitsUnsigned (n : Nat) : Bool := decide (n < 4294967296)

/-- Every operand of the instruction fits its word (00_scope.md R9, 30_encoding.md R71). -/
def Instr.wf : Instr → Bool
  | .nop => true
  | .readCsr n => fitsUnsigned n
  | .gridCreate rows cols => fitsSigned rows && fitsSigned cols
  | .gridClear value => fitsSigned value
  | .gridGet row col => fitsSigned row && fitsSigned col
  | .gridSet row col value => fitsSigned row && fitsSigned col && fitsSigned value
  | .gridRows => true
  | .gridCols => true
  | .encStart => true
  | .encPush c => fitsSigned c
  | .encFlush => true
  | .encGrid => true
  | .decStart => true
  | .decPush k => fitsUnsigned k
  | .decFinish => true

end Sys2Proof
end

