-- ==== Sys2Proof/Decode.lean ====
section
/-! DEFINITION. Conversions between words and integers (00_scope.md R11), the decoder (30_encoding.md R70 to R75), the
encoder (R70, R73, R81) and the byte form of a command on a narrow link (R79). -/

namespace Sys2Proof

/-- `sint_32(w)`: the word read as two's complement (00_scope.md R11). -/
def sint32 (w : Word) : Int := w.toInt

/-- `uint_32(w)`: the word read as unsigned (00_scope.md R11). -/
def uint32 (w : Word) : Nat := w.toNat

/-- `zext_32(v)` for 0 ≤ `v` < 2^32 (00_scope.md R11). -/
def zext32 (v : Nat) : Word := BitVec.ofNat 32 v

/-- `word_32(v)` = `v` mod 2^32 (00_scope.md R11). -/
def word32 (v : Int) : Word := BitVec.ofInt 32 v

/-- `OP` = `W0[7:0]` (30_encoding.md R70). -/
def Command.op (c : Command) : Byte := c.w0.extractLsb' 0 8

/-- `RSV` = `W0[31:8]` (30_encoding.md R70). -/
def Command.rsv (c : Command) : BitVec 24 := c.w0.extractLsb' 8 24

/-- The opcode map of 30_encoding.md R73, with the operands read as R71 says; `none` for an unassigned opcode. -/
def decodeOp (op : Byte) (a b c : Word) : Option Instr :=
  match op with
  | 0x00#8 => some .nop
  | 0x01#8 => some (.readCsr (uint32 a))
  | 0x10#8 => some (.gridCreate (sint32 a) (sint32 b))
  | 0x11#8 => some (.gridClear (sint32 a))
  | 0x12#8 => some (.gridGet (sint32 a) (sint32 b))
  | 0x13#8 => some (.gridSet (sint32 a) (sint32 b) (sint32 c))
  | 0x14#8 => some .gridRows
  | 0x15#8 => some .gridCols
  | 0x20#8 => some .encStart
  | 0x21#8 => some (.encPush (sint32 a))
  | 0x22#8 => some .encFlush
  | 0x23#8 => some .encGrid
  | 0x30#8 => some .decStart
  | 0x31#8 => some (.decPush (uint32 a))
  | 0x32#8 => some .decFinish
  | _ => none

/-- Decoding is total (30_encoding.md R75). "The opcode check comes first (INFO = 0), then the reserved-field check
(INFO = 1)" (R74). -/
def decode (c : Command) : Except Illegal Instr :=
  match decodeOp c.op c.w1 c.w2 c.w3 with
  | none => .error .opcode
  | some i => if c.rsv = 0 then .ok i else .error .reserved

/-- The INFO word of an `IllegalCommand` raised by the command word itself (60_exceptions.md R171). -/
def Illegal.info : Illegal → Word
  | .opcode => 0x0#32
  | .reserved => 0x1#32

/-- The opcode of an instruction (30_encoding.md R73). -/
def Instr.opcode : Instr → Byte
  | .nop => 0x00#8
  | .readCsr _ => 0x01#8
  | .gridCreate _ _ => 0x10#8
  | .gridClear _ => 0x11#8
  | .gridGet _ _ => 0x12#8
  | .gridSet _ _ _ => 0x13#8
  | .gridRows => 0x14#8
  | .gridCols => 0x15#8
  | .encStart => 0x20#8
  | .encPush _ => 0x21#8
  | .encFlush => 0x22#8
  | .encGrid => 0x23#8
  | .decStart => 0x30#8
  | .decPush _ => 0x31#8
  | .decFinish => 0x32#8

/-- Operand word A of an instruction, 0 where it has none (30_encoding.md R71, R81). -/
def Instr.operandA : Instr → Word
  | .readCsr n => zext32 n
  | .gridCreate rows _ => word32 rows
  | .gridClear value => word32 value
  | .gridGet row _ => word32 row
  | .gridSet row _ _ => word32 row
  | .encPush c => word32 c
  | .decPush k => zext32 k
  | .nop | .gridRows | .gridCols | .encStart | .encFlush | .encGrid | .decStart | .decFinish => 0x0#32

/-- Operand word B of an instruction, 0 where it has none (30_encoding.md R71, R81). -/
def Instr.operandB : Instr → Word
  | .gridCreate _ cols => word32 cols
  | .gridGet _ col => word32 col
  | .gridSet _ col _ => word32 col
  | .nop | .readCsr _ | .gridClear _ | .gridRows | .gridCols | .encStart | .encPush _ | .encFlush | .encGrid
  | .decStart | .decPush _ | .decFinish => 0x0#32

/-- Operand word C of an instruction, 0 where it has none (30_encoding.md R71, R81). -/
def Instr.operandC : Instr → Word
  | .gridSet _ _ value => word32 value
  | .nop | .readCsr _ | .gridCreate _ _ | .gridClear _ | .gridGet _ _ | .gridRows | .gridCols | .encStart
  | .encPush _ | .encFlush | .encGrid | .decStart | .decPush _ | .decFinish => 0x0#32

/-- The command word of an instruction: `W0` = `zext_32(OP)` (30_encoding.md R73), a signed operand as `word_32(v)`,
and 0 in the words it does not use (R81). -/
def encode (i : Instr) : Command where
  w0 := i.opcode.setWidth 32
  w1 := i.operandA
  w2 := i.operandB
  w3 := i.operandC

/-- A word on a byte-wide link: little-endian, byte 0 is bits [7:0] (30_encoding.md R79). -/
def wordBytes (w : Word) : List Byte :=
  [w.extractLsb' 0 8, w.extractLsb' 8 8, w.extractLsb' 16 8, w.extractLsb' 24 8]

/-- The word whose little-endian bytes these are (30_encoding.md R79). -/
def wordOfBytes (b0 b1 b2 b3 : Byte) : Word := b3 ++ b2 ++ b1 ++ b0

/-- A command on a byte-wide link: W0 first (30_encoding.md R79). -/
def Command.bytes (c : Command) : List Byte :=
  wordBytes c.w0 ++ wordBytes c.w1 ++ wordBytes c.w2 ++ wordBytes c.w3

/-- Take one command from the bytes of a narrow link, with the bytes after it. Fewer than 16 bytes are no command yet:
"Each command is received whole" (92_eei_decisions.md D1; log 15). -/
def Command.ofBytes : List Byte → Option (Command × List Byte)
  | a0 :: a1 :: a2 :: a3 :: b0 :: b1 :: b2 :: b3 :: c0 :: c1 :: c2 :: c3 :: d0 :: d1 :: d2 :: d3 :: rest =>
    some (⟨wordOfBytes a0 a1 a2 a3, wordOfBytes b0 b1 b2 b3, wordOfBytes c0 c1 c2 c3, wordOfBytes d0 d1 d2 d3⟩, rest)
  | _ => none

/-- The command as one 128-bit value, `{W3, W2, W1, W0}` (30_encoding.md R70). -/
def Command.bits (c : Command) : BitVec 128 := c.w3 ++ c.w2 ++ c.w1 ++ c.w0

/-- The 16 bytes of a command numbered as spec/opcode_table.json numbers it: bit 0 is bit 0 of W0, and every bit above
the row's `nbits` is 0. -/
def tableWordBytes (nbits w : Nat) : List Byte :=
  (List.range 16).map fun j => BitVec.ofNat 8 ((w % 2 ^ nbits) >>> (8 * j))

/-- The command that spec/opcode_table.json's numbering gives, through the bytes of a narrow link. -/
def commandOfTableWord (nbits w : Nat) : Option Command :=
  match Command.ofBytes (tableWordBytes nbits w) with
  | some (c, _) => some c
  | none => none

/-- What the decoder reads from a row's word; `none` where it refuses. -/
def decodeTableWord (nbits w : Nat) : Option Instr :=
  match commandOfTableWord nbits w with
  | none => none
  | some c =>
    match decode c with
    | .ok i => some i
    | .error _ => none

end Sys2Proof
end

