-- ==== Sys2Proof/Config.lean ====
section
/-! DEFINITION. The parameters and constants of 00_scope.md §3. -/

namespace Sys2Proof

/-- The two capacity parameters, the spec's `cfg` (00_scope.md R7, R8, R14). Both are OPEN: the model takes them as
data (log 4), and its claims hold for every legal value. -/
structure Params where
  dictCap : Word
  gridCap : Word
deriving DecidableEq, Repr

/-- 257 ≤ `DICT_CAP` ≤ 2^32 − 1 and 1 ≤ `GRID_CAP` ≤ 2^32 − 1 (R7, R8). The upper bounds hold of every word. -/
abbrev Params.legal (p : Params) : Prop := 257 ≤ p.dictCap.toNat ∧ 1 ≤ p.gridCap.toNat

namespace Config

/-- `SEED`: the seed codes are 0 to 255, and the first new code is 256 (00_scope.md §3). -/
def seed : Nat := 256

/-- `FILL0`: the value of every cell of a new grid (40_grid.md R103). -/
def fill0 : Byte := 0x00#8

/-- The constant CSR `ID` reads (10_state.md R41). -/
def idValue : Word := 0x4C5A5701#32

/-- The parameters `State.reset` carries. DESIGN CHOICE (log 4, unsafe): the spec leaves both OPEN; 4096 and 4096 are
the values its test vectors assume (95_test_vectors.md, Conventions). -/
def params : Params where
  dictCap := 0x1000#32
  gridCap := 0x1000#32

end Config
end Sys2Proof
end

