-- ==== Sys2Proof/Machine/State.lean ====
section
/-! DEFINITION. The state of the block (10_state.md), as plain data, and the state after reset (R49, R190). -/

namespace Sys2Proof.Machine

/-- The phase of a codec unit (10_state.md R24). DEDUCED: three names for the 2-bit register, since "The value 3 is
never held" (log 8). -/
inductive Phase where
  | idle
  | active
  | faulted
deriving DecidableEq, Repr

/-- The status codes of 60_exceptions.md R170; 9 to 255 are "never returned" (log 8). -/
inductive Status where
  | ok
  | invalidDimension
  | outOfRange
  | indexOutOfBounds
  | emptyInput
  | malformedCode
  | capacityExceeded
  | sequenceError
  | illegalCommand
deriving DecidableEq, Repr

/-- A response (30_encoding.md R76). -/
structure Response where
  status : Status
  info : Word
  result : Word
  out : List Word
deriving DecidableEq, Repr

/-- One dictionary entry: `U.PREFIX[n]` and `U.SYM[n]`, accessed "only as a whole pair" (10_state.md R27,
20_memory.md R54). -/
structure Entry where
  pre : Word
  sym : Byte
deriving DecidableEq, Repr

/-- A sparse table: the entries written so far, by rising index. An index that is not listed has not been written and
has no value (10_state.md R49; log 5). -/
abbrev Table (α : Type) := List (Nat × α)

/-- The grid's storage `G.CELL` (10_state.md R23). -/
abbrev Memory := List Host.Cell

/-- A codec unit's dictionary: `U.NEXT` and the stored entries (10_state.md R26, R27). -/
structure Dict where
  next : Word
  entries : Table Entry
deriving DecidableEq, Repr

/-- Unit G (10_state.md §2). -/
structure Grid where
  valid : Bool
  rows : Word
  cols : Word
  cells : Memory
deriving DecidableEq, Repr

/-- Unit E (10_state.md §3). `err` holds `E.ERR`, with `ok` for 0. -/
structure Encoder where
  phase : Phase
  wvalid : Bool
  wcode : Word
  dict : Dict
  err : Status
  errInfo : Word
deriving DecidableEq, Repr

/-- Unit D (10_state.md §4). -/
structure Decoder where
  phase : Phase
  seen : Bool
  wcode : Word
  dict : Dict
  err : Status
  errInfo : Word
deriving DecidableEq, Repr

/-- What the host can send the block: a command (30_encoding.md R70), or a reset, which "comes between commands, never
inside one" (70_reset_and_hazards.md R190; log 2, log 7). -/
inductive Input where
  | command (c : Command)
  | reset
deriving DecidableEq, Repr

/-- The block state `(G, E, D)` of 10_state.md R20, the parameters `cfg` of 00_scope.md R14 (log 4), and two fields of
the model's own: what the host has sent and the block not yet taken (log 2), and the responses given (log 1). -/
structure State where
  cfg : Params
  grid : Grid
  enc : Encoder
  dec : Decoder
  inputs : List Input
  rsps : List Response
deriving DecidableEq, Repr

/-- Why the model stops. The spec gives the block no such stop: both are reads that 10_state.md R49 says no command
ever makes. -/
inductive Fault where
  /-- Raised by GRID_GET and ENC_GRID on a cell that no command has written. Safe: R49 allows a model to "leave them
  unwritten and fault on a read", and no state that meets the invariant reaches it (log 5). -/
  | unwrittenCell
  /-- Raised by DEC_PUSH on a code whose string 10_state.md R28 leaves undefined. Safe: no state that meets the
  invariant reaches it (log 12). -/
  | undefinedString
deriving DecidableEq, Repr

/-- Why the model gives an instruction no meaning. -/
inductive Refusal where
  /-- Raised by an arm of `exec` whose instruction has no meaning yet. Safe. No arm raises it now. -/
  | notModelled (mnemonic : String)
deriving DecidableEq, Repr

/-- An empty dictionary: `U.NEXT` = 256 and nothing stored (10_state.md §3, §4; log 5). -/
def Dict.atReset : Dict where
  next := 0x100#32
  entries := []

/-- Unit G after reset (70_reset_and_hazards.md R190): no grid exists. -/
def Grid.atReset : Grid where
  valid := false
  rows := 0x0#32
  cols := 0x0#32
  cells := []

/-- Unit E after reset (70_reset_and_hazards.md R190). -/
def Encoder.atReset : Encoder where
  phase := .idle
  wvalid := false
  wcode := 0x0#32
  dict := .atReset
  err := .ok
  errInfo := 0x0#32

/-- Unit D after reset (70_reset_and_hazards.md R190). -/
def Decoder.atReset : Decoder where
  phase := .idle
  seen := false
  wcode := 0x0#32
  dict := .atReset
  err := .ok
  errInfo := 0x0#32

/-- The block with parameters `p` after reset, nothing sent and nothing answered. -/
def State.resetWith (p : Params) : State where
  cfg := p
  grid := .atReset
  enc := .atReset
  dec := .atReset
  inputs := []
  rsps := []

/-- The machine right after reset (10_state.md R49, 70_reset_and_hazards.md R190). The parameters are OPEN in the spec;
those taken here are a DESIGN CHOICE (log 4, unsafe). -/
def State.reset : State := State.resetWith Config.params

end Sys2Proof.Machine
end

