-- ==== Sys2Proof/Machine/Flags.lean ====
section
/-! DEFINITION. The numeric values of phases and status codes (10_state.md R24, 60_exceptions.md R170), and the CSRs,
which are views of the registers (10_state.md R38 to R48). -/

namespace Sys2Proof.Machine

/-- The 2-bit encoding of `U.PHASE` (10_state.md R24). -/
def Phase.code : Phase → BitVec 2
  | .idle => 0#2
  | .active => 1#2
  | .faulted => 2#2

/-- The 8-bit value of a status (60_exceptions.md R170). -/
def Status.code : Status → Byte
  | .ok => 0x00#8
  | .invalidDimension => 0x01#8
  | .outOfRange => 0x02#8
  | .indexOutOfBounds => 0x03#8
  | .emptyInput => 0x04#8
  | .malformedCode => 0x05#8
  | .capacityExceeded => 0x06#8
  | .sequenceError => 0x07#8
  | .illegalCommand => 0x08#8

/-- The layout that `ENC_STATUS` and `DEC_STATUS` share: PHASE in [1:0], WVALID or SEEN in [2], 0 in [7:3], ERR in
[15:8], 0 in [31:16] (10_state.md R43, R45). -/
def unitStatusWord (phase : Phase) (flag : Bool) (err : Status) : Word :=
  0#16 ++ err.code ++ 0#5 ++ BitVec.ofBool flag ++ phase.code

/-- The value of `GRID_STATUS`: `G.VALID` in [0], 0 above (10_state.md R47). -/
def gridStatusWord (valid : Bool) : Word := 0#31 ++ BitVec.ofBool valid

/-- The assigned CSRs of 10_state.md R40. -/
inductive Csr where
  | id
  | dictCap
  | gridCap
  | encStatus
  | encNext
  | encWcode
  | encErrInfo
  | decStatus
  | decNext
  | decWcode
  | decErrInfo
  | gridStatus
  | gridRows
  | gridCols
deriving DecidableEq, Repr

/-- The CSR map of 10_state.md R40: the register a number names, `none` for an unassigned number (R48). -/
def csrOfNumber (n : Nat) : Option Csr :=
  match n with
  | 0x00 => some .id
  | 0x01 => some .dictCap
  | 0x02 => some .gridCap
  | 0x10 => some .encStatus
  | 0x11 => some .encNext
  | 0x12 => some .encWcode
  | 0x13 => some .encErrInfo
  | 0x20 => some .decStatus
  | 0x21 => some .decNext
  | 0x22 => some .decWcode
  | 0x23 => some .decErrInfo
  | 0x30 => some .gridStatus
  | 0x31 => some .gridRows
  | 0x32 => some .gridCols
  | _ => none

/-- The value a CSR reads (10_state.md R41 to R47). -/
def csrValue (s : State) : Csr → Word
  | .id => Config.idValue
  | .dictCap => s.cfg.dictCap
  | .gridCap => s.cfg.gridCap
  | .encStatus => unitStatusWord s.enc.phase s.enc.wvalid s.enc.err
  | .encNext => s.enc.dict.next
  | .encWcode => s.enc.wcode
  | .encErrInfo => s.enc.errInfo
  | .decStatus => unitStatusWord s.dec.phase s.dec.seen s.dec.err
  | .decNext => s.dec.dict.next
  | .decWcode => s.dec.wcode
  | .decErrInfo => s.dec.errInfo
  | .gridStatus => gridStatusWord s.grid.valid
  | .gridRows => s.grid.rows
  | .gridCols => s.grid.cols

end Sys2Proof.Machine
end

