-- ==== Sys2Proof/Machine/Operands.lean ====
section
/-! DEFINITION. What a command reads from its operands: the value check (40_grid.md R102), the bounds check (R101), the
row-major index (R100) and the classification of a code (42_decoder.md R141). -/

namespace Sys2Proof.Machine

/-- `isSym(v)`: 0 ≤ `v` ≤ 255, with `v` signed (40_grid.md R102). -/
def isSym (v : Int) : Bool := decide (0 ≤ v ∧ v ≤ 255)

/-- The 8-bit symbol of a value that has passed `isSym`. -/
def symOf (v : Int) : Byte := BitVec.ofInt 8 v

/-- `inBounds(row, col)`, compared as mathematical integers (40_grid.md R101). -/
def Grid.inBounds (g : Grid) (row col : Int) : Bool :=
  decide (0 ≤ row ∧ row < g.rows.toNat ∧ 0 ≤ col ∧ col < g.cols.toNat)

/-- `idx(row, col)` = `row * G.COLS + col` (40_grid.md R100), for a pair in bounds. -/
def Grid.idx (g : Grid) (row col : Int) : Nat := row.toNat * g.cols.toNat + col.toNat

/-- `G.ROWS * G.COLS`, computed exactly (40_grid.md R103). -/
def Grid.size (g : Grid) : Nat := g.rows.toNat * g.cols.toNat

/-- The kinds of a code: "an explicit tagged branch" (42_decoder.md R141). -/
inductive CodeKind where
  | known
  | sentinel
  | malformed
deriving DecidableEq, Repr

/-- `classifyFirst(k)` (42_decoder.md R141): "The first code has no sentinel case". -/
def classifyFirst (k : Nat) : CodeKind := if k < Config.seed then .known else .malformed

/-- `classify(k)` against `D.NEXT` (42_decoder.md R141). -/
def classify (next : Word) (k : Nat) : CodeKind :=
  if k < next.toNat then .known else if k = next.toNat then .sentinel else .malformed

end Sys2Proof.Machine
end

