-- ==== Sys2Proof/Machine/Ops.lean ====
section
/-! DEFINITION. The operations the meanings share: reading and writing a table, the strings of a dictionary
(10_state.md R28, R35; 41_encoder.md R121, R122; 42_decoder.md R142), answering a command (30_encoding.md R76), raising
an error and entering or leaving FAULTED (60_exceptions.md R172 to R176), reset (70_reset_and_hazards.md R190), and
taking the next input. -/

namespace Sys2Proof.Machine

/-! ### Tables -/

/-- The value at an index, `none` if it has not been written. -/
def Table.read {α : Type} (t : Table α) (i : Nat) : Option α :=
  match t with
  | [] => none
  | (j, v) :: rest => if i = j then some v else Table.read rest i

/-- Write one index, keeping the list sorted. -/
def Table.write {α : Type} (t : Table α) (i : Nat) (v : α) : Table α :=
  match t with
  | [] => [(i, v)]
  | (j, u) :: rest =>
    if i < j then (i, v) :: (j, u) :: rest
    else if i = j then (i, v) :: rest
    else (j, u) :: Table.write rest i v

/-- Write `v` at every index below `n`. -/
def Table.fill {α : Type} (t : Table α) (n : Nat) (v : α) : Table α :=
  (List.range n).map (fun i => (i, v)) ++ t.filter (fun p => n ≤ p.1)

/-- The values at the given indices in order, `none` if one has not been written. -/
def Table.readAll {α : Type} (t : Table α) : List Nat → Option (List α)
  | [] => some []
  | i :: is =>
    match Table.read t i, Table.readAll t is with
    | some v, some vs => some (v :: vs)
    | _, _ => none

/-- The canonical form of a table: strictly rising indices. An unlisted index has no value, so no entry can equal what
it reads as. -/
abbrev Table.wf {α : Type} (t : Table α) : Prop := t.Pairwise (fun p q => p.1 < q.1)

/-- The canonical form of the grid's storage. -/
abbrev Memory.wf (m : Memory) : Prop := Table.wf m

/-- `CellRead(i)` (00_scope.md R13). -/
def Grid.cell (g : Grid) (i : Nat) : Option Byte := Table.read g.cells i

/-- `CellWrite(i, v)` (00_scope.md R13). -/
def Grid.setCell (g : Grid) (i : Nat) (v : Byte) : Grid := { g with cells := Table.write g.cells i v }

/-- Write every cell of the grid and no cell beyond it (40_grid.md R103, R104). -/
def Grid.fillCells (g : Grid) (v : Byte) : Grid := { g with cells := Table.fill g.cells g.size v }

/-- A new grid of the given shape, every cell `FILL0`; cells of an older, larger grid stay stored and are never read
(40_grid.md R103; log 6). -/
def Grid.create (g : Grid) (rows cols : Int) : Grid :=
  Grid.fillCells { g with valid := true, rows := word32 rows, cols := word32 cols } Config.fill0

/-- The cells in index order: "row 0 left-to-right, then row 1" (40_grid.md R100, 20_memory.md R51). -/
def Grid.symbols (g : Grid) : Option (List Byte) := Table.readAll g.cells (List.range g.size)

/-! ### Dictionaries -/

/-- The stored pair of code `n`, for 256 ≤ `n` < `U.NEXT`: "no command reads" an entry at or above `U.NEXT`
(10_state.md R27). -/
def Dict.entry (d : Dict) (n : Nat) : Option Entry :=
  if Config.seed ≤ n ∧ n < d.next.toNat then Table.read d.entries n else none

/-- `str_U(n)` (10_state.md R28), walking at most `fuel` codes of the prefix chain; `none` where R28 leaves it
undefined. -/
def Dict.strUpTo (d : Dict) : Nat → Nat → Option (List Byte)
  | 0, _ => none
  | fuel + 1, n =>
    if n < Config.seed then some [BitVec.ofNat 8 n]
    else
      match d.entry n with
      | none => none
      | some e =>
        match d.strUpTo fuel e.pre.toNat with
        | none => none
        | some w => some (w ++ [e.sym])

/-- `str_U(n)` (10_state.md R28). "The recursion ends, because `U.PREFIX[n]` < `n`", so the chain from `n` has at most
`n + 1` codes (log 12). -/
def Dict.str (d : Dict) (n : Nat) : Option (List Byte) := d.strUpTo (n + 1) n

/-- `first_U(n)` (10_state.md R35), walking at most `fuel` codes. -/
def Dict.firstUpTo (d : Dict) : Nat → Nat → Option Byte
  | 0, _ => none
  | fuel + 1, n =>
    if n < Config.seed then some (BitVec.ofNat 8 n)
    else
      match d.entry n with
      | none => none
      | some e => d.firstUpTo fuel e.pre.toNat

/-- `first_U(n)` (10_state.md R35). -/
def Dict.first (d : Dict) (n : Nat) : Option Byte := d.firstUpTo (n + 1) n

/-- `match_E(p, c)` (41_encoder.md R121): "the n with 256 <= n < E.NEXT and E.PREFIX[n] = p and E.SYM[n] = c". "There
is at most one such `n`" (10_state.md R34); log 11. -/
def Dict.find (d : Dict) (p : Word) (c : Byte) : Option Nat :=
  match d.entries.find? (fun q => decide (Config.seed ≤ q.1 ∧ q.1 < d.next.toNat ∧ q.2 = ⟨p, c⟩)) with
  | none => none
  | some q => some q.1

/-- `insertE` and `insertD` (41_encoder.md R122, 42_decoder.md R142): the new entry has the code `U.NEXT`. The
precondition `U.NEXT` < `DICT_CAP` is the caller's. -/
def Dict.insert (d : Dict) (p : Word) (c : Byte) : Dict where
  next := d.next + 1
  entries := Table.write d.entries d.next.toNat ⟨p, c⟩

/-- The dictionary of a fresh call: "seed: codes 0..255 are the single symbols" (41_encoder.md R124). Entries of
earlier calls stay stored and are never read (10_state.md R27): the encoder's as 41_encoder.md R124 says, the decoder's
by the model's choice (log 6). -/
def Dict.fresh (d : Dict) : Dict := { d with next := 0x100#32 }

/-! ### Answering a command -/

/-- STATUS OK with a RESULT (30_encoding.md R76). -/
def Response.value (w : Word) : Response := ⟨.ok, 0x0#32, w, []⟩

/-- STATUS OK with emitted words (30_encoding.md R76). -/
def Response.emitted (ws : List Word) : Response := ⟨.ok, 0x0#32, 0x0#32, ws⟩

/-- STATUS OK with nothing more (30_encoding.md R76). -/
def Response.done : Response := ⟨.ok, 0x0#32, 0x0#32, []⟩

/-- An error response: RESULT 0 and an empty OUT (60_exceptions.md R172). -/
def Response.error (e : Status) (info : Word) : Response := ⟨e, info, 0x0#32, []⟩

/-- Give the response of the command; the model keeps it after the earlier ones (log 1). -/
def State.respond (s : State) (r : Response) : State := { s with rsps := s.rsps ++ [r] }

/-- What a meaning answers. -/
abbrev Outcome := Host.Outcome State Fault Refusal

/-- End the command with a response. -/
def answer (s : State) (r : Response) : Outcome := .next (s.respond r)

/-! ### Errors (60_exceptions.md R172 to R176) -/

/-- `raise E(info)` for an error that fails no call: it "changes no state at all" (60_exceptions.md R172, R174). -/
def raise (e : Status) (info : Word) (s : State) : Outcome := answer s (.error e info)

/-- The encoder enters FAULTED: "these writes and no others" (60_exceptions.md R173). -/
def Encoder.fail (u : Encoder) (e : Status) (info : Word) : Encoder :=
  { u with phase := .faulted, err := e, errInfo := info }

/-- The decoder enters FAULTED: "these writes and no others" (60_exceptions.md R173). -/
def Decoder.fail (u : Decoder) (e : Status) (info : Word) : Decoder :=
  { u with phase := .faulted, err := e, errInfo := info }

/-- `raise E(info)` for an error that fails the encoder's call (60_exceptions.md R172, R173). -/
def raiseEnc (e : Status) (info : Word) (s : State) : Outcome :=
  answer { s with enc := s.enc.fail e info } (.error e info)

/-- `raise E(info)` for an error that fails the decoder's call (60_exceptions.md R172, R173). -/
def raiseDec (e : Status) (info : Word) (s : State) : Outcome :=
  answer { s with dec := s.dec.fail e info } (.error e info)

/-- START of the encoder: a fresh call, and "The only way out of FAULTED" (60_exceptions.md R176, 41_encoder.md R124). -/
def Encoder.start (u : Encoder) : Encoder where
  phase := .active
  wvalid := false
  wcode := 0x0#32
  dict := u.dict.fresh
  err := .ok
  errInfo := 0x0#32

/-- START of the decoder: a fresh call, and "The only way out of FAULTED" (60_exceptions.md R176, 42_decoder.md R144). -/
def Decoder.start (u : Decoder) : Decoder where
  phase := .active
  seen := false
  wcode := 0x0#32
  dict := u.dict.fresh
  err := .ok
  errInfo := 0x0#32

/-- The answer to an illegal command word: no state changes (30_encoding.md R74, 60_exceptions.md R174). -/
def raiseIllegal (why : Illegal) (s : State) : Outcome := raise .illegalCommand why.info s

/-! ### Reset and the input stream -/

/-- The reset event sets every register to its reset value; it has no response (70_reset_and_hazards.md R190, R191).
The responses already given stay given, and the parameters are hardwired (log 7). -/
def State.applyReset (s : State) : State :=
  { s with grid := .atReset, enc := .atReset, dec := .atReset }

/-- The oldest input not yet taken, and the state without it: commands are taken "strictly in the order it receives
them" (20_memory.md R61; log 2). -/
def State.take (s : State) : Option (Input × State) :=
  match s.inputs with
  | [] => none
  | x :: rest => some (x, { s with inputs := rest })

/-- The state with an input that will be taken next. -/
def State.sendFirst (s : State) (x : Input) : State := { s with inputs := x :: s.inputs }

end Sys2Proof.Machine
end

