-- ==== Sys2Proof/Machine/Control.lean ====
section
/-! DEFINITION. The control commands (43_control.md). -/

namespace Sys2Proof.Machine

/-- `NOP` (43_control.md R160): `respond(0)`; no state changes. -/
def execNop (s : State) : Outcome := answer s .done

/-- `READ_CSR n` (43_control.md R161). -/
def execReadCsr (n : Nat) (s : State) : Outcome :=
  match csrOfNumber n with
  | none => raise .illegalCommand 0x2#32 s
  | some r => answer s (.value (csrValue s r))

end Sys2Proof.Machine
end

