-- ==== Sys2Proof/Machine/Decoder.lean ====
section
/-! DEFINITION. The LZW decoder commands (42_decoder.md). -/

namespace Sys2Proof.Machine

/-- `emitStr(s)`: each symbol as one word, first to last (42_decoder.md R143, 30_encoding.md R77). -/
def symbolWords (w : List Byte) : List Word := w.map fun v => zext32 v.toNat

/-- The entry of a later code `k` that is not malformed (42_decoder.md R145): `str_D(k)` when it is KNOWN, else
`str_D(D.WCODE) ++ [first_D(D.WCODE)]`. -/
def Decoder.entryOf (u : Decoder) (kind : CodeKind) (k : Nat) : Option (List Byte) :=
  match kind with
  | .known => u.dict.str k
  | _ =>
    match u.dict.str u.wcode.toNat, u.dict.first u.wcode.toNat with
    | some w, some v => some (w ++ [v])
    | _, _ => none

/-- Consume a later code with its entry: `insertD(D.WCODE, first(entry))`, then `w <- entry` (42_decoder.md R145). -/
def Decoder.accept (u : Decoder) (k : Nat) (firstSym : Byte) : Decoder :=
  { u with dict := u.dict.insert u.wcode firstSym, wcode := zext32 k }

/-- Step 3 (42_decoder.md R145): the first code of a call. -/
def decPushFirst (k : Nat) (s : State) : Outcome :=
  match classifyFirst k with
  | .known => answer { s with dec := { s.dec with seen := true, wcode := zext32 k } } (.emitted [zext32 k])
  | _ => raiseDec .malformedCode (zext32 k) s

/-- Step 4 (42_decoder.md R145): every later code. "The malformed check comes before the capacity check." -/
def decPushLater (k : Nat) (s : State) : Outcome :=
  let kind := classify s.dec.dict.next k
  if kind = .malformed then raiseDec .malformedCode (zext32 k) s
  else if s.dec.dict.next = s.cfg.dictCap then raiseDec .capacityExceeded 0x2#32 s
  else
    match s.dec.entryOf kind k with
    | some (v :: rest) => answer { s with dec := s.dec.accept k v } (.emitted (symbolWords (v :: rest)))
    | _ => .fault .undefinedString

/-- `DEC_START` (42_decoder.md R144). -/
def execDecStart (s : State) : Outcome := answer { s with dec := s.dec.start } .done

/-- `DEC_PUSH k` (42_decoder.md R145). -/
def execDecPush (k : Nat) (s : State) : Outcome :=
  if s.dec.phase ≠ .active then raise .sequenceError 0x3#32 s
  else if s.dec.seen = false then decPushFirst k s
  else decPushLater k s

/-- The decoder after a successful `DEC_FINISH`; `D.NEXT` is kept (42_decoder.md R146). -/
def Decoder.finish (u : Decoder) : Decoder := { u with phase := .idle, seen := false, wcode := 0x0#32 }

/-- `DEC_FINISH` (42_decoder.md R146). -/
def execDecFinish (s : State) : Outcome :=
  if s.dec.phase ≠ .active then raise .sequenceError 0x3#32 s
  else if s.dec.seen = false then raiseDec .emptyInput 0x0#32 s
  else answer { s with dec := s.dec.finish } .done

end Sys2Proof.Machine
end

