-- ==== Sys2Proof/Machine/Encoder.lean ====
section
/-! DEFINITION. The LZW encoder commands (41_encoder.md). -/

namespace Sys2Proof.Machine

/-- The `ENC_PUSH` body from "if E.WVALID = 0" on (41_encoder.md R125): the encoder after the symbol `c` and the codes
emitted, or `none` for `CapacityExceeded(1)`. -/
def Encoder.push (cap : Word) (u : Encoder) (c : Byte) : Option (Encoder × List Word) :=
  if u.wvalid = false then some ({ u with wvalid := true, wcode := zext32 c.toNat }, [])
  else
    match u.dict.find u.wcode c with
    | some n => some ({ u with wcode := zext32 n }, [])
    | none =>
      if u.dict.next = cap then none
      else some ({ u with dict := u.dict.insert u.wcode c, wcode := zext32 c.toNat }, [u.wcode])

/-- What a run of pushes leaves: the encoder, the codes emitted, and whether every push completed. -/
structure Pushes where
  enc : Encoder
  out : List Word
  complete : Bool
deriving DecidableEq, Repr

/-- The loop of `ENC_GRID` (41_encoder.md R127): push the symbols in order. A `CapacityExceeded(1)` fails the call and
stops; "the iterations before the failing one keep their effects". -/
def Encoder.pushAll (cap : Word) (u : Encoder) : List Byte → Pushes
  | [] => ⟨u, [], true⟩
  | c :: cs =>
    match u.push cap c with
    | none => ⟨u.fail .capacityExceeded 0x1#32, [], false⟩
    | some (u', out) =>
      let rest := Encoder.pushAll cap u' cs
      { rest with out := out ++ rest.out }

/-- The response of `ENC_GRID`: on `CapacityExceeded`, "OUT = the codes emitted by the earlier iterations"
(41_encoder.md R127). -/
def Pushes.response (p : Pushes) : Response :=
  if p.complete then .emitted p.out else ⟨.capacityExceeded, 0x1#32, 0x0#32, p.out⟩

/-- `ENC_START` (41_encoder.md R124). -/
def execEncStart (s : State) : Outcome := answer { s with enc := s.enc.start } .done

/-- `ENC_PUSH c` (41_encoder.md R125). -/
def execEncPush (c : Int) (s : State) : Outcome :=
  if s.enc.phase ≠ .active then raise .sequenceError 0x2#32 s
  else if isSym c = false then raiseEnc .outOfRange (word32 c) s
  else
    match s.enc.push s.cfg.dictCap (symOf c) with
    | none => raiseEnc .capacityExceeded 0x1#32 s
    | some (u, out) => answer { s with enc := u } (.emitted out)

/-- The codes `ENC_FLUSH` emits: "if w is non-empty, emit dictionary[w]" (41_encoder.md R126). -/
def Encoder.pending (u : Encoder) : List Word := if u.wvalid then [u.wcode] else []

/-- The encoder after `ENC_FLUSH`; `E.NEXT` is kept (41_encoder.md R126). -/
def Encoder.finish (u : Encoder) : Encoder := { u with phase := .idle, wvalid := false, wcode := 0x0#32 }

/-- `ENC_FLUSH` (41_encoder.md R126). -/
def execEncFlush (s : State) : Outcome :=
  if s.enc.phase ≠ .active then raise .sequenceError 0x2#32 s
  else answer { s with enc := s.enc.finish } (.emitted s.enc.pending)

/-- `ENC_GRID` (41_encoder.md R127): "the encoder is checked first". Reading a cell changes no state (20_memory.md R58),
so the cells are read before the first push. DEDUCED (log 10). -/
def execEncGrid (s : State) : Outcome :=
  if s.enc.phase ≠ .active then raise .sequenceError 0x2#32 s
  else if s.grid.valid = false then raise .sequenceError 0x1#32 s
  else
    match s.grid.symbols with
    | none => .fault .unwrittenCell
    | some cs =>
      let p := s.enc.pushAll s.cfg.dictCap cs
      answer { s with enc := p.enc } p.response

end Sys2Proof.Machine
end

