-- ==== Sys2Proof/Machine/Grid.lean ====
section
/-! DEFINITION. The Symbol Grid commands (40_grid.md). -/

namespace Sys2Proof.Machine

/-- `GRID_CREATE rows, cols` (40_grid.md R103). "The product `rows*cols` is computed exactly, not in 32 bits." -/
def execGridCreate (rows cols : Int) (s : State) : Outcome :=
  if rows ≤ 0 ∨ cols ≤ 0 then raise .invalidDimension 0x0#32 s
  else if rows * cols > s.cfg.gridCap.toNat then raise .capacityExceeded 0x0#32 s
  else answer { s with grid := s.grid.create rows cols } .done

/-- `GRID_CLEAR value` (40_grid.md R104). -/
def execGridClear (value : Int) (s : State) : Outcome :=
  if s.grid.valid = false then raise .sequenceError 0x1#32 s
  else if isSym value = false then raise .outOfRange (word32 value) s
  else answer { s with grid := s.grid.fillCells (symOf value) } .done

/-- `GRID_GET row, col` (40_grid.md R105). -/
def execGridGet (row col : Int) (s : State) : Outcome :=
  if s.grid.valid = false then raise .sequenceError 0x1#32 s
  else if s.grid.inBounds row col = false then raise .indexOutOfBounds 0x0#32 s
  else
    match s.grid.cell (s.grid.idx row col) with
    | none => .fault .unwrittenCell
    | some v => answer s (.value (zext32 v.toNat))

/-- `GRID_SET row, col, value` (40_grid.md R106): the index is checked before the value. -/
def execGridSet (row col value : Int) (s : State) : Outcome :=
  if s.grid.valid = false then raise .sequenceError 0x1#32 s
  else if s.grid.inBounds row col = false then raise .indexOutOfBounds 0x0#32 s
  else if isSym value = false then raise .outOfRange (word32 value) s
  else answer { s with grid := s.grid.setCell (s.grid.idx row col) (symOf value) } .done

/-- `GRID_ROWS` (40_grid.md R107). -/
def execGridRows (s : State) : Outcome :=
  if s.grid.valid = false then raise .sequenceError 0x1#32 s
  else answer s (.value s.grid.rows)

/-- `GRID_COLS` (40_grid.md R108). -/
def execGridCols (s : State) : Outcome :=
  if s.grid.valid = false then raise .sequenceError 0x1#32 s
  else answer s (.value s.grid.cols)

end Sys2Proof.Machine
end

