-- ==== Sys2Proof/Machine/Dispatch.lean ====
section
/-! DEFINITION. One arm per command of 30_encoding.md R73. -/

namespace Sys2Proof.Machine

def exec (i : Instr) (s : State) : Host.Outcome State Fault Refusal :=
  match i with
  -- 43_control.md
  | .nop => Sys2Proof.Machine.execNop s
  | .readCsr n => Sys2Proof.Machine.execReadCsr n s
  -- 40_grid.md
  | .gridCreate rows cols => Sys2Proof.Machine.execGridCreate rows cols s
  | .gridClear value => Sys2Proof.Machine.execGridClear value s
  | .gridGet row col => Sys2Proof.Machine.execGridGet row col s
  | .gridSet row col value => Sys2Proof.Machine.execGridSet row col value s
  | .gridRows => Sys2Proof.Machine.execGridRows s
  | .gridCols => Sys2Proof.Machine.execGridCols s
  -- 41_encoder.md
  | .encStart => Sys2Proof.Machine.execEncStart s
  | .encPush c => Sys2Proof.Machine.execEncPush c s
  | .encFlush => Sys2Proof.Machine.execEncFlush s
  | .encGrid => Sys2Proof.Machine.execEncGrid s
  -- 42_decoder.md
  | .decStart => Sys2Proof.Machine.execDecStart s
  | .decPush k => Sys2Proof.Machine.execDecPush k s
  | .decFinish => Sys2Proof.Machine.execDecFinish s

end Sys2Proof.Machine
end

