-- ==== Sys2Proof/Machine/Step.lean ====
section
/-! DEFINITION. One step of the block: it takes the oldest input and runs it to completion (00_scope.md R14,
20_memory.md R57, R61). -/

namespace Sys2Proof.Machine

/-- One step. With no input the block waits and "keeps its state" (60_exceptions.md R186; log 3). A command that does
not decode raises `IllegalCommand` (30_encoding.md R74). -/
def step (s : State) : Host.Outcome State Fault Refusal :=
  match s.take with
  | none => .next s
  | some (.reset, s') => .next s'.applyReset
  | some (.command c, s') =>
    match decode c with
    | .error why => raiseIllegal why s'
    | .ok i => exec i s'

/-- `s` with the instruction of a row's word as the input that `step` takes next: the host sends it (log 2). -/
def State.withFetchWord (s : State) (nbits w : Nat) : State :=
  match commandOfTableWord nbits w with
  | some c => s.sendFirst (.command c)
  | none => s

end Sys2Proof.Machine
end

