-- ==== Sys2Proof/Machine/Assembler.lean ====
section
/-! DEFINITION. The assembler form of a command (30_encoding.md R81) and the pseudo-commands (R82). Text is a list of
characters. -/

namespace Sys2Proof.Machine

/-- The value of a decimal digit. -/
def digitValue (c : Char) : Option Nat :=
  if 48 ≤ c.toNat ∧ c.toNat ≤ 57 then some (c.toNat - 48) else none

/-- The value of a hexadecimal digit, in either case (log 14). -/
def hexValue (c : Char) : Option Nat :=
  if 48 ≤ c.toNat ∧ c.toNat ≤ 57 then some (c.toNat - 48)
  else if 65 ≤ c.toNat ∧ c.toNat ≤ 70 then some (c.toNat - 55)
  else if 97 ≤ c.toNat ∧ c.toNat ≤ 102 then some (c.toNat - 87)
  else none

/-- Read digits of a base, most significant first, after the value `acc` of those before. -/
def readDigits (value : Char → Option Nat) (base acc : Nat) : List Char → Option Nat
  | [] => some acc
  | c :: cs =>
    match value c with
    | none => none
    | some d => readDigits value base (acc * base + d) cs

/-- A number: "decimal or `0x` hexadecimal integers" (30_encoding.md R81). -/
def readNat : List Char → Option Nat
  | [] => none
  | ['0', 'x'] => none
  | '0' :: 'x' :: cs => readDigits hexValue 16 0 cs
  | cs => readDigits digitValue 10 0 cs

/-- An operand: "A signed operand may be negative" (30_encoding.md R81). -/
def readOperand : List Char → Option Int
  | '-' :: cs =>
    match readNat cs with
    | none => none
    | some n => some (-(n : Int))
  | cs =>
    match readNat cs with
    | none => none
    | some n => some n

/-- Split at a character; the pieces between its occurrences. -/
def splitAt (sep : Char) : List Char → List (List Char)
  | [] => [[]]
  | c :: cs =>
    match splitAt sep cs with
    | [] => [[c]]
    | p :: ps => if c = sep then [] :: p :: ps else (c :: p) :: ps

/-- Read every operand, `none` if one is no integer. -/
def readOperands : List (List Char) → Option (List Int)
  | [] => some []
  | p :: ps =>
    match readOperand p, readOperands ps with
    | some v, some vs => some (v :: vs)
    | _, _ => none

/-- The mnemonic of a command (30_encoding.md R73). -/
def mnemonicChars : Instr → List Char
  | .nop => ['N', 'O', 'P']
  | .readCsr _ => ['R', 'E', 'A', 'D', '_', 'C', 'S', 'R']
  | .gridCreate _ _ => ['G', 'R', 'I', 'D', '_', 'C', 'R', 'E', 'A', 'T', 'E']
  | .gridClear _ => ['G', 'R', 'I', 'D', '_', 'C', 'L', 'E', 'A', 'R']
  | .gridGet _ _ => ['G', 'R', 'I', 'D', '_', 'G', 'E', 'T']
  | .gridSet _ _ _ => ['G', 'R', 'I', 'D', '_', 'S', 'E', 'T']
  | .gridRows => ['G', 'R', 'I', 'D', '_', 'R', 'O', 'W', 'S']
  | .gridCols => ['G', 'R', 'I', 'D', '_', 'C', 'O', 'L', 'S']
  | .encStart => ['E', 'N', 'C', '_', 'S', 'T', 'A', 'R', 'T']
  | .encPush _ => ['E', 'N', 'C', '_', 'P', 'U', 'S', 'H']
  | .encFlush => ['E', 'N', 'C', '_', 'F', 'L', 'U', 'S', 'H']
  | .encGrid => ['E', 'N', 'C', '_', 'G', 'R', 'I', 'D']
  | .decStart => ['D', 'E', 'C', '_', 'S', 'T', 'A', 'R', 'T']
  | .decPush _ => ['D', 'E', 'C', '_', 'P', 'U', 'S', 'H']
  | .decFinish => ['D', 'E', 'C', '_', 'F', 'I', 'N', 'I', 'S', 'H']

/-- The commands that take these operands, in the order A, B, C (30_encoding.md R71, R81). A code and a CSR number are
not negative (log 14). -/
def instrsWith : List Int → List Instr
  | [] => [.nop, .gridRows, .gridCols, .encStart, .encFlush, .encGrid, .decStart, .decFinish]
  | [a] => [.gridClear a, .encPush a] ++ (if 0 ≤ a then [.readCsr a.toNat, .decPush a.toNat] else [])
  | [a, b] => [.gridCreate a b, .gridGet a b]
  | [a, b, c] => [.gridSet a b c]
  | _ => []

/-- Assemble one line: "`MNEMONIC` followed by its operands in the order A, B, C, separated by commas" (30_encoding.md
R81). Spaces after the mnemonic's are ignored (log 14). An operand that fits no word gives no command (00_scope.md R9). -/
def assembleInstr (line : List Char) : Option Instr :=
  let name := line.takeWhile (· ≠ ' ')
  let rest := (line.dropWhile (· ≠ ' ')).filter (· ≠ ' ')
  match readOperands (if rest = [] then [] else splitAt ',' rest) with
  | none => none
  | some args => (instrsWith args).find? fun i => mnemonicChars i = name && i.wf

/-- Assemble one line to its command word: unused operands "are encoded 0" (30_encoding.md R81). -/
def assemble (line : List Char) : Option Command :=
  match assembleInstr line with
  | none => none
  | some i => some (encode i)

/-- The pseudo-commands of 30_encoding.md R82. -/
inductive Pseudo where
  | compress (x : List Int)
  | compressGrid
  | decompress (k : List Nat)
  | gridLoad (r c : Int) (v : List Int)
deriving DecidableEq, Repr

/-- The command sequence a pseudo-command expands to (30_encoding.md R82). R82 writes GRID_LOAD with exactly `r*c` values;
a list of another length gives one GRID_SET per value all the same. DESIGN CHOICE (log 17). `i/c` and `i mod c` are
Euclidean division, which matters only where `c` is not positive. DESIGN CHOICE (log 18). An operand that fits no word
gives an instruction that is not well formed (log 9). -/
def Pseudo.expand : Pseudo → List Instr
  | .compress x => [.encStart] ++ x.map .encPush ++ [.encFlush]
  | .compressGrid => [.encStart, .encGrid, .encFlush]
  | .decompress k => [.decStart] ++ k.map .decPush ++ [.decFinish]
  | .gridLoad r c v => .gridCreate r c :: v.zipIdx.map fun p => .gridSet (p.2 / c) (p.2 % c) p.1

end Sys2Proof.Machine
end

