-- ==== Sys2Proof/Machine/Link.lean ====
section
/-! DEFINITION. A response as words and as bytes (30_encoding.md R78 to R80). -/

namespace Sys2Proof.Machine

/-- A response serialised: R0 = `{24'b0, STATUS}`, R1 = `INFO`, R2 = `RESULT`, R3 = `len(OUT)`, then `OUT`
(30_encoding.md R78). -/
def Response.words (r : Response) : List Word :=
  (0#24 ++ r.status.code) :: r.info :: r.result :: zext32 r.out.length :: r.out

/-- A response on a byte-wide link: R0 first, each word little-endian (30_encoding.md R79). -/
def Response.bytes (r : Response) : List Byte := r.words.flatMap wordBytes

/-- The status a code names; 9 to 255 are reserved, "never returned" (60_exceptions.md R170). -/
def statusOfCode (b : Byte) : Option Status :=
  match b with
  | 0x00#8 => some .ok
  | 0x01#8 => some .invalidDimension
  | 0x02#8 => some .outOfRange
  | 0x03#8 => some .indexOutOfBounds
  | 0x04#8 => some .emptyInput
  | 0x05#8 => some .malformedCode
  | 0x06#8 => some .capacityExceeded
  | 0x07#8 => some .sequenceError
  | 0x08#8 => some .illegalCommand
  | _ => none

/-- Read one response from the word stream: its length is `4 + R3` words (30_encoding.md R80). `none` on a word R0 that
no response has, or where words are missing. -/
def responseOfWords : List Word → Option (Response × List Word)
  | r0 :: r1 :: r2 :: r3 :: rest =>
    if r0.extractLsb' 8 24 = 0 then
      match statusOfCode (r0.extractLsb' 0 8) with
      | none => none
      | some e =>
        if r3.toNat ≤ rest.length then some (⟨e, r1, r2, rest.take r3.toNat⟩, rest.drop r3.toNat) else none
    else none
  | _ => none

/-- The result of a command sequence: "the concatenation of the `OUT` lists of its commands" (30_encoding.md R82,
41_encoder.md R128, 42_decoder.md R147). -/
def outOfAll (rs : List Response) : List Word := rs.flatMap Response.out

/-- Whether every command of a sequence responded OK: it "fails if any of its commands responds with an error"
(30_encoding.md R82). -/
def allOk (rs : List Response) : Bool := rs.all fun r => decide (r.status = .ok)

end Sys2Proof.Machine
end

