-- ==== Sys2Proof/Machine/Reference.lean ====
section
/-! DEFINITION. The reference functions `compress` (41_encoder.md R120) and `decompress` (42_decoder.md R140), over
strings of symbols. The block is compared with them; it does not call them. -/

namespace Sys2Proof.Machine

/-- The variables of `compress` (41_encoder.md R120). -/
structure CompressState where
  dict : List (List Byte × Nat)
  next : Nat
  w : List Byte
  out : List Nat
deriving DecidableEq, Repr

/-- Steps 1 and 2 (41_encoder.md R120): "256 seeds, codes 0..255", and an empty prefix. -/
def compressInit : CompressState where
  dict := (List.range 256).map fun v => ([BitVec.ofNat 8 v], v)
  next := 256
  w := []
  out := []

/-- `out ++ [dict[w]]` (41_encoder.md R120). `dict[w]` "is always defined where it is read"; an undefined one would add
nothing, and `Obligations.CompressProperties` would fail (log 16). -/
def CompressState.emitW (st : CompressState) : List Nat := st.out ++ (st.dict.lookup st.w).toList

/-- One iteration of step 3 (41_encoder.md R120). -/
def compressStep (st : CompressState) (c : Byte) : CompressState :=
  match st.dict.lookup (st.w ++ [c]) with
  | some _ => { st with w := st.w ++ [c] }
  | none =>
    { dict := (st.w ++ [c], st.next) :: st.dict
      next := st.next + 1
      w := [c]
      out := st.emitW }

/-- `compress(x)` (41_encoder.md R120). Step 4: "the step 4 guard is required". -/
def compress (x : List Byte) : List Nat :=
  let st := x.foldl compressStep compressInit
  if st.w = [] then st.out else st.emitW

/-- `ins(x)`: the number of insertions `compress(x)` makes (41_encoder.md R129). -/
def insertions (x : List Byte) : Nat := (compress x).length - 1

/-- How `decompress` fails (42_decoder.md R140). -/
inductive DecompressError where
  | emptyInput
  | malformedCode (k : Nat)
deriving DecidableEq, Repr

/-- The variables of `decompress` (42_decoder.md R140). -/
structure DecompressState where
  dict : List (Nat × List Byte)
  next : Nat
  w : List Byte
  result : List Byte
deriving DecidableEq, Repr

/-- Step 1 (42_decoder.md R140). -/
def decompressSeeds : List (Nat × List Byte) := (List.range 256).map fun v => (v, [BitVec.ofNat 8 v])

/-- One iteration of step 4 (42_decoder.md R140). `first(w)` is defined only for a non-empty `w` (00_scope.md R12), so
`w.take 1` stands for the list `[first(w)]`. -/
def decompressStep (st : DecompressState) (kk : Nat) : Except DecompressError DecompressState :=
  match st.dict.lookup kk with
  | some entry => .ok (next entry)
  | none => if kk = st.next then .ok (next (st.w ++ st.w.take 1)) else .error (.malformedCode kk)
where
  next (entry : List Byte) : DecompressState :=
    { dict := (st.next, st.w ++ entry.take 1) :: st.dict
      next := st.next + 1
      w := entry
      result := st.result ++ entry }

/-- Step 4 over the codes after the first, and step 5 (42_decoder.md R140). -/
def decompressRest (st : DecompressState) : List Nat → Except DecompressError (List Byte)
  | [] => .ok st.result
  | kk :: ks =>
    match decompressStep st kk with
    | .error e => .error e
    | .ok st' => decompressRest st' ks

/-- `decompress(k)` (42_decoder.md R140). -/
def decompress : List Nat → Except DecompressError (List Byte)
  | [] => .error .emptyInput
  | k0 :: ks =>
    if 256 ≤ k0 then .error (.malformedCode k0)
    else
      let w := [BitVec.ofNat 8 k0]
      decompressRest ⟨decompressSeeds, 256, w, w⟩ ks

end Sys2Proof.Machine
end

