-- ==== Sys2Proof/Safety.lean ====
section
/-! DEFINITION. The terms claims use: the invariant of the block (10_state.md R33, R34), what it means for a command to
answer with a response and nothing else, and the host sending a command sequence. -/

namespace Sys2Proof.Machine

/-! ### The invariant (10_state.md R22, R30, R33, R34) -/

/-- Unit G: its shape is legal, its storage has the canonical form, and every cell of the grid has been written. -/
structure Grid.Inv (p : Params) (g : Grid) : Prop where
  shape : if g.valid then 1 ≤ g.rows.toNat ∧ 1 ≤ g.cols.toNat ∧ g.size ≤ p.gridCap.toNat
    else g.rows = 0 ∧ g.cols = 0
  canonical : Memory.wf g.cells
  bounded : ∀ q ∈ g.cells, q.1 < p.gridCap.toNat
  written : ∀ i < g.size, (g.cell i).isSome

/-- A dictionary: 256 ≤ `U.NEXT` ≤ `DICT_CAP`, canonical storage, and every code below `U.NEXT` and not a seed is
stored with `U.PREFIX[n]` < `n`. -/
structure Dict.Inv (p : Params) (d : Dict) : Prop where
  low : Config.seed ≤ d.next.toNat
  high : d.next.toNat ≤ p.dictCap.toNat
  canonical : Table.wf d.entries
  bounded : ∀ q ∈ d.entries, Config.seed ≤ q.1 ∧ q.1 < p.dictCap.toNat
  stored : ∀ n, Config.seed ≤ n → n < d.next.toNat → ∃ e, d.entry n = some e ∧ e.pre.toNat < n

/-- No two codes of a dictionary have the same pair (10_state.md R34). The encoder keeps this; the decoder need not. -/
def Dict.PairsDistinct (d : Dict) : Prop :=
  ∀ m n e, d.entry m = some e → d.entry n = some e → m = n

/-- Unit E (10_state.md R30, R33, R34; 60_exceptions.md R173). -/
structure Encoder.Inv (p : Params) (u : Encoder) : Prop where
  dict : Dict.Inv p u.dict
  distinct : u.dict.PairsDistinct
  code : if u.wvalid then u.wcode.toNat < u.dict.next.toNat else u.wcode = 0
  error : if u.phase = .faulted then u.err = .outOfRange ∨ (u.err = .capacityExceeded ∧ u.errInfo = 1)
    else u.err = .ok ∧ u.errInfo = 0

/-- Unit D (10_state.md R31, R33; 60_exceptions.md R173). -/
structure Decoder.Inv (p : Params) (u : Decoder) : Prop where
  dict : Dict.Inv p u.dict
  code : if u.seen then u.wcode.toNat < u.dict.next.toNat else u.wcode = 0
  error : if u.phase = .faulted then
      u.err = .malformedCode ∨ (u.err = .emptyInput ∧ u.errInfo = 0) ∨ (u.err = .capacityExceeded ∧ u.errInfo = 2)
    else u.err = .ok ∧ u.errInfo = 0

/-- The invariant of the block: legal parameters, and each unit's invariant. -/
structure State.Inv (s : State) : Prop where
  params : s.cfg.legal
  grid : Grid.Inv s.cfg s.grid
  enc : Encoder.Inv s.cfg s.enc
  dec : Decoder.Inv s.cfg s.dec

/-! ### Answers -/

/-- The outcome is the state `t` with the response `r` given after the earlier ones. -/
def Answers (o : Outcome) (t : State) (r : Response) : Prop :=
  o = .next { t with rsps := t.rsps ++ [r] }

/-- The command raises the error and "changes no state at all" (60_exceptions.md R174). -/
def OnlyRaises (o : Outcome) (s : State) (e : Status) (info : Word) : Prop :=
  Answers o s ⟨e, info, 0x0#32, []⟩

/-- Every register and CSR of the block holds its reset value (70_reset_and_hazards.md R190, 10_state.md R40). -/
def AtReset (p : Params) (t : State) : Prop :=
  t.cfg = p ∧
  t.grid.valid = false ∧ t.grid.rows = 0 ∧ t.grid.cols = 0 ∧
  t.enc.phase = .idle ∧ t.enc.wvalid = false ∧ t.enc.wcode = 0 ∧ t.enc.dict.next = 256 ∧
  t.enc.err.code = 0 ∧ t.enc.errInfo = 0 ∧
  t.dec.phase = .idle ∧ t.dec.seen = false ∧ t.dec.wcode = 0 ∧ t.dec.dict.next = 256 ∧
  t.dec.err.code = 0 ∧ t.dec.errInfo = 0 ∧
  csrValue t .id = 0x4C5A5701 ∧ csrValue t .dictCap = p.dictCap ∧ csrValue t .gridCap = p.gridCap ∧
  csrValue t .encStatus = 0 ∧ csrValue t .encNext = 0x100 ∧ csrValue t .encWcode = 0 ∧
  csrValue t .encErrInfo = 0 ∧ csrValue t .decStatus = 0 ∧ csrValue t .decNext = 0x100 ∧
  csrValue t .decWcode = 0 ∧ csrValue t .decErrInfo = 0 ∧ csrValue t .gridStatus = 0 ∧
  csrValue t .gridRows = 0 ∧ csrValue t .gridCols = 0

/-- READ_CSR of number `n` gives the word `w` and changes nothing (43_control.md R161). -/
def CsrReads (s : State) (n : Nat) (w : Word) : Prop := Answers (exec (.readCsr n) s) s ⟨.ok, 0, w, []⟩

/-- The fields of ENC_STATUS and DEC_STATUS: PHASE in [1:0] (0, 1 or 2), WVALID or SEEN in [2], ERR in [15:8], and 0 in
the reserved bits (10_state.md R24, R43, R45). -/
def StatusFields (w : Word) (ph : Phase) (f : Bool) (e : Status) : Prop :=
  w.extractLsb' 0 2 = (match ph with | .idle => 0#2 | .active => 1#2 | .faulted => 2#2) ∧
  w.getLsbD 2 = f ∧ w.extractLsb' 3 5 = 0 ∧ w.extractLsb' 8 8 = e.code ∧ w.extractLsb' 16 16 = 0

/-- No stored entry below `E.NEXT` is the pair of the working code and `c`: "NONE if there is no such n" (41_encoder.md
R121). -/
def NoMatch (u : Encoder) (c : Int) : Prop :=
  ∀ n e, 256 ≤ n → n < u.dict.next.toNat → Table.read u.dict.entries n = some e →
    ¬ (e.pre = u.wcode ∧ (e.sym.toNat : Int) = c)

/-- DEC_PUSH fails the call: the error, and PHASE, ERR and ERRINFO of the decoder and nothing else (42_decoder.md R145,
60_exceptions.md R173). -/
def DecPushFails (s : State) (k : Nat) (e : Status) (info : Word) : Prop :=
  Answers (exec (.decPush k) s) { s with dec := { s.dec with phase := .faulted, err := e, errInfo := info } }
    ⟨e, info, 0, []⟩

/-- DEC_PUSH consumes a later code whose string is `entry`: it emits the string, inserts the pair of the previous code
and the string's first symbol at `D.NEXT` and nowhere else, and makes `k` the working code, whose string is then
`entry` (42_decoder.md R145). -/
def DecPushConsumes (s : State) (k : Nat) (entry : List Byte) : Prop :=
  ∃ (v : Byte) (d : Dict), entry.head? = some v ∧
    Answers (exec (.decPush k) s) { s with dec := { s.dec with wcode := BitVec.ofNat 32 k, dict := d } }
      ⟨.ok, 0, 0, entry.map fun b => b.setWidth 32⟩ ∧
    d.next.toNat = s.dec.dict.next.toNat + 1 ∧
    (∀ n, Table.read d.entries n =
      if n = s.dec.dict.next.toNat then some ⟨s.dec.wcode, v⟩ else Table.read s.dec.dict.entries n) ∧
    d.str k = some entry

/-- How many operand words a command reads, in the order A, B, C (30_encoding.md R71); 0 for an unassigned opcode. -/
def operandCount (op : Byte) : Nat :=
  match op with
  | 0x01#8 | 0x11#8 | 0x21#8 | 0x31#8 => 1
  | 0x10#8 | 0x12#8 => 2
  | 0x13#8 => 3
  | _ => 0

/-- The 15 assigned opcodes (30_encoding.md R73). -/
def opcodes : List Byte :=
  [0x00#8, 0x01#8, 0x10#8, 0x11#8, 0x12#8, 0x13#8, 0x14#8, 0x15#8, 0x20#8, 0x21#8, 0x22#8, 0x23#8, 0x30#8, 0x31#8,
    0x32#8]

/-- The grid commands (40_grid.md §2). -/
def isGridCommand : Instr → Bool
  | .gridCreate _ _ | .gridClear _ | .gridGet _ _ | .gridSet _ _ _ | .gridRows | .gridCols => true
  | _ => false

/-- The encoder commands (41_encoder.md §3). -/
def isEncCommand : Instr → Bool
  | .encStart | .encPush _ | .encFlush | .encGrid => true
  | _ => false

/-- The decoder commands (42_decoder.md §3). -/
def isDecCommand : Instr → Bool
  | .decStart | .decPush _ | .decFinish => true
  | _ => false

/-- The commands whose RESULT carries a value (30_encoding.md R76). -/
def isQuery : Instr → Bool
  | .gridGet _ _ | .gridRows | .gridCols | .readCsr _ => true
  | _ => false

/-- The commands that can emit words (30_encoding.md R76). -/
def canEmit : Instr → Bool
  | .encPush _ | .encFlush | .encGrid | .decPush _ => true
  | _ => false

/-! ### What a command can observe (10_state.md R23, R27, R49) -/

/-- The dictionaries hold the same codes: `U.NEXT` and the entries below it. Entries at or above it may differ. -/
def Dict.SameVisible (d d' : Dict) : Prop := d'.next = d.next ∧ ∀ n, d'.entry n = d.entry n

/-- The grids have the same shape and the same cells. Cells beyond `G.ROWS * G.COLS` may differ. -/
def Grid.SameVisible (g g' : Grid) : Prop :=
  g'.valid = g.valid ∧ g'.rows = g.rows ∧ g'.cols = g.cols ∧ ∀ i < g.size, g'.cell i = g.cell i

/-- The states differ at most in stored contents that do not belong to the grid or to a dictionary: cells beyond the
grid and entries at or above `U.NEXT`. -/
structure State.SameVisible (s s' : State) : Prop where
  cfg : s'.cfg = s.cfg
  inputs : s'.inputs = s.inputs
  rsps : s'.rsps = s.rsps
  grid : Grid.SameVisible s.grid s'.grid
  enc : s'.enc = { s.enc with dict := s'.enc.dict }
  encDict : Dict.SameVisible s.enc.dict s'.enc.dict
  dec : s'.dec = { s.dec with dict := s'.dec.dict }
  decDict : Dict.SameVisible s.dec.dict s'.dec.dict

/-! ### Command sequences -/

/-- The host sends a command sequence (20_memory.md R61, log 2). -/
def State.send (s : State) (is : List Instr) : State :=
  { s with inputs := s.inputs ++ is.map fun i => .command (encode i) }

/-- `k` steps from `s`, ending at the first that does not answer a next state: what the host's `Host.Core.run` does
with `Sys2Proof.core`. -/
def runSteps : Nat → State → Outcome
  | 0, s => .next s
  | k + 1, s =>
    match step s with
    | .next t => runSteps k t
    | .fault f => .fault f
    | .refused f => .refused f

/-- Running the sequence `is` from `s`, with nothing else sent, answers `t` after exactly the responses `rs`. -/
def RunsTo (s : State) (is : List Instr) (t : State) (rs : List Response) : Prop :=
  runSteps is.length ({ s with inputs := [] }.send is) = .next t ∧
    t.inputs = [] ∧ t.rsps = s.rsps ++ rs ∧ rs.length = is.length

end Sys2Proof.Machine
end

