-- ==== Sys2Proof/Certificates/Slice0/Obligations.lean ====
section
/-! DEFINITION. The statements about the LZW codec core that the provers settle. Each docstring names the rule or the
section of spec/ it formalises. -/

open Sys2Proof Sys2Proof.Machine

/-! ### Encoding, decoding and the link -/

/-- 30_encoding.md §1, §2, §4: no operand bit of a command is dropped on the way through its word. -/
def Obligations.DecodeOfEncode : Prop :=
  ∀ i : Instr, i.wf = true → decode (encode i) = .ok i

/-- 30_encoding.md §1, §2: a decoded instruction fits its words, and encoding it gives back the selection word and
every operand word it uses, and 0 in the others. -/
def Obligations.EncodeOfDecode : Prop :=
  ∀ (c : Command) (i : Instr), decode c = .ok i →
    i.wf = true ∧ (encode i).w0 = c.w0 ∧
    (encode i).w1 = (if 1 ≤ operandCount c.op then c.w1 else 0) ∧
    (encode i).w2 = (if 2 ≤ operandCount c.op then c.w2 else 0) ∧
    (encode i).w3 = (if 3 ≤ operandCount c.op then c.w3 else 0)

/-- 30_encoding.md R71, R73: the opcode map, how each opcode reads its operands, and selection by `W0` alone. -/
def Obligations.OpcodeMap : Prop :=
  (∀ a b c : Word,
    decode ⟨0x00000000#32, a, b, c⟩ = .ok .nop ∧
    decode ⟨0x00000001#32, a, b, c⟩ = .ok (.readCsr a.toNat) ∧
    decode ⟨0x00000010#32, a, b, c⟩ = .ok (.gridCreate a.toInt b.toInt) ∧
    decode ⟨0x00000011#32, a, b, c⟩ = .ok (.gridClear a.toInt) ∧
    decode ⟨0x00000012#32, a, b, c⟩ = .ok (.gridGet a.toInt b.toInt) ∧
    decode ⟨0x00000013#32, a, b, c⟩ = .ok (.gridSet a.toInt b.toInt c.toInt) ∧
    decode ⟨0x00000014#32, a, b, c⟩ = .ok .gridRows ∧
    decode ⟨0x00000015#32, a, b, c⟩ = .ok .gridCols ∧
    decode ⟨0x00000020#32, a, b, c⟩ = .ok .encStart ∧
    decode ⟨0x00000021#32, a, b, c⟩ = .ok (.encPush a.toInt) ∧
    decode ⟨0x00000022#32, a, b, c⟩ = .ok .encFlush ∧
    decode ⟨0x00000023#32, a, b, c⟩ = .ok .encGrid ∧
    decode ⟨0x00000030#32, a, b, c⟩ = .ok .decStart ∧
    decode ⟨0x00000031#32, a, b, c⟩ = .ok (.decPush a.toNat) ∧
    decode ⟨0x00000032#32, a, b, c⟩ = .ok .decFinish) ∧
  ∀ (c : Command) (i : Instr), decode c = .ok i → ∃ op ∈ opcodes, c.w0 = op.setWidth 32

/-- 30_encoding.md R72: an operand word the opcode does not use changes no result. -/
def Obligations.UnusedOperandsIgnored : Prop :=
  ∀ (c c' : Command) (s : State) (rest : List Input),
    c'.w0 = c.w0 →
    (1 ≤ operandCount c.op → c'.w1 = c.w1) →
    (2 ≤ operandCount c.op → c'.w2 = c.w2) →
    (3 ≤ operandCount c.op → c'.w3 = c.w3) →
    decode c' = decode c ∧
    step { s with inputs := .command c' :: rest } = step { s with inputs := .command c :: rest }

/-- 30_encoding.md §4: every legal row of the encoded examples, encoded and decoded, and the two illegal rows for any
operand words, the last with INFO 1 (which the spec derives from R74). -/
def Obligations.EncodedExamples : Prop :=
  encode .nop = ⟨0x00000000#32, 0x00000000#32, 0x00000000#32, 0x00000000#32⟩ ∧
  encode (.readCsr 0x11) = ⟨0x00000001#32, 0x00000011#32, 0x00000000#32, 0x00000000#32⟩ ∧
  encode (.gridCreate 3 4) = ⟨0x00000010#32, 0x00000003#32, 0x00000004#32, 0x00000000#32⟩ ∧
  encode (.gridCreate 0 4) = ⟨0x00000010#32, 0x00000000#32, 0x00000004#32, 0x00000000#32⟩ ∧
  encode (.gridClear 200) = ⟨0x00000011#32, 0x000000C8#32, 0x00000000#32, 0x00000000#32⟩ ∧
  encode (.gridGet 5 0) = ⟨0x00000012#32, 0x00000005#32, 0x00000000#32, 0x00000000#32⟩ ∧
  encode (.gridSet 1 2 999) = ⟨0x00000013#32, 0x00000001#32, 0x00000002#32, 0x000003E7#32⟩ ∧
  encode (.gridSet 0 (-1) 7) = ⟨0x00000013#32, 0x00000000#32, 0xFFFFFFFF#32, 0x00000007#32⟩ ∧
  encode .gridRows = ⟨0x00000014#32, 0x00000000#32, 0x00000000#32, 0x00000000#32⟩ ∧
  encode .gridCols = ⟨0x00000015#32, 0x00000000#32, 0x00000000#32, 0x00000000#32⟩ ∧
  encode .encStart = ⟨0x00000020#32, 0x00000000#32, 0x00000000#32, 0x00000000#32⟩ ∧
  encode (.encPush 65) = ⟨0x00000021#32, 0x00000041#32, 0x00000000#32, 0x00000000#32⟩ ∧
  encode .encFlush = ⟨0x00000022#32, 0x00000000#32, 0x00000000#32, 0x00000000#32⟩ ∧
  encode .encGrid = ⟨0x00000023#32, 0x00000000#32, 0x00000000#32, 0x00000000#32⟩ ∧
  encode .decStart = ⟨0x00000030#32, 0x00000000#32, 0x00000000#32, 0x00000000#32⟩ ∧
  encode (.decPush 999) = ⟨0x00000031#32, 0x000003E7#32, 0x00000000#32, 0x00000000#32⟩ ∧
  encode .decFinish = ⟨0x00000032#32, 0x00000000#32, 0x00000000#32, 0x00000000#32⟩ ∧
  decode ⟨0x00000000#32, 0x00000000#32, 0x00000000#32, 0x00000000#32⟩ = .ok .nop ∧
  decode ⟨0x00000001#32, 0x00000011#32, 0x00000000#32, 0x00000000#32⟩ = .ok (.readCsr 0x11) ∧
  decode ⟨0x00000010#32, 0x00000003#32, 0x00000004#32, 0x00000000#32⟩ = .ok (.gridCreate 3 4) ∧
  decode ⟨0x00000010#32, 0x00000000#32, 0x00000004#32, 0x00000000#32⟩ = .ok (.gridCreate 0 4) ∧
  decode ⟨0x00000011#32, 0x000000C8#32, 0x00000000#32, 0x00000000#32⟩ = .ok (.gridClear 200) ∧
  decode ⟨0x00000012#32, 0x00000005#32, 0x00000000#32, 0x00000000#32⟩ = .ok (.gridGet 5 0) ∧
  decode ⟨0x00000013#32, 0x00000001#32, 0x00000002#32, 0x000003E7#32⟩ = .ok (.gridSet 1 2 999) ∧
  decode ⟨0x00000013#32, 0x00000000#32, 0xFFFFFFFF#32, 0x00000007#32⟩ = .ok (.gridSet 0 (-1) 7) ∧
  decode ⟨0x00000014#32, 0x00000000#32, 0x00000000#32, 0x00000000#32⟩ = .ok .gridRows ∧
  decode ⟨0x00000015#32, 0x00000000#32, 0x00000000#32, 0x00000000#32⟩ = .ok .gridCols ∧
  decode ⟨0x00000020#32, 0x00000000#32, 0x00000000#32, 0x00000000#32⟩ = .ok .encStart ∧
  decode ⟨0x00000021#32, 0x00000041#32, 0x00000000#32, 0x00000000#32⟩ = .ok (.encPush 65) ∧
  decode ⟨0x00000022#32, 0x00000000#32, 0x00000000#32, 0x00000000#32⟩ = .ok .encFlush ∧
  decode ⟨0x00000023#32, 0x00000000#32, 0x00000000#32, 0x00000000#32⟩ = .ok .encGrid ∧
  decode ⟨0x00000030#32, 0x00000000#32, 0x00000000#32, 0x00000000#32⟩ = .ok .decStart ∧
  decode ⟨0x00000031#32, 0x000003E7#32, 0x00000000#32, 0x00000000#32⟩ = .ok (.decPush 999) ∧
  decode ⟨0x00000032#32, 0x00000000#32, 0x00000000#32, 0x00000000#32⟩ = .ok .decFinish ∧
  ∀ a b c : Word, decode ⟨0x00000024#32, a, b, c⟩ = .error .opcode ∧
    decode ⟨0x00000121#32, a, b, c⟩ = .error .reserved ∧ Illegal.reserved.info = 1

/-- 30_encoding.md §2 (illegal encodings), 60_exceptions.md §3: an unassigned opcode raises `IllegalCommand` 0, else a
non-zero reserved field raises `IllegalCommand` 1, and neither changes any state. The input stream is the model's
(log 2). -/
def Obligations.IllegalCommandChangesNothing : Prop :=
  ∀ (s : State) (c : Command) (rest : List Input), s.inputs = .command c :: rest →
    (c.w0.extractLsb' 0 8 ∉ opcodes → OnlyRaises (step s) { s with inputs := rest } .illegalCommand 0) ∧
    (c.w0.extractLsb' 0 8 ∈ opcodes → c.w0.extractLsb' 8 24 ≠ 0 →
      OnlyRaises (step s) { s with inputs := rest } .illegalCommand 1)

/-- 30_encoding.md R79: words go in order, W0 or R0 first, each little-endian; and the command comes back whole. -/
def Obligations.NarrowLinkIsLittleEndian : Prop :=
  (∀ (w : Word) (j : Nat), j < 4 →
    ∃ b, (wordBytes w)[j]? = some b ∧ b.toNat = w.toNat / 256 ^ j % 256) ∧
  (∀ w : Word, (wordBytes w).length = 4) ∧
  (∀ c : Command, c.bytes = [c.w0, c.w1, c.w2, c.w3].flatMap wordBytes) ∧
  (∀ r : Response, r.bytes = r.words.flatMap wordBytes) ∧
  ∀ (c : Command) (rest : List Byte), Command.ofBytes (c.bytes ++ rest) = some (c, rest)

/-- 30_encoding.md §3: a response is `4 + len(OUT)` words, R0 holds the status with 0 above it, and a reader that takes
`4 + R3` words gets the response back. -/
def Obligations.ResponseReadsBack : Prop :=
  ∀ (r : Response) (rest : List Word), r.out.length < 2 ^ 32 →
    r.words.length = 4 + r.out.length ∧
    (∃ r0, r.words.head? = some r0 ∧ r0.toNat = r.status.code.toNat) ∧
    responseOfWords (r.words ++ rest) = some (r, rest)

/-! ### Steps, reset and the invariant -/

/-- 00_scope.md §4, 20_memory.md §7: a step takes the oldest command and runs the instruction it decodes to, on the
state without that command. The input stream is the model's (log 2). -/
def Obligations.StepRunsDecoded : Prop :=
  ∀ (s : State) (c : Command) (rest : List Input) (i : Instr), s.inputs = .command c :: rest →
    decode c = .ok i → step s = exec i { s with inputs := rest }

/-- 70_reset_and_hazards.md R190: reset sets every register to its reset value, also in the middle of a call and with a
grid, and gives no output; and every register of `State.reset` holds its reset value. -/
def Obligations.ResetSetsEveryRegister : Prop :=
  (∀ p : Params, AtReset p (State.resetWith p)) ∧
  AtReset State.reset.cfg State.reset ∧
  ∀ (s : State) (rest : List Input), s.inputs = .reset :: rest →
    ∃ t, step s = .next t ∧ AtReset s.cfg t ∧ t.rsps = s.rsps

/-- 10_state.md §5: the invariant holds after reset, for every legal pair of parameters and for those of
`State.reset` (log 4). -/
def Obligations.InvAtReset : Prop :=
  (∀ p : Params, p.legal → (State.resetWith p).Inv) ∧ State.reset.Inv

/-- 10_state.md §5: every step keeps the invariant, from every state that meets it. -/
def Obligations.StepKeepsInv : Prop :=
  ∀ s t : State, s.Inv → step s = .next t → t.Inv

/-- 00_scope.md §4, 10_state.md §9: from every state that meets the invariant a step answers a next state: no command
stops, and no unwritten cell or entry is ever read (log 5, log 12). -/
def Obligations.StepNeverStops : Prop :=
  ∀ s : State, s.Inv → ∃ t, step s = .next t

/-- 00_scope.md §4, 30_encoding.md §3: a command is taken from the input, gives exactly one response, and changes no
parameter; a reset is taken and gives none. The input stream and the list of responses are the model's (log 1, log 2,
log 7). -/
def Obligations.OneResponsePerCommand : Prop :=
  (∀ (s t : State) (c : Command) (rest : List Input), s.inputs = .command c :: rest → step s = .next t →
    t.inputs = rest ∧ t.cfg = s.cfg ∧ ∃ r, t.rsps = s.rsps ++ [r]) ∧
  ∀ (s t : State) (rest : List Input), s.inputs = .reset :: rest → step s = .next t →
    t.inputs = rest ∧ t.cfg = s.cfg ∧ t.rsps = s.rsps

/-- 60_exceptions.md §5, 70_reset_and_hazards.md §4: nothing happens without an input. The idle step is the model's
choice (log 3). -/
def Obligations.NothingHappensUnasked : Prop :=
  ∀ s : State, s.inputs = [] → step s = .next s

/-- 30_encoding.md R76: every command gives exactly one response, and what its fields hold. -/
def Obligations.ResponseFields : Prop :=
  ∀ (s t : State) (c : Command) (rest : List Input), s.inputs = .command c :: rest → step s = .next t →
    ∃ r, t.rsps = s.rsps ++ [r] ∧
      (r.status = .ok → r.info = 0) ∧
      (r.status ≠ .ok → r.result = 0) ∧
      ((∀ i, decode c = .ok i → isQuery i = false) → r.result = 0) ∧
      ((∀ i, decode c = .ok i → canEmit i = false) → r.out = []) ∧
      (r.status ≠ .ok → decode c ≠ .ok .encGrid → r.out = [])

/-- 60_exceptions.md R173, R174: what an error changes. An error that fails a call writes PHASE, ERR and ERRINFO of its
unit and nothing else; every other error changes nothing but that the command is taken and answered. The completed
pushes of ENC_GRID keep their effects (41_encoder.md R127), so of its failure the last three registers are said here,
and that no other unit changes; `EncGridEqualsPushes` says the rest. -/
def Obligations.ErrorEffects : Prop :=
  ∀ (s t : State) (c : Command) (rest : List Input) (r : Response), s.inputs = .command c :: rest →
    step s = .next t → t.rsps = s.rsps ++ [r] → r.status ≠ .ok →
    ((∃ v, decode c = .ok (.encPush v)) ∧ (r.status = .outOfRange ∨ r.status = .capacityExceeded) ∧
      t = { s with
        enc := { s.enc with phase := .faulted, err := r.status, errInfo := r.info },
        inputs := rest, rsps := s.rsps ++ [r] }) ∨
    (decode c = .ok .encGrid ∧ r.status = .capacityExceeded ∧
      t.enc.phase = .faulted ∧ t.enc.err = r.status ∧ t.enc.errInfo = r.info ∧
      t = { s with enc := t.enc, inputs := rest, rsps := s.rsps ++ [r] }) ∨
    (((∃ k, decode c = .ok (.decPush k)) ∧ (r.status = .malformedCode ∨ r.status = .capacityExceeded) ∨
        decode c = .ok .decFinish ∧ r.status = .emptyInput) ∧
      t = { s with
        dec := { s.dec with phase := .faulted, err := r.status, errInfo := r.info },
        inputs := rest, rsps := s.rsps ++ [r] }) ∨
    ((r.status = .sequenceError ∨ r.status = .illegalCommand ∨ ∃ i, decode c = .ok i ∧ isGridCommand i = true) ∧
      t = { s with inputs := rest, rsps := s.rsps ++ [r] })

/-! ### Control commands -/

/-- 43_control.md R160: NOP changes no state, and opcode 0 with a reserved field that is not 0 is no NOP. -/
def Obligations.NopDoesNothing : Prop :=
  (∀ c : Command, c.w0 = 0x00000000#32 → decode c = .ok .nop) ∧
  (∀ (s : State) (c : Command) (rest : List Input), s.inputs = .command c :: rest →
    c.w0.extractLsb' 0 8 = 0x00#8 → c.w0.extractLsb' 8 24 ≠ 0 →
    OnlyRaises (step s) { s with inputs := rest } .illegalCommand 1) ∧
  ∀ s : State, Answers (exec .nop s) s ⟨.ok, 0, 0, []⟩

/-- 43_control.md R161, with the values of 10_state.md R40 to R48. -/
def Obligations.ReadCsrReads : Prop :=
  (∀ c : Command, c.w0 = 0x00000001#32 → decode c = .ok (.readCsr c.w1.toNat)) ∧
  (∀ s : State,
    CsrReads s 0x00 0x4C5A5701#32 ∧ CsrReads s 0x01 s.cfg.dictCap ∧ CsrReads s 0x02 s.cfg.gridCap ∧
    (∃ w, CsrReads s 0x10 w ∧ StatusFields w s.enc.phase s.enc.wvalid s.enc.err) ∧
    CsrReads s 0x11 s.enc.dict.next ∧ CsrReads s 0x12 s.enc.wcode ∧ CsrReads s 0x13 s.enc.errInfo ∧
    (∃ w, CsrReads s 0x20 w ∧ StatusFields w s.dec.phase s.dec.seen s.dec.err) ∧
    CsrReads s 0x21 s.dec.dict.next ∧ CsrReads s 0x22 s.dec.wcode ∧ CsrReads s 0x23 s.dec.errInfo ∧
    (∃ w, CsrReads s 0x30 w ∧ w.getLsbD 0 = s.grid.valid ∧ w.extractLsb' 1 31 = 0) ∧
    CsrReads s 0x31 s.grid.rows ∧ CsrReads s 0x32 s.grid.cols ∧
    ∀ n : Nat,
      n ∉ [0x00, 0x01, 0x02, 0x10, 0x11, 0x12, 0x13, 0x20, 0x21, 0x22, 0x23, 0x30, 0x31, 0x32] →
      OnlyRaises (exec (.readCsr n) s) s .illegalCommand 2) ∧
  ∀ s : State, s.Inv → s.grid.valid = false → CsrReads s 0x31 0 ∧ CsrReads s 0x32 0

/-- 60_exceptions.md R170: the status codes, and no value from 9 to 255 names one. -/
def Obligations.StatusCodes : Prop :=
  Status.ok.code.toNat = 0 ∧ Status.invalidDimension.code.toNat = 1 ∧ Status.outOfRange.code.toNat = 2 ∧
  Status.indexOutOfBounds.code.toNat = 3 ∧ Status.emptyInput.code.toNat = 4 ∧
  Status.malformedCode.code.toNat = 5 ∧ Status.capacityExceeded.code.toNat = 6 ∧
  Status.sequenceError.code.toNat = 7 ∧ Status.illegalCommand.code.toNat = 8 ∧
  (∀ e : Status, e.code.toNat ≤ 8 ∧ statusOfCode e.code = some e) ∧
  ∀ b : Byte, 9 ≤ b.toNat → statusOfCode b = none

/-! ### Symbol Grid -/

/-- 40_grid.md §2 (GRID_CREATE). That cells beyond the new grid keep what was stored is the model's choice (log 6). -/
def Obligations.GridCreateEffect : Prop :=
  (∀ c : Command, c.w0 = 0x00000010#32 → decode c = .ok (.gridCreate c.w1.toInt c.w2.toInt)) ∧
  ∀ (rows cols : Int) (s : State),
    (rows ≤ 0 ∨ cols ≤ 0 → OnlyRaises (exec (.gridCreate rows cols) s) s .invalidDimension 0) ∧
    (0 < rows → 0 < cols → s.cfg.gridCap.toNat < rows * cols →
      OnlyRaises (exec (.gridCreate rows cols) s) s .capacityExceeded 0) ∧
    (0 < rows → 0 < cols → rows * cols ≤ s.cfg.gridCap.toNat →
      ∃ g : Grid, Answers (exec (.gridCreate rows cols) s) { s with grid := g } ⟨.ok, 0, 0, []⟩ ∧
        g.valid = true ∧ (g.rows.toNat : Int) = rows ∧ (g.cols.toNat : Int) = cols ∧
        ∀ i : Nat, g.cell i = if (i : Int) < rows * cols then some 0 else s.grid.cell i)

/-- 40_grid.md R104. -/
def Obligations.GridClearEffect : Prop :=
  (∀ c : Command, c.w0 = 0x00000011#32 → decode c = .ok (.gridClear c.w1.toInt)) ∧
  ∀ (v : Int) (s : State),
    (s.grid.valid = false → OnlyRaises (exec (.gridClear v) s) s .sequenceError 1) ∧
    (s.grid.valid = true → v < 0 ∨ 255 < v →
      OnlyRaises (exec (.gridClear v) s) s .outOfRange (BitVec.ofInt 32 v)) ∧
    (s.grid.valid = true → 0 ≤ v → v ≤ 255 →
      ∃ m : Memory,
        Answers (exec (.gridClear v) s) { s with grid := { s.grid with cells := m } } ⟨.ok, 0, 0, []⟩ ∧
        ∀ i, Table.read m i =
          if i < s.grid.rows.toNat * s.grid.cols.toNat then some (BitVec.ofInt 8 v) else s.grid.cell i)

/-- 40_grid.md R105. The premise of the last clause says that the cell has been written, which the invariant gives of
every cell of a grid (log 5). -/
def Obligations.GridGetEffect : Prop :=
  (∀ c : Command, c.w0 = 0x00000012#32 → decode c = .ok (.gridGet c.w1.toInt c.w2.toInt)) ∧
  ∀ (row col : Int) (s : State), s.Inv →
    (s.grid.valid = false → OnlyRaises (exec (.gridGet row col) s) s .sequenceError 1) ∧
    (s.grid.valid = true →
      row < 0 ∨ (s.grid.rows.toNat : Int) ≤ row ∨ col < 0 ∨ (s.grid.cols.toNat : Int) ≤ col →
      OnlyRaises (exec (.gridGet row col) s) s .indexOutOfBounds 0) ∧
    (∀ r c : Nat, s.grid.valid = true → row = r → col = c → r < s.grid.rows.toNat → c < s.grid.cols.toNat →
      ∃ v : Byte, s.grid.cell (r * s.grid.cols.toNat + c) = some v ∧
        Answers (exec (.gridGet row col) s) s ⟨.ok, 0, v.setWidth 32, []⟩)

/-- 40_grid.md R106: exactly one cell changes, and the index is checked before the value. -/
def Obligations.GridSetEffect : Prop :=
  (∀ c : Command, c.w0 = 0x00000013#32 → decode c = .ok (.gridSet c.w1.toInt c.w2.toInt c.w3.toInt)) ∧
  ∀ (row col v : Int) (s : State),
    (s.grid.valid = false → OnlyRaises (exec (.gridSet row col v) s) s .sequenceError 1) ∧
    (s.grid.valid = true →
      row < 0 ∨ (s.grid.rows.toNat : Int) ≤ row ∨ col < 0 ∨ (s.grid.cols.toNat : Int) ≤ col →
      OnlyRaises (exec (.gridSet row col v) s) s .indexOutOfBounds 0) ∧
    (∀ r c : Nat, s.grid.valid = true → row = r → col = c → r < s.grid.rows.toNat → c < s.grid.cols.toNat →
      (v < 0 ∨ 255 < v → OnlyRaises (exec (.gridSet row col v) s) s .outOfRange (BitVec.ofInt 32 v)) ∧
      (0 ≤ v → v ≤ 255 →
        ∃ m : Memory,
          Answers (exec (.gridSet row col v) s) { s with grid := { s.grid with cells := m } } ⟨.ok, 0, 0, []⟩ ∧
          ∀ i, Table.read m i =
            if i = r * s.grid.cols.toNat + c then some (BitVec.ofInt 8 v) else s.grid.cell i))

/-- 40_grid.md R107, R108. -/
def Obligations.GridShapeReads : Prop :=
  (∀ c : Command, c.w0 = 0x00000014#32 → decode c = .ok .gridRows) ∧
  (∀ c : Command, c.w0 = 0x00000015#32 → decode c = .ok .gridCols) ∧
  ∀ s : State,
    (s.grid.valid = false →
      OnlyRaises (exec .gridRows s) s .sequenceError 1 ∧ OnlyRaises (exec .gridCols s) s .sequenceError 1) ∧
    (s.grid.valid = true →
      Answers (exec .gridRows s) s ⟨.ok, 0, s.grid.rows, []⟩ ∧
      Answers (exec .gridCols s) s ⟨.ok, 0, s.grid.cols, []⟩)

/-- 40_grid.md §1: the row-major index maps the pairs in bounds one-to-one onto the indices below
`G.ROWS * G.COLS`. -/
def Obligations.RowMajorIndexIsBijective : Prop :=
  ∀ g : Grid,
    (∀ row col, g.inBounds row col = true → g.idx row col < g.rows.toNat * g.cols.toNat) ∧
    (∀ row col row' col', g.inBounds row col = true → g.inBounds row' col' = true →
      g.idx row col = g.idx row' col' → row = row' ∧ col = col') ∧
    ∀ i < g.rows.toNat * g.cols.toNat, ∃ row col, g.inBounds row col = true ∧ g.idx row col = i

/-- 10_state.md R22: only a successful GRID_CREATE or reset changes the shape or makes or ends a grid. The GRID_CREATE
responds OK, and its shape is a legal one. -/
def Obligations.GridShapeFixedUntilCreate : Prop :=
  ∀ s : State, s.Inv →
    (s.grid.valid = true → s.grid.rows.toNat * s.grid.cols.toNat ≤ s.cfg.gridCap.toNat) ∧
    ∀ t, step s = .next t →
      (t.grid.valid = s.grid.valid ∧ t.grid.rows = s.grid.rows ∧ t.grid.cols = s.grid.cols) ∨
      (∃ rest, s.inputs = .reset :: rest ∧ t.grid.valid = false ∧ t.grid.rows = 0 ∧ t.grid.cols = 0) ∨
      ∃ c rest rows cols r, s.inputs = .command c :: rest ∧ decode c = .ok (.gridCreate rows cols) ∧
        t.rsps = s.rsps ++ [r] ∧ r.status = .ok ∧ 0 < rows ∧ 0 < cols ∧ rows * cols ≤ s.cfg.gridCap.toNat ∧
        t.grid.valid = true ∧ (t.grid.rows.toNat : Int) = rows ∧ (t.grid.cols.toNat : Int) = cols

/-- 10_state.md §9, with §2 and §3: contents that do not belong to the grid or to a dictionary are never observed. Two
states that meet the invariant and differ at most in cells beyond the grid and in entries at or above `U.NEXT` step to
the same response, and again differ at most so. -/
def Obligations.StaleContentsNeverObserved : Prop :=
  ∀ s s' t : State, s.Inv → s'.Inv → s.SameVisible s' → step s = .next t →
    ∃ t', step s' = .next t' ∧ t.SameVisible t'

/-! ### Encoder -/

/-- 41_encoder.md R124. -/
def Obligations.EncStartEffect : Prop :=
  (∀ c : Command, c.w0 = 0x00000020#32 → decode c = .ok .encStart) ∧
  ∀ s : State,
    Answers (exec .encStart s)
      { s with
        enc := { phase := .active, wvalid := false, wcode := 0, dict := { s.enc.dict with next := 256 },
                 err := .ok, errInfo := 0 } }
      ⟨.ok, 0, 0, []⟩

/-- 41_encoder.md R125, from every state that meets the invariant: the checks in order, the first symbol, a match, a
full dictionary, and an emission with its insertion. -/
def Obligations.EncPushEffect : Prop :=
  (∀ c : Command, c.w0 = 0x00000021#32 → decode c = .ok (.encPush c.w1.toInt)) ∧
  ∀ (c : Int) (s : State), s.Inv →
    (s.enc.phase ≠ .active → OnlyRaises (exec (.encPush c) s) s .sequenceError 2) ∧
    (s.enc.phase = .active → c < 0 ∨ 255 < c →
      Answers (exec (.encPush c) s)
        { s with enc := { s.enc with phase := .faulted, err := .outOfRange, errInfo := BitVec.ofInt 32 c } }
        ⟨.outOfRange, BitVec.ofInt 32 c, 0, []⟩) ∧
    (s.enc.phase = .active → 0 ≤ c → c ≤ 255 →
      (s.enc.wvalid = false →
        Answers (exec (.encPush c) s)
          { s with enc := { s.enc with wvalid := true, wcode := BitVec.ofInt 32 c } } ⟨.ok, 0, 0, []⟩) ∧
      (s.enc.wvalid = true →
        (∀ n e, 256 ≤ n → n < s.enc.dict.next.toNat → Table.read s.enc.dict.entries n = some e →
          e.pre = s.enc.wcode → (e.sym.toNat : Int) = c →
          Answers (exec (.encPush c) s) { s with enc := { s.enc with wcode := BitVec.ofNat 32 n } }
            ⟨.ok, 0, 0, []⟩) ∧
        (NoMatch s.enc c → s.enc.dict.next = s.cfg.dictCap →
          Answers (exec (.encPush c) s)
            { s with enc := { s.enc with phase := .faulted, err := .capacityExceeded, errInfo := 1 } }
            ⟨.capacityExceeded, 1, 0, []⟩) ∧
        (NoMatch s.enc c → s.enc.dict.next ≠ s.cfg.dictCap →
          s.enc.wcode.toNat < s.enc.dict.next.toNat ∧
          ∃ d : Dict,
            Answers (exec (.encPush c) s)
              { s with enc := { s.enc with wcode := BitVec.ofInt 32 c, dict := d } }
              ⟨.ok, 0, 0, [s.enc.wcode]⟩ ∧
            d.next.toNat = s.enc.dict.next.toNat + 1 ∧
            ∀ n, Table.read d.entries n =
              if n = s.enc.dict.next.toNat then some ⟨s.enc.wcode, BitVec.ofInt 8 c⟩
              else Table.read s.enc.dict.entries n)))

/-- 41_encoder.md R126. -/
def Obligations.EncFlushEffect : Prop :=
  (∀ c : Command, c.w0 = 0x00000022#32 → decode c = .ok .encFlush) ∧
  ∀ s : State,
    (s.enc.phase ≠ .active → OnlyRaises (exec .encFlush s) s .sequenceError 2) ∧
    (s.enc.phase = .active →
      Answers (exec .encFlush s) { s with enc := { s.enc with phase := .idle, wvalid := false, wcode := 0 } }
        ⟨.ok, 0, 0, if s.enc.wvalid = true then [s.enc.wcode] else []⟩)

/-- 41_encoder.md R127: the checks in order, and then the command is "exactly equal, in state and concatenated `OUT`",
to pushing the cells in index order; a push that fails with `CapacityExceeded` gives the command that status, with the
codes emitted before it. -/
def Obligations.EncGridEqualsPushes : Prop :=
  (∀ c : Command, c.w0 = 0x00000023#32 → decode c = .ok .encGrid) ∧
  ∀ s : State, s.Inv →
    (s.enc.phase ≠ .active → OnlyRaises (exec .encGrid s) s .sequenceError 2) ∧
    (s.enc.phase = .active → s.grid.valid = false → OnlyRaises (exec .encGrid s) s .sequenceError 1) ∧
    (s.enc.phase = .active → s.grid.valid = true →
      ∃ (cs : List Byte) (t : State) (rs : List Response),
        cs.length = s.grid.rows.toNat * s.grid.cols.toNat ∧ (∀ i < cs.length, s.grid.cell i = cs[i]?) ∧
        RunsTo s (cs.map fun b => .encPush (b.toNat : Int)) t rs ∧
        Answers (exec .encGrid s) { t with inputs := s.inputs, rsps := s.rsps }
          (if allOk rs then ⟨.ok, 0, 0, outOfAll rs⟩ else ⟨.capacityExceeded, 1, 0, outOfAll rs⟩) ∧
        (allOk rs = false → t.enc.phase = .faulted ∧ t.enc.err = .capacityExceeded ∧ t.enc.errInfo = 1))

/-- 10_state.md §3, §5: under the invariant every code below `U.NEXT` has a string, which meets the equations of the
spec; a code of 256 or more has two symbols or more; and `first_U` is the string's first symbol. Codes at or above
`U.NEXT` and above the seeds have none. -/
def Obligations.StringsOfCodes : Prop :=
  ∀ (p : Params) (d : Dict), Dict.Inv p d →
    (∀ n < 256, d.str n = some [BitVec.ofNat 8 n]) ∧
    (∀ n, 256 ≤ n → n < d.next.toNat →
      ∃ e w, Table.read d.entries n = some e ∧ d.str e.pre.toNat = some w ∧ d.str n = some (w ++ [e.sym]) ∧
        2 ≤ (w ++ [e.sym]).length) ∧
    (∀ n, d.next.toNat ≤ n → d.str n = none) ∧
    ∀ n < d.next.toNat, ∃ w v, d.str n = some w ∧ w.head? = some v ∧ d.first n = some v

/-- 10_state.md §5: no two codes of the encoder's dictionary have the same string. -/
def Obligations.EncoderStringsDistinct : Prop :=
  ∀ s : State, s.Inv → ∀ m n w, m < s.enc.dict.next.toNat → n < s.enc.dict.next.toNat →
    s.enc.dict.str m = some w → s.enc.dict.str n = some w → m = n

/-- 10_state.md §3 (`E.NEXT`), 41_encoder.md §2: within a call `E.NEXT` grows by one for each code a push or ENC_GRID
emits, and by nothing else; ENC_START sets it to 256; it stays within `DICT_CAP`. -/
def Obligations.EncNextCountsEmissions : Prop :=
  ∀ (i : Instr) (s t : State) (r : Response), s.Inv → exec i s = .next t → t.rsps = s.rsps ++ [r] →
    t.enc.dict.next.toNat ≤ s.cfg.dictCap.toNat ∧
    (i = .encStart → t.enc.dict.next.toNat = 256) ∧
    ((i = .encGrid ∨ ∃ c, i = .encPush c) →
      t.enc.dict.next.toNat = s.enc.dict.next.toNat + r.out.length) ∧
    (i ≠ .encStart → i ≠ .encGrid → (∀ c, i ≠ .encPush c) → t.enc.dict = s.enc.dict)

/-! ### Decoder -/

/-- 42_decoder.md §3 (DEC_START). That the entries of earlier calls stay stored is the model's choice (log 6). -/
def Obligations.DecStartEffect : Prop :=
  (∀ c : Command, c.w0 = 0x00000030#32 → decode c = .ok .decStart) ∧
  ∀ s : State,
    Answers (exec .decStart s)
      { s with
        dec := { phase := .active, seen := false, wcode := 0, dict := { s.dec.dict with next := 256 },
                 err := .ok, errInfo := 0 } }
      ⟨.ok, 0, 0, []⟩

/-- 42_decoder.md R145, from every state that meets the invariant: the checks in order, the first code, a known code
and the next-code sentinel. -/
def Obligations.DecPushEffect : Prop :=
  (∀ c : Command, c.w0 = 0x00000031#32 → decode c = .ok (.decPush c.w1.toNat)) ∧
  ∀ (k : Nat) (s : State), s.Inv →
    (s.dec.phase ≠ .active → OnlyRaises (exec (.decPush k) s) s .sequenceError 3) ∧
    (s.dec.phase = .active → s.dec.seen = false →
      (256 ≤ k → DecPushFails s k .malformedCode (BitVec.ofNat 32 k)) ∧
      (k < 256 →
        Answers (exec (.decPush k) s) { s with dec := { s.dec with seen := true, wcode := BitVec.ofNat 32 k } }
          ⟨.ok, 0, 0, [BitVec.ofNat 32 k]⟩)) ∧
    (s.dec.phase = .active → s.dec.seen = true →
      (s.dec.dict.next.toNat < k → DecPushFails s k .malformedCode (BitVec.ofNat 32 k)) ∧
      (k ≤ s.dec.dict.next.toNat → s.dec.dict.next = s.cfg.dictCap → DecPushFails s k .capacityExceeded 2) ∧
      (k < s.dec.dict.next.toNat → s.dec.dict.next ≠ s.cfg.dictCap →
        ∃ entry, s.dec.dict.str k = some entry ∧ DecPushConsumes s k entry) ∧
      (k = s.dec.dict.next.toNat → s.dec.dict.next ≠ s.cfg.dictCap →
        ∃ w v, s.dec.dict.str s.dec.wcode.toNat = some w ∧ w.head? = some v ∧ DecPushConsumes s k (w ++ [v])))

/-- 42_decoder.md R146. -/
def Obligations.DecFinishEffect : Prop :=
  (∀ c : Command, c.w0 = 0x00000032#32 → decode c = .ok .decFinish) ∧
  ∀ s : State,
    (s.dec.phase ≠ .active → OnlyRaises (exec .decFinish s) s .sequenceError 3) ∧
    (s.dec.phase = .active → s.dec.seen = false →
      Answers (exec .decFinish s)
        { s with dec := { s.dec with phase := .faulted, err := .emptyInput, errInfo := 0 } }
        ⟨.emptyInput, 0, 0, []⟩) ∧
    (s.dec.phase = .active → s.dec.seen = true →
      Answers (exec .decFinish s) { s with dec := { s.dec with phase := .idle, seen := false, wcode := 0 } }
        ⟨.ok, 0, 0, []⟩)

/-- 30_encoding.md §3: the bounds on the length of OUT, so that it fits word R3 of the serialised response. -/
def Obligations.OutLengthBounded : Prop :=
  ∀ (i : Instr) (s t : State) (r : Response), s.Inv → exec i s = .next t → t.rsps = s.rsps ++ [r] →
    ((∃ k, i = .decPush k) → r.out.length ≤ s.cfg.dictCap.toNat - 255) ∧
    (i = .encGrid → r.out.length ≤ s.cfg.gridCap.toNat) ∧
    ((∃ c, i = .encPush c) ∨ i = .encFlush → r.out.length ≤ 1) ∧
    r.out.length < 2 ^ 32

/-! ### Units, failures and reads -/

/-- 40_grid.md R109: no grid command reads or writes a codec register, and no codec command writes the grid. -/
def Obligations.GridAndCodecsSeparate : Prop :=
  ∀ (i : Instr) (s t : State), exec i s = .next t →
    (isGridCommand i = true →
      t.enc = s.enc ∧ t.dec = s.dec ∧
      ∀ (e : Encoder) (d : Decoder),
        exec i { s with enc := e, dec := d } = .next { t with enc := e, dec := d }) ∧
    (isEncCommand i = true ∨ isDecCommand i = true → t.grid = s.grid)

/-- 20_memory.md §7: an encoder command and a decoder command can be exchanged: each gives the same response and leaves
its unit the same in either order, and the grid is untouched. -/
def Obligations.CodecCallsInterleave : Prop :=
  ∀ (i j : Instr) (s t u : State) (r r' : Response), isEncCommand i = true → isDecCommand j = true →
    exec i s = .next t → exec j t = .next u → t.rsps = s.rsps ++ [r] → u.rsps = t.rsps ++ [r'] →
    ∃ t' u' : State, exec j s = .next t' ∧ exec i t' = .next u' ∧
      t'.rsps = s.rsps ++ [r'] ∧ u'.rsps = t'.rsps ++ [r] ∧
      u'.enc = u.enc ∧ u'.dec = u.dec ∧ u'.grid = u.grid ∧ u.grid = s.grid ∧ t.dec = s.dec ∧ u.enc = t.enc

/-- 10_state.md §6: each flag is set and cleared only by the commands whose rules name it. -/
def Obligations.FlagsWrittenByNamedCommands : Prop :=
  ∀ (i : Instr) (s t : State), exec i s = .next t →
    (t.grid.valid ≠ s.grid.valid → ∃ r c, i = .gridCreate r c) ∧
    (t.enc.phase ≠ s.enc.phase ∨ t.enc.wvalid ≠ s.enc.wvalid → isEncCommand i = true) ∧
    (t.dec.phase ≠ s.dec.phase ∨ t.dec.seen ≠ s.dec.seen → isDecCommand i = true)

/-- 60_exceptions.md R176: out of FAULTED only by the unit's START, which begins a fresh call and clears ERR and
ERRINFO, or by reset. -/
def Obligations.FaultedUntilStartOrReset : Prop :=
  ∀ s t : State, step s = .next t →
    (s.enc.phase = .faulted →
      t.enc = s.enc ∨
      (∃ rest, s.inputs = .reset :: rest ∧ t.enc.phase = .idle ∧ t.enc.err = .ok ∧ t.enc.errInfo = 0) ∨
      ∃ c rest, s.inputs = .command c :: rest ∧ decode c = .ok .encStart ∧ t.enc.phase = .active ∧
        t.enc.wvalid = false ∧ t.enc.dict.next = 256 ∧ t.enc.err = .ok ∧ t.enc.errInfo = 0) ∧
    (s.dec.phase = .faulted →
      t.dec = s.dec ∨
      (∃ rest, s.inputs = .reset :: rest ∧ t.dec.phase = .idle ∧ t.dec.err = .ok ∧ t.dec.errInfo = 0) ∨
      ∃ c rest, s.inputs = .command c :: rest ∧ decode c = .ok .decStart ∧ t.dec.phase = .active ∧
        t.dec.seen = false ∧ t.dec.dict.next = 256 ∧ t.dec.err = .ok ∧ t.dec.errInfo = 0)

/-- 10_state.md R30 (and R31 for the decoder): ERR and ERRINFO are written only when the unit enters FAULTED, with the
status and INFO of that error, and cleared only by START and reset. -/
def Obligations.ErrWrittenOnlyOnEntry : Prop :=
  ∀ s t : State, step s = .next t →
    ((t.enc.err, t.enc.errInfo) ≠ (s.enc.err, s.enc.errInfo) →
      (∃ r, s.enc.phase = .active ∧ t.enc.phase = .faulted ∧ t.rsps = s.rsps ++ [r] ∧ t.enc.err = r.status ∧
        t.enc.errInfo = r.info) ∨
      ((∃ rest, s.inputs = .reset :: rest) ∨
        ∃ c rest, s.inputs = .command c :: rest ∧ decode c = .ok .encStart) ∧
        t.enc.err = .ok ∧ t.enc.errInfo = 0) ∧
    ((t.dec.err, t.dec.errInfo) ≠ (s.dec.err, s.dec.errInfo) →
      (∃ r, s.dec.phase = .active ∧ t.dec.phase = .faulted ∧ t.rsps = s.rsps ++ [r] ∧ t.dec.err = r.status ∧
        t.dec.errInfo = r.info) ∨
      ((∃ rest, s.inputs = .reset :: rest) ∨
        ∃ c rest, s.inputs = .command c :: rest ∧ decode c = .ok .decStart) ∧
        t.dec.err = .ok ∧ t.dec.errInfo = 0)

/-- 20_memory.md §4: a read changes no register, so doing it again gives the same response; and GRID_SET and GRID_CLEAR
done twice leave what they leave once. -/
def Obligations.ReadsChangeNothing : Prop :=
  ∀ (i : Instr) (s t : State) (r : Response), exec i s = .next t → t.rsps = s.rsps ++ [r] →
    (isQuery i = true →
      t = { s with rsps := s.rsps ++ [r] } ∧ exec i t = .next { s with rsps := s.rsps ++ [r, r] }) ∧
    ((∃ row col v, i = .gridSet row col v) ∨ (∃ v, i = .gridClear v) →
      ∃ u, exec i t = .next u ∧ u.rsps = t.rsps ++ [r] ∧ u.grid.valid = t.grid.valid ∧
        u.grid.rows = t.grid.rows ∧ u.grid.cols = t.grid.cols ∧ ∀ n, u.grid.cell n = t.grid.cell n)

/-! ### Calls and the reference functions -/

/-- 41_encoder.md §4: a `compress` call, from any state that meets the invariant, gives the codes of the reference
function when its insertions fit, and leaves the count of them in `E.NEXT`; the other units are untouched. -/
def Obligations.CompressMatchesReference : Prop :=
  ∀ (s : State) (x : List Byte), s.Inv → insertions x ≤ s.cfg.dictCap.toNat - 256 →
    ∃ t rs, RunsTo s (Pseudo.compress (x.map fun b => (b.toNat : Int))).expand t rs ∧ allOk rs = true ∧
      (outOfAll rs).map BitVec.toNat = compress x ∧ t.enc.phase = .idle ∧
      t.enc.dict.next.toNat = 256 + insertions x ∧ t.grid = s.grid ∧ t.dec = s.dec

/-- 41_encoder.md §4: when the insertions do not fit, the call fails with `CapacityExceeded` 1, after the first
`DICT_CAP` − 256 codes of the reference function. -/
def Obligations.CompressFailsAtCapacity : Prop :=
  ∀ (s : State) (x : List Byte), s.Inv → s.cfg.dictCap.toNat - 256 < insertions x →
    ∃ t rs, RunsTo s (Pseudo.compress (x.map fun b => (b.toNat : Int))).expand t rs ∧ allOk rs = false ∧
      (outOfAll rs).map BitVec.toNat = (compress x).take (s.cfg.dictCap.toNat - 256) ∧
      t.enc.phase = .faulted ∧ t.enc.err = .capacityExceeded ∧ t.enc.errInfo = 1

/-- 41_encoder.md §4: a pushed integer outside [0,255] fails the call with `OutOfRange` at that push, when the
symbols before it fit; whatever follows it raises `SequenceError`. -/
def Obligations.CompressRejectsNonSymbol : Prop :=
  ∀ (s : State) (x : List Byte) (v : Int) (y : List Int), s.Inv → insertions x ≤ s.cfg.dictCap.toNat - 256 →
    v < 0 ∨ 255 < v → (Instr.encPush v).wf = true →
    ∃ t rs before after,
      RunsTo s (Pseudo.compress ((x.map fun b => (b.toNat : Int)) ++ v :: y)).expand t rs ∧
      rs = before ++ [⟨.outOfRange, BitVec.ofInt 32 v, 0, []⟩] ++ after ∧ allOk before = true ∧
      before.length = x.length + 1 ∧ (∀ r ∈ after, r = ⟨.sequenceError, 2, 0, []⟩) ∧
      t.enc.phase = .faulted ∧ t.enc.err = .outOfRange ∧ t.enc.errInfo = BitVec.ofInt 32 v

/-- 41_encoder.md §4: properties of the reference function. -/
def Obligations.CompressProperties : Prop :=
  compress [] = [] ∧
  ∀ x : List Byte,
    (x ≠ [] → 1 ≤ (compress x).length) ∧ (compress x).length ≤ x.length ∧
    ∀ (i k : Nat), (compress x)[i]? = some k → k < 256 + i

/-- 41_encoder.md §4: the encoder's responses and final registers depend only on the symbols pushed since ENC_START and
on `DICT_CAP`, not on earlier calls, the decoder or the grid. -/
def Obligations.EncoderForgetsThePast : Prop :=
  ∀ (s s' t t' : State) (x : List Int) (rs rs' : List Response), s.Inv → s'.Inv →
    s'.cfg.dictCap = s.cfg.dictCap →
    RunsTo s (Pseudo.compress x).expand t rs → RunsTo s' (Pseudo.compress x).expand t' rs' →
    rs' = rs ∧ t'.enc.phase = t.enc.phase ∧ t'.enc.wvalid = t.enc.wvalid ∧ t'.enc.wcode = t.enc.wcode ∧
    t'.enc.dict.next = t.enc.dict.next ∧ t'.enc.err = t.enc.err ∧ t'.enc.errInfo = t.enc.errInfo

/-- 42_decoder.md §4: a `decompress` call gives exactly the outcome of the reference function, from any state that
meets the invariant. -/
def Obligations.DecompressMatchesReference : Prop :=
  ∀ (s : State) (k : List Nat), s.Inv → (∀ c ∈ k, c < 2 ^ 32) → k.length - 1 ≤ s.cfg.dictCap.toNat - 256 →
    ∃ t rs, RunsTo s (Pseudo.decompress k).expand t rs ∧
      (∀ x, decompress k = .ok x →
        allOk rs = true ∧ outOfAll rs = (x.map fun b => b.setWidth 32) ∧ t.dec.phase = .idle) ∧
      (decompress k = .error .emptyInput → rs = [⟨.ok, 0, 0, []⟩, ⟨.emptyInput, 0, 0, []⟩]) ∧
      ∀ c, decompress k = .error (.malformedCode c) →
        ∃ (before after : List Response), allOk before = true ∧ 1 ≤ before.length ∧
          k[before.length - 1]? = some c ∧
          rs = before ++ [⟨.malformedCode, BitVec.ofNat 32 c, 0, []⟩] ++ after ∧
          (∀ r ∈ after, r = ⟨.sequenceError, 3, 0, []⟩) ∧ after ≠ [] ∧
          t.dec.phase = .faulted ∧ t.dec.err = .malformedCode ∧ t.dec.errInfo = BitVec.ofNat 32 c

/-- 42_decoder.md §4: the round trip of a non-empty list, on the reference functions and on the block: the codes that a
`compress` call emits, sent in order to the decoder, give the symbols back with no error, and the two dictionaries
agree on every code. -/
def Obligations.RoundTrip : Prop :=
  ∀ (s : State) (x : List Byte), s.Inv → x ≠ [] → insertions x ≤ s.cfg.dictCap.toNat - 256 →
    decompress (compress x) = .ok x ∧
    ∃ t rs u rs',
      RunsTo s (Pseudo.compress (x.map fun b => (b.toNat : Int))).expand t rs ∧ allOk rs = true ∧
      RunsTo t (Pseudo.decompress ((outOfAll rs).map BitVec.toNat)).expand u rs' ∧ allOk rs' = true ∧
      outOfAll rs' = (x.map fun b => b.setWidth 32) ∧
      u.dec.dict.next = u.enc.dict.next ∧
      ∀ n < u.dec.dict.next.toNat, u.dec.dict.str n = u.enc.dict.str n
end

