-- ==== Sys2Proof/Laws/Decode.lean ====
section
/-! SUPPORT. What the decoder answers, in terms of its opcode map and its reserved field. -/

namespace Sys2Proof

/-- An assigned opcode with a zero reserved field decodes to its row of the opcode map. -/
theorem decode_eq_ok {c : Command} {i : Instr} (h : decodeOp c.op c.w1 c.w2 c.w3 = some i) (hr : c.rsv = 0) :
    decode c = .ok i := by
  unfold decode
  rw [h]
  exact if_pos hr

/-- A decoded command has an assigned opcode and a zero reserved field. -/
theorem decode_ok_inv {c : Command} {i : Instr} (h : decode c = .ok i) :
    decodeOp c.op c.w1 c.w2 c.w3 = some i ∧ c.rsv = 0 := by
  unfold decode at h
  split at h
  · cases h
  · rename_i j hj
    split at h
    · rename_i hr
      cases h
      exact ⟨hj, hr⟩
    · cases h

/-- The opcode check comes first, then the reserved field (30_encoding.md R74). -/
theorem decode_eq_error_opcode_iff (c : Command) :
    decode c = .error .opcode ↔ decodeOp c.op c.w1 c.w2 c.w3 = none := by
  unfold decode
  split
  · rename_i h
    simp [h]
  · rename_i j h
    split <;> simp [h]

theorem decode_eq_error_reserved_iff (c : Command) :
    decode c = .error .reserved ↔ decodeOp c.op c.w1 c.w2 c.w3 ≠ none ∧ c.rsv ≠ 0 := by
  unfold decode
  split
  · rename_i h
    simp [h]
  · rename_i j h
    split <;> simp_all

/-- The selection word is the opcode below and the reserved field above (30_encoding.md R70). -/
theorem Command.w0_eq (c : Command) : c.w0 = c.rsv ++ c.op := by
  unfold Command.rsv Command.op
  apply BitVec.eq_of_getLsbD_eq
  intro i hi
  rw [BitVec.getLsbD_append, BitVec.getLsbD_extractLsb', BitVec.getLsbD_extractLsb']
  by_cases h : i < 8
  · simp [h]
  · simp [h, show i - 8 < 24 by omega, show 8 + (i - 8) = i by omega]

theorem select_op (op : Byte) (a b c : Word) : (Command.mk (op.setWidth 32) a b c).op = op := by
  unfold Command.op
  apply BitVec.eq_of_getLsbD_eq
  intro i hi
  simp [hi, show i < 32 by omega]

theorem select_rsv (op : Byte) (a b c : Word) : (Command.mk (op.setWidth 32) a b c).rsv = 0 := by
  unfold Command.rsv
  apply BitVec.eq_of_getLsbD_eq
  intro i hi
  simp

/-- A selection word `zext_32(OP)` with an assigned opcode decodes to its row of the opcode map (30_encoding.md R73). -/
theorem decode_select {op : Byte} {a b c : Word} {i : Instr} (h : decodeOp op a b c = some i) :
    decode ⟨op.setWidth 32, a, b, c⟩ = .ok i :=
  decode_eq_ok (by rw [select_op]; exact h) (select_rsv op a b c)

end Sys2Proof
end

