-- ==== Sys2Proof/Laws/State.lean ====
section
/-! SUPPORT. What each update of a state or a unit changes and leaves, one lemma per field, true by `rfl`. -/

namespace Sys2Proof.Machine

section
variable (s : State) (r : Response) (x : Input)

@[simp] theorem State.respond_cfg : (s.respond r).cfg = s.cfg := rfl
@[simp] theorem State.respond_grid : (s.respond r).grid = s.grid := rfl
@[simp] theorem State.respond_enc : (s.respond r).enc = s.enc := rfl
@[simp] theorem State.respond_dec : (s.respond r).dec = s.dec := rfl
@[simp] theorem State.respond_inputs : (s.respond r).inputs = s.inputs := rfl
@[simp] theorem State.respond_rsps : (s.respond r).rsps = s.rsps ++ [r] := rfl

@[simp] theorem State.applyReset_cfg : s.applyReset.cfg = s.cfg := rfl
@[simp] theorem State.applyReset_grid : s.applyReset.grid = .atReset := rfl
@[simp] theorem State.applyReset_enc : s.applyReset.enc = .atReset := rfl
@[simp] theorem State.applyReset_dec : s.applyReset.dec = .atReset := rfl
@[simp] theorem State.applyReset_inputs : s.applyReset.inputs = s.inputs := rfl
@[simp] theorem State.applyReset_rsps : s.applyReset.rsps = s.rsps := rfl

@[simp] theorem State.sendFirst_cfg : (s.sendFirst x).cfg = s.cfg := rfl
@[simp] theorem State.sendFirst_grid : (s.sendFirst x).grid = s.grid := rfl
@[simp] theorem State.sendFirst_enc : (s.sendFirst x).enc = s.enc := rfl
@[simp] theorem State.sendFirst_dec : (s.sendFirst x).dec = s.dec := rfl
@[simp] theorem State.sendFirst_inputs : (s.sendFirst x).inputs = x :: s.inputs := rfl
@[simp] theorem State.sendFirst_rsps : (s.sendFirst x).rsps = s.rsps := rfl
end

section
variable (p : Params)

@[simp] theorem State.resetWith_cfg : (State.resetWith p).cfg = p := rfl
@[simp] theorem State.resetWith_grid : (State.resetWith p).grid = .atReset := rfl
@[simp] theorem State.resetWith_enc : (State.resetWith p).enc = .atReset := rfl
@[simp] theorem State.resetWith_dec : (State.resetWith p).dec = .atReset := rfl
@[simp] theorem State.resetWith_inputs : (State.resetWith p).inputs = [] := rfl
@[simp] theorem State.resetWith_rsps : (State.resetWith p).rsps = [] := rfl
end

section
variable (g : Grid) (i : Nat) (v : Byte)

@[simp] theorem Grid.setCell_valid : (g.setCell i v).valid = g.valid := rfl
@[simp] theorem Grid.setCell_rows : (g.setCell i v).rows = g.rows := rfl
@[simp] theorem Grid.setCell_cols : (g.setCell i v).cols = g.cols := rfl
@[simp] theorem Grid.setCell_size : (g.setCell i v).size = g.size := rfl
@[simp] theorem Grid.fillCells_valid : (g.fillCells v).valid = g.valid := rfl
@[simp] theorem Grid.fillCells_rows : (g.fillCells v).rows = g.rows := rfl
@[simp] theorem Grid.fillCells_cols : (g.fillCells v).cols = g.cols := rfl
@[simp] theorem Grid.fillCells_size : (g.fillCells v).size = g.size := rfl
end

section
variable (d : Dict) (p : Word) (c : Byte)

@[simp] theorem Dict.insert_next : (d.insert p c).next = d.next + 1 := rfl
@[simp] theorem Dict.insert_entries : (d.insert p c).entries = Table.write d.entries d.next.toNat ⟨p, c⟩ := rfl
@[simp] theorem Dict.fresh_next : d.fresh.next = 0x100#32 := rfl
@[simp] theorem Dict.fresh_entries : d.fresh.entries = d.entries := rfl
end

section
variable (u : Encoder) (e : Status) (info : Word)

@[simp] theorem Encoder.fail_phase : (u.fail e info).phase = .faulted := rfl
@[simp] theorem Encoder.fail_wvalid : (u.fail e info).wvalid = u.wvalid := rfl
@[simp] theorem Encoder.fail_wcode : (u.fail e info).wcode = u.wcode := rfl
@[simp] theorem Encoder.fail_dict : (u.fail e info).dict = u.dict := rfl
@[simp] theorem Encoder.fail_err : (u.fail e info).err = e := rfl
@[simp] theorem Encoder.fail_errInfo : (u.fail e info).errInfo = info := rfl
@[simp] theorem Encoder.start_phase : u.start.phase = .active := rfl
@[simp] theorem Encoder.start_wvalid : u.start.wvalid = false := rfl
@[simp] theorem Encoder.start_wcode : u.start.wcode = 0x0#32 := rfl
@[simp] theorem Encoder.start_dict : u.start.dict = u.dict.fresh := rfl
@[simp] theorem Encoder.start_err : u.start.err = .ok := rfl
@[simp] theorem Encoder.start_errInfo : u.start.errInfo = 0x0#32 := rfl
end

section
variable (u : Decoder) (e : Status) (info : Word)

@[simp] theorem Decoder.fail_phase : (u.fail e info).phase = .faulted := rfl
@[simp] theorem Decoder.fail_seen : (u.fail e info).seen = u.seen := rfl
@[simp] theorem Decoder.fail_wcode : (u.fail e info).wcode = u.wcode := rfl
@[simp] theorem Decoder.fail_dict : (u.fail e info).dict = u.dict := rfl
@[simp] theorem Decoder.fail_err : (u.fail e info).err = e := rfl
@[simp] theorem Decoder.fail_errInfo : (u.fail e info).errInfo = info := rfl
@[simp] theorem Decoder.start_phase : u.start.phase = .active := rfl
@[simp] theorem Decoder.start_seen : u.start.seen = false := rfl
@[simp] theorem Decoder.start_wcode : u.start.wcode = 0x0#32 := rfl
@[simp] theorem Decoder.start_dict : u.start.dict = u.dict.fresh := rfl
@[simp] theorem Decoder.start_err : u.start.err = .ok := rfl
@[simp] theorem Decoder.start_errInfo : u.start.errInfo = 0x0#32 := rfl
end

end Sys2Proof.Machine
end

