-- ==== Sys2Proof/Laws/Table.lean ====
section
/-! SUPPORT. Tables: reading after writing and after filling, and that both keep the canonical form and the bounds of
the indices. -/

namespace Sys2Proof.Machine

variable {α : Type}

@[simp] theorem Table.read_nil (i : Nat) : Table.read ([] : Table α) i = none := rfl

theorem Table.read_cons (j : Nat) (v : α) (t : Table α) (i : Nat) :
    Table.read ((j, v) :: t) i = if i = j then some v else Table.read t i := rfl

/-- A write changes the value at its index and at no other. -/
theorem Table.read_write (t : Table α) (i : Nat) (v : α) (k : Nat) :
    Table.read (Table.write t i v) k = if k = i then some v else Table.read t k := by
  induction t with
  | nil => rfl
  | cons q rest ih =>
    obtain ⟨j, u⟩ := q
    by_cases h1 : i < j
    · simp only [Table.write, h1, if_true, Table.read_cons]
    · by_cases h2 : i = j
      · subst h2
        simp only [Table.write, h1, if_false, if_true, Table.read_cons]
        split <;> rfl
      · simp only [Table.write, h1, h2, if_false, Table.read_cons, ih]
        by_cases h3 : k = j
        · have : k ≠ i := by omega
          simp only [h3, if_true]
          rw [if_neg (by omega)]
        · simp only [h3, if_false]

theorem Table.read_append (t u : Table α) (i : Nat) :
    Table.read (t ++ u) i = (Table.read t i).or (Table.read u i) := by
  induction t with
  | nil => rfl
  | cons q rest ih =>
    obtain ⟨j, v⟩ := q
    simp only [List.cons_append, Table.read_cons, ih]
    split <;> rfl

theorem Table.read_map_const (l : List Nat) (v : α) (i : Nat) :
    Table.read (l.map fun j => (j, v)) i = if i ∈ l then some v else none := by
  induction l with
  | nil => rfl
  | cons j rest ih =>
    simp only [List.map_cons, Table.read_cons, ih, List.mem_cons]
    by_cases h : i = j <;> simp [h]

theorem Table.read_filter (t : Table α) (p : Nat → Bool) (i : Nat) :
    Table.read (t.filter fun q => p q.1) i = if p i then Table.read t i else none := by
  induction t with
  | nil => simp
  | cons q rest ih =>
    obtain ⟨j, v⟩ := q
    by_cases hj : p j
    · simp only [List.filter_cons, hj, if_true, Table.read_cons, ih]
      by_cases h : i = j
      · subst h
        simp [hj]
      · simp [h]
    · have hf : ((j, v) :: rest).filter (fun q => p q.1) = rest.filter fun q => p q.1 := by
        simp [hj]
      rw [hf, ih, Table.read_cons]
      by_cases h : i = j
      · subst h
        simp [hj]
      · simp [h]

/-- A fill changes the indices below its bound and no other. -/
theorem Table.read_fill (t : Table α) (n : Nat) (v : α) (k : Nat) :
    Table.read (Table.fill t n v) k = if k < n then some v else Table.read t k := by
  have h := Table.read_filter t (fun j => decide (n ≤ j)) k
  simp only [Table.fill, Table.read_append, Table.read_map_const, List.mem_range, h]
  by_cases hk : k < n
  · simp [hk]
  · simp [hk, Nat.not_lt.mp hk]

theorem Table.mem_write {t : Table α} {i : Nat} {v : α} {q : Nat × α} (h : q ∈ Table.write t i v) :
    q = (i, v) ∨ q ∈ t := by
  induction t with
  | nil => simpa [Table.write] using h
  | cons p rest ih =>
    obtain ⟨j, u⟩ := p
    simp only [Table.write] at h
    split at h
    · simpa using h
    · split at h
      · rcases List.mem_cons.mp h with h | h
        · exact .inl h
        · exact .inr (List.mem_cons_of_mem _ h)
      · rcases List.mem_cons.mp h with h | h
        · exact .inr (h ▸ List.mem_cons_self)
        · rcases ih h with h | h
          · exact .inl h
          · exact .inr (List.mem_cons_of_mem _ h)

theorem Table.mem_fill {t : Table α} {n : Nat} {v : α} {q : Nat × α} (h : q ∈ Table.fill t n v) :
    (q.1 < n ∧ q.2 = v) ∨ q ∈ t := by
  rcases List.mem_append.mp h with h | h
  · obtain ⟨j, hj, rfl⟩ := List.mem_map.mp h
    exact .inl ⟨List.mem_range.mp hj, rfl⟩
  · exact .inr (List.mem_of_mem_filter h)

/-- A write keeps the canonical form. -/
theorem Table.wf_write {t : Table α} (h : Table.wf t) (i : Nat) (v : α) : Table.wf (Table.write t i v) := by
  induction t with
  | nil => exact List.pairwise_singleton _ _
  | cons p rest ih =>
    obtain ⟨j, u⟩ := p
    obtain ⟨hj, hr⟩ := List.pairwise_cons.mp h
    simp only [Table.write]
    split
    · rename_i hij
      refine List.pairwise_cons.mpr ⟨fun q hq => ?_, h⟩
      rcases List.mem_cons.mp hq with rfl | hq
      · exact hij
      · exact Nat.lt_trans hij (hj q hq)
    · split
      · rename_i hij
        subst hij
        exact List.pairwise_cons.mpr ⟨hj, hr⟩
      · refine List.pairwise_cons.mpr ⟨fun q hq => ?_, ih hr⟩
        rcases Table.mem_write hq with rfl | hq
        · show j < i
          omega
        · exact hj q hq

/-- A fill keeps the canonical form. -/
theorem Table.wf_fill {t : Table α} (h : Table.wf t) (n : Nat) (v : α) : Table.wf (Table.fill t n v) := by
  refine List.pairwise_append.mpr ⟨?_, List.Pairwise.filter _ h, fun p hp q hq => ?_⟩
  · exact List.pairwise_map.mpr List.pairwise_lt_range
  · obtain ⟨j, hj, rfl⟩ := List.mem_map.mp hp
    have h1 := List.mem_range.mp hj
    have h2 := of_decide_eq_true (List.mem_filter.mp hq).2
    exact Nat.lt_of_lt_of_le h1 h2

/-- In a canonical table, what is listed is what is read. -/
theorem Table.read_eq_some_iff {t : Table α} (h : Table.wf t) (i : Nat) (v : α) :
    Table.read t i = some v ↔ (i, v) ∈ t := by
  induction t with
  | nil => simp
  | cons p rest ih =>
    obtain ⟨j, u⟩ := p
    obtain ⟨hj, hr⟩ := List.pairwise_cons.mp h
    rw [Table.read_cons]
    by_cases hij : i = j
    · subst hij
      simp only [if_true, Option.some.injEq, List.mem_cons, Prod.mk.injEq, true_and]
      constructor
      · intro e
        exact .inl e.symm
      · rintro (e | e)
        · exact e.symm
        · exact absurd (hj _ e) (Nat.lt_irrefl _)
    · simp only [hij, if_false, List.mem_cons, Prod.mk.injEq, false_and, false_or]
      exact ih hr

theorem Table.mem_of_read {t : Table α} {i : Nat} {v : α} (h : Table.read t i = some v) : (i, v) ∈ t := by
  induction t with
  | nil => simp at h
  | cons p rest ih =>
    obtain ⟨j, u⟩ := p
    rw [Table.read_cons] at h
    split at h
    · rename_i hij
      simp only [Option.some.injEq] at h
      subst hij h
      exact List.mem_cons_self
    · exact List.mem_cons_of_mem _ (ih h)

/-- Two canonical tables that read the same everywhere are equal data. -/
theorem Table.ext_of_read {t u : Table α} (ht : Table.wf t) (hu : Table.wf u)
    (h : ∀ i, Table.read t i = Table.read u i) : t = u := by
  have hlt : ∀ {a b : Table α}, Table.wf a → Table.wf b → (∀ i, Table.read a i = Table.read b i) → a ⊆ b := by
    intro a b ha hb hab q hq
    exact (Table.read_eq_some_iff hb q.1 q.2).mp (hab q.1 ▸ (Table.read_eq_some_iff ha q.1 q.2).mpr hq)
  have hnd : ∀ {a : Table α}, Table.wf a → a.Nodup := fun ha =>
    ha.imp (fun {a b} hab e => absurd hab (by rw [e]; exact Nat.lt_irrefl _))
  have hp : t.Perm u := (List.perm_ext_iff_of_nodup (hnd ht) (hnd hu)).mpr
    fun q => ⟨fun hq => hlt ht hu h hq, fun hq => hlt hu ht (fun i => (h i).symm) hq⟩
  refine List.Perm.eq_of_pairwise (le := fun p q => p.1 < q.1) (fun a b _ _ h1 h2 => ?_) ht hu hp
  exact absurd (Nat.lt_trans h1 h2) (Nat.lt_irrefl _)

/-- `readAll` gives the values in order exactly when every index has been written. -/
theorem Table.readAll_eq_some_iff (t : Table α) (is : List Nat) (vs : List α) :
    Table.readAll t is = some vs ↔ is.map (Table.read t) = vs.map some := by
  induction is generalizing vs with
  | nil => cases vs <;> simp [Table.readAll]
  | cons i is ih =>
    simp only [Table.readAll, List.map_cons]
    cases hi : Table.read t i with
    | none => cases vs <;> simp
    | some v =>
      cases hr : Table.readAll t is with
      | none =>
        simp only [false_iff, reduceCtorEq]
        intro e
        cases vs with
        | nil => simp at e
        | cons w ws =>
          simp only [List.map_cons, List.cons.injEq] at e
          have := (ih ws).mpr e.2
          rw [hr] at this
          cases this
      | some us =>
        have := (ih us).mp hr
        simp only [Option.some.injEq, this]
        constructor
        · rintro rfl
          rfl
        · intro e
          cases vs with
          | nil => simp at e
          | cons w ws =>
            simp only [List.map_cons, List.cons.injEq, Option.some.injEq] at e
            have h2 := List.map_injective_iff.mpr (Option.some_injective α) e.2
            rw [e.1, h2]

/-- `readAll` gives nothing exactly when some index has not been written. -/
theorem Table.readAll_eq_none_iff (t : Table α) (is : List Nat) :
    Table.readAll t is = none ↔ ∃ i ∈ is, Table.read t i = none := by
  induction is with
  | nil => simp [Table.readAll]
  | cons i is ih =>
    simp only [Table.readAll, List.mem_cons]
    cases hi : Table.read t i with
    | none => simp [hi]
    | some v =>
      cases hr : Table.readAll t is with
      | none =>
        obtain ⟨j, hj, hn⟩ := ih.mp hr
        simp only [true_iff]
        exact ⟨j, .inr hj, hn⟩
      | some us =>
        simp only [false_iff, reduceCtorEq]
        rintro ⟨j, rfl | hj, hn⟩
        · rw [hi] at hn
          cases hn
        · have := ih.mpr ⟨j, hj, hn⟩
          rw [hr] at this
          cases this

theorem Memory.wf_write {m : Memory} (h : Memory.wf m) (i : Nat) (v : Byte) : Memory.wf (Table.write m i v) :=
  Table.wf_write h i v

theorem Memory.wf_fill {m : Memory} (h : Memory.wf m) (n : Nat) (v : Byte) : Memory.wf (Table.fill m n v) :=
  Table.wf_fill h n v

theorem Memory.wf_reset : Memory.wf State.reset.grid.cells := List.Pairwise.nil

end Sys2Proof.Machine
end

