-- ==== Sys2Proof/Laws/Dict.lean ====
section
/-! SUPPORT. Dictionaries: entries after an insertion, the equations of `str_U` and `first_U` without their fuel, what a
match is, and that insertion and START keep the invariant. -/

namespace Sys2Proof.Machine

/-- An entry is a stored pair at a code that is no seed and is below `U.NEXT`. -/
theorem Dict.entry_eq_some_iff (d : Dict) (n : Nat) (e : Entry) :
    d.entry n = some e ↔ 256 ≤ n ∧ n < d.next.toNat ∧ Table.read d.entries n = some e := by
  unfold Dict.entry Config.seed
  split
  · rename_i h
    exact ⟨fun h2 => ⟨h.1, h.2, h2⟩, fun h2 => h2.2.2⟩
  · rename_i h
    constructor
    · intro h2
      cases h2
    · intro h2
      exact absurd ⟨h2.1, h2.2.1⟩ h

theorem Dict.entry_eq_read {d : Dict} {n : Nat} (h1 : 256 ≤ n) (h2 : n < d.next.toNat) :
    d.entry n = Table.read d.entries n := by
  unfold Dict.entry
  exact if_pos ⟨h1, h2⟩

theorem Dict.entry_of_lt {d : Dict} {n : Nat} (h : n < 256) : d.entry n = none := by
  unfold Dict.entry Config.seed
  exact if_neg (by omega)

theorem Dict.entry_of_le {d : Dict} {n : Nat} (h : d.next.toNat ≤ n) : d.entry n = none := by
  unfold Dict.entry
  exact if_neg (by omega)

/-- An insertion does not wrap `U.NEXT` while it is below `DICT_CAP`. -/
theorem Dict.insert_next_toNat {d : Dict} {cap : Word} (h : d.next.toNat < cap.toNat) (p : Word) (c : Byte) :
    (d.insert p c).next.toNat = d.next.toNat + 1 := by
  have := cap.isLt
  rw [Dict.insert_next, BitVec.toNat_add]
  exact Nat.mod_eq_of_lt (by show d.next.toNat + 1 < 2 ^ 32; omega)

/-- An insertion adds the pair at the old `U.NEXT` and changes no other entry. -/
theorem Dict.entry_insert {d : Dict} {cap : Word} (h0 : 256 ≤ d.next.toNat) (h : d.next.toNat < cap.toNat)
    (p : Word) (c : Byte) (n : Nat) :
    (d.insert p c).entry n = if n = d.next.toNat then some ⟨p, c⟩ else d.entry n := by
  unfold Dict.entry Config.seed
  rw [Dict.insert_next_toNat h, Dict.insert_entries, Table.read_write]
  by_cases hn : n = d.next.toNat
  · rw [if_pos hn, if_pos hn, if_pos (by omega)]
  · rw [if_neg hn, if_neg hn]
    by_cases h3 : 256 ≤ n ∧ n < d.next.toNat
    · rw [if_pos h3, if_pos (by omega)]
    · rw [if_neg h3, if_neg (by omega)]

/-- `U.PREFIX[n]` < `n` for every entry (10_state.md R33): the prefix chain goes down. -/
def Dict.Descends (d : Dict) : Prop := ∀ n e, d.entry n = some e → e.pre.toNat < n

theorem Dict.Inv.descends {p : Params} {d : Dict} (h : Dict.Inv p d) : d.Descends := by
  intro n e he
  obtain ⟨h1, h2, -⟩ := (Dict.entry_eq_some_iff d n e).mp he
  obtain ⟨e', he', hp⟩ := h.stored n h1 h2
  rw [he] at he'
  cases he'
  exact hp

/-- The walk does not depend on its fuel once there is enough, and only on the entries up to its start. -/
theorem Dict.strUpTo_congr {d d' : Dict} (hd : d.Descends) (n : Nat)
    (hag : ∀ m ≤ n, d'.entry m = d.entry m) :
    ∀ f f', n < f → n < f' → d'.strUpTo f' n = d.strUpTo f n := by
  induction n using Nat.strong_induction_on with
  | _ n ih =>
    intro f f' hf hf'
    obtain ⟨f, rfl⟩ : ∃ k, f = k + 1 := ⟨f - 1, by omega⟩
    obtain ⟨f', rfl⟩ : ∃ k, f' = k + 1 := ⟨f' - 1, by omega⟩
    simp only [Dict.strUpTo, hag n (Nat.le_refl n)]
    split
    · rfl
    · cases he : d.entry n with
      | none => rfl
      | some e =>
        have hlt := hd n e he
        simp only [ih e.pre.toNat hlt (fun m hm => hag m (by omega)) f f' (by omega) (by omega)]

theorem Dict.firstUpTo_congr {d d' : Dict} (hd : d.Descends) (n : Nat)
    (hag : ∀ m ≤ n, d'.entry m = d.entry m) :
    ∀ f f', n < f → n < f' → d'.firstUpTo f' n = d.firstUpTo f n := by
  induction n using Nat.strong_induction_on with
  | _ n ih =>
    intro f f' hf hf'
    obtain ⟨f, rfl⟩ : ∃ k, f = k + 1 := ⟨f - 1, by omega⟩
    obtain ⟨f', rfl⟩ : ∃ k, f' = k + 1 := ⟨f' - 1, by omega⟩
    simp only [Dict.firstUpTo, hag n (Nat.le_refl n)]
    split
    · rfl
    · cases he : d.entry n with
      | none => rfl
      | some e =>
        have hlt := hd n e he
        exact ih e.pre.toNat hlt (fun m hm => hag m (by omega)) f f' (by omega) (by omega)

theorem Dict.str_seed (d : Dict) {n : Nat} (h : n < 256) : d.str n = some [BitVec.ofNat 8 n] := by
  unfold Dict.str Dict.strUpTo Config.seed
  exact if_pos h

theorem Dict.first_seed (d : Dict) {n : Nat} (h : n < 256) : d.first n = some (BitVec.ofNat 8 n) := by
  unfold Dict.first Dict.firstUpTo Config.seed
  exact if_pos h

/-- The second equation of 10_state.md R28. -/
theorem Dict.str_entry {d : Dict} (hd : d.Descends) {n : Nat} {e : Entry} (he : d.entry n = some e) :
    d.str n = (d.str e.pre.toNat).map (· ++ [e.sym]) := by
  have hn : ¬ n < 256 := by
    have := (Dict.entry_eq_some_iff d n e).mp he
    omega
  have hf := Dict.strUpTo_congr hd e.pre.toNat (fun _ _ => rfl) (e.pre.toNat + 1) n (by omega) (hd n e he)
  rw [Dict.str, Dict.strUpTo, if_neg (by simpa [Config.seed] using hn), he]
  simp only [Dict.str, hf]
  cases d.strUpTo (e.pre.toNat + 1) e.pre.toNat <;> rfl

/-- The second equation of 10_state.md R35. -/
theorem Dict.first_entry {d : Dict} (hd : d.Descends) {n : Nat} {e : Entry} (he : d.entry n = some e) :
    d.first n = d.first e.pre.toNat := by
  have hn : ¬ n < 256 := by
    have := (Dict.entry_eq_some_iff d n e).mp he
    omega
  have hf := Dict.firstUpTo_congr hd e.pre.toNat (fun _ _ => rfl) (e.pre.toNat + 1) n (by omega) (hd n e he)
  rw [Dict.first, Dict.firstUpTo, if_neg (by simpa [Config.seed] using hn), he]
  exact hf

theorem Dict.str_none (d : Dict) {n : Nat} (h : ¬ n < 256) (he : d.entry n = none) : d.str n = none := by
  rw [Dict.str, Dict.strUpTo, if_neg (by simpa [Config.seed] using h), he]

/-- Dictionaries that agree up to `n` give `n` the same string. -/
theorem Dict.str_congr {d d' : Dict} (hd : d.Descends) {n : Nat} (h : ∀ m ≤ n, d'.entry m = d.entry m) :
    d'.str n = d.str n :=
  Dict.strUpTo_congr hd n h (n + 1) (n + 1) (by omega) (by omega)

/-- An insertion changes the string of no code below the old `U.NEXT`. -/
theorem Dict.str_insert_of_lt {d : Dict} {cap : Word} (hd : d.Descends) (h0 : 256 ≤ d.next.toNat)
    (h : d.next.toNat < cap.toNat) (p : Word) (c : Byte) {n : Nat} (hn : n < d.next.toNat) :
    (d.insert p c).str n = d.str n :=
  Dict.str_congr hd fun m hm => by rw [Dict.entry_insert h0 h, if_neg (by omega)]

/-- Under the invariant every code below `U.NEXT` has a string, and it is not empty. -/
theorem Dict.Inv.str_defined {p : Params} {d : Dict} (h : Dict.Inv p d) {n : Nat} (hn : n < d.next.toNat) :
    ∃ v w, d.str n = some (v :: w) ∧ d.first n = some v := by
  induction n using Nat.strong_induction_on with
  | _ n ih =>
    by_cases h0 : n < 256
    · exact ⟨_, [], Dict.str_seed d h0, Dict.first_seed d h0⟩
    · obtain ⟨e, he, hp⟩ := h.stored n (by simpa [Config.seed] using h0) hn
      obtain ⟨v, w, hs, hf⟩ := ih e.pre.toNat hp (by omega)
      refine ⟨v, w ++ [e.sym], ?_, ?_⟩
      · rw [Dict.str_entry h.descends he, hs]
        rfl
      · rw [Dict.first_entry h.descends he, hf]

/-- A match is an entry with that pair (41_encoder.md R121). -/
theorem Dict.find_some {d : Dict} (hwf : Table.wf d.entries) {p : Word} {c : Byte} {n : Nat}
    (h : d.find p c = some n) : d.entry n = some ⟨p, c⟩ := by
  unfold Dict.find at h
  split at h
  · cases h
  · rename_i q hq
    cases h
    have h1 := List.find?_some hq
    simp only [decide_eq_true_eq] at h1
    have h2 := List.mem_of_find?_eq_some hq
    refine (Dict.entry_eq_some_iff d q.1 _).mpr ⟨h1.1, h1.2.1, ?_⟩
    rw [Table.read_eq_some_iff hwf, ← h1.2.2]
    exact h2

/-- No match is no entry with that pair (41_encoder.md R121). -/
theorem Dict.find_none {d : Dict} {p : Word} {c : Byte} (h : d.find p c = none) (n : Nat) :
    d.entry n ≠ some ⟨p, c⟩ := by
  intro he
  obtain ⟨h1, h2, h3⟩ := (Dict.entry_eq_some_iff d n _).mp he
  unfold Dict.find at h
  split at h
  · rename_i hq
    have := List.find?_eq_none.mp hq (n, ⟨p, c⟩) (Table.mem_of_read h3)
    exact this (decide_eq_true ⟨h1, h2, rfl⟩)
  · cases h

/-- Where pairs are distinct, the match is the entry's code (10_state.md R34). -/
theorem Dict.find_of_entry {d : Dict} (hwf : Table.wf d.entries) (hd : d.PairsDistinct) {p : Word} {c : Byte}
    {n : Nat} (he : d.entry n = some ⟨p, c⟩) : d.find p c = some n := by
  cases hf : d.find p c with
  | none => exact absurd he (Dict.find_none hf n)
  | some m => rw [hd m n _ (Dict.find_some hwf hf) he]

theorem Dict.Inv.atReset {p : Params} (hp : p.legal) : Dict.Inv p .atReset where
  low := by decide
  high := by
    have h := hp.1
    show 256 ≤ p.dictCap.toNat
    omega
  canonical := List.Pairwise.nil
  bounded := by
    intro q hq
    cases hq
  stored := by
    intro n h1 h2
    exact absurd h2 (by simpa [Dict.atReset, Config.seed] using h1)

/-- START keeps the dictionary's invariant. -/
theorem Dict.Inv.fresh {p : Params} {d : Dict} (hp : p.legal) (h : Dict.Inv p d) : Dict.Inv p d.fresh where
  low := by
    rw [Dict.fresh_next]
    decide
  high := by
    have h := hp.1
    show 256 ≤ p.dictCap.toNat
    omega
  canonical := h.canonical
  bounded := h.bounded
  stored := by
    intro n h1 h2
    exact absurd h2 (by simpa [Dict.fresh, Config.seed] using h1)

theorem Dict.PairsDistinct.fresh (d : Dict) : d.fresh.PairsDistinct := by
  intro m n e hm
  obtain ⟨h1, h2, -⟩ := (Dict.entry_eq_some_iff _ m e).mp hm
  rw [Dict.fresh_next] at h2
  exact absurd h2 (by simpa using h1)

/-- An insertion whose prefix is in the dictionary keeps the dictionary's invariant. -/
theorem Dict.Inv.insert {p : Params} {d : Dict} (h : Dict.Inv p d) (hroom : d.next ≠ p.dictCap) {w : Word}
    (hw : w.toNat < d.next.toNat) (c : Byte) : Dict.Inv p (d.insert w c) := by
  have hlt : d.next.toNat < p.dictCap.toNat :=
    Nat.lt_of_le_of_ne h.high fun e => hroom (BitVec.eq_of_toNat_eq e)
  have hlow : 256 ≤ d.next.toNat := h.low
  have hnext := Dict.insert_next_toNat hlt w c
  exact
    { low := by
        rw [hnext]
        exact Nat.le_succ_of_le h.low
      high := by
        rw [hnext]
        exact hlt
      canonical := Table.wf_write h.canonical _ _
      bounded := by
        intro q hq
        rcases Table.mem_write hq with rfl | hq
        · exact ⟨h.low, hlt⟩
        · exact h.bounded q hq
      stored := by
        intro n h1 h2
        rw [hnext] at h2
        rw [Dict.entry_insert hlow hlt]
        by_cases hn : n = d.next.toNat
        · exact ⟨_, if_pos hn, hn ▸ hw⟩
        · rw [if_neg hn]
          exact h.stored n h1 (by omega) }

/-- An insertion of a pair that no entry has keeps pairs distinct. -/
theorem Dict.PairsDistinct.insert {d : Dict} {cap : Word} (h : d.PairsDistinct) (h0 : 256 ≤ d.next.toNat)
    (hlt : d.next.toNat < cap.toNat) {w : Word} {c : Byte} (hf : d.find w c = none) :
    (d.insert w c).PairsDistinct := by
  intro m n e hm hn
  rw [Dict.entry_insert h0 hlt] at hm hn
  have hno := Dict.find_none hf
  split at hm <;> split at hn
  · omega
  · cases hm
    exact absurd hn (hno n)
  · cases hn
    exact absurd hm (hno m)
  · exact h m n e hm hn

end Sys2Proof.Machine
end

