-- ==== Sys2Proof/Laws/Encoder.lean ====
section
/-! SUPPORT. The encoder: what one push can do, what a run of pushes leaves, and that both keep the invariant. -/

namespace Sys2Proof.Machine

/-- Everything a push that completes can do (41_encoder.md R125): take the first symbol, extend the prefix by a match,
or emit its code and insert an entry. -/
theorem Encoder.push_cases {cap : Word} {u u' : Encoder} {c : Byte} {out : List Word}
    (h : u.push cap c = some (u', out)) :
    (u.wvalid = false ∧ u' = { u with wvalid := true, wcode := zext32 c.toNat } ∧ out = []) ∨
    (∃ n, u.wvalid = true ∧ u.dict.find u.wcode c = some n ∧ u' = { u with wcode := zext32 n } ∧ out = []) ∨
    (u.wvalid = true ∧ u.dict.find u.wcode c = none ∧ u.dict.next ≠ cap ∧
      u' = { u with dict := u.dict.insert u.wcode c, wcode := zext32 c.toNat } ∧ out = [u.wcode]) := by
  unfold Encoder.push at h
  split at h
  · rename_i hv
    cases h
    exact .inl ⟨hv, rfl, rfl⟩
  · rename_i hv
    have hv' : u.wvalid = true := by simpa using hv
    split at h
    · rename_i n hn
      cases h
      exact .inr (.inl ⟨n, hv', hn, rfl, rfl⟩)
    · rename_i hn
      split at h
      · cases h
      · rename_i hc
        cases h
        exact .inr (.inr ⟨hv', hn, hc, rfl, rfl⟩)

/-- When a push does not complete (41_encoder.md R125): "an insertion is needed" and the dictionary is full. -/
theorem Encoder.push_eq_none_iff (cap : Word) (u : Encoder) (c : Byte) :
    u.push cap c = none ↔ u.wvalid = true ∧ u.dict.find u.wcode c = none ∧ u.dict.next = cap := by
  unfold Encoder.push
  split
  · rename_i hv
    simp [hv]
  · rename_i hv
    have hv' : u.wvalid = true := by simpa using hv
    split
    · rename_i n hn
      simp [hn]
    · rename_i hn
      split
      · rename_i hc
        simp [hv', hn, hc]
      · rename_i hc
        simp [hc]

/-- A push leaves PHASE, ERR and ERRINFO. -/
theorem Encoder.push_frame {cap : Word} {u u' : Encoder} {c : Byte} {out : List Word}
    (h : u.push cap c = some (u', out)) :
    u'.phase = u.phase ∧ u'.err = u.err ∧ u'.errInfo = u.errInfo ∧ u'.wvalid = true := by
  rcases Encoder.push_cases h with ⟨-, rfl, -⟩ | ⟨n, hv, -, rfl, -⟩ | ⟨hv, -, -, rfl, -⟩
  · exact ⟨rfl, rfl, rfl, rfl⟩
  · exact ⟨rfl, rfl, rfl, hv⟩
  · exact ⟨rfl, rfl, rfl, hv⟩

theorem zext32_toNat {n : Nat} (h : n < 2 ^ 32) : (zext32 n).toNat = n := by
  unfold zext32
  rw [BitVec.toNat_ofNat]
  exact Nat.mod_eq_of_lt h

/-- A push keeps the encoder's invariant, and what it emits is a code below the `E.NEXT` it found. -/
theorem Encoder.Inv.push {p : Params} {u u' : Encoder} {c : Byte} {out : List Word} (h : Encoder.Inv p u)
    (hp : u.push p.dictCap c = some (u', out)) :
    Encoder.Inv p u' ∧ (∀ w ∈ out, w.toNat < u.dict.next.toNat) ∧
      u'.dict.next.toNat = u.dict.next.toNat + out.length := by
  have hlow : 256 ≤ u.dict.next.toNat := h.dict.low
  have hnext := u.dict.next.isLt
  have hc : (zext32 c.toNat).toNat < 256 := by
    rw [zext32_toNat (by have := c.isLt; omega)]
    exact c.isLt
  rcases Encoder.push_cases hp with ⟨-, rfl, rfl⟩ | ⟨n, hv, hf, rfl, rfl⟩ | ⟨hv, hf, hroom, rfl, rfl⟩
  · refine ⟨⟨h.dict, h.distinct, ?_, h.error⟩, by simp, rfl⟩
    show if true = true then _ else _
    rw [if_pos rfl]
    exact Nat.lt_of_lt_of_le hc hlow
  · obtain ⟨h1, h2, -⟩ := (Dict.entry_eq_some_iff _ _ _).mp (Dict.find_some h.dict.canonical hf)
    refine ⟨⟨h.dict, h.distinct, ?_, h.error⟩, by simp, rfl⟩
    show if u.wvalid = true then _ else _
    rw [if_pos hv, zext32_toNat (by omega)]
    exact h2
  · have hw : u.wcode.toNat < u.dict.next.toNat := by
      have := h.code
      rwa [if_pos hv] at this
    have hlt : u.dict.next.toNat < p.dictCap.toNat :=
      Nat.lt_of_le_of_ne h.dict.high fun e => hroom (BitVec.eq_of_toNat_eq e)
    have hn := Dict.insert_next_toNat hlt u.wcode c
    refine ⟨⟨h.dict.insert hroom hw c, h.distinct.insert hlow hlt hf, ?_, h.error⟩, ?_, ?_⟩
    · show if u.wvalid = true then _ else _
      rw [if_pos hv]
      show (zext32 c.toNat).toNat < (u.dict.insert u.wcode c).next.toNat
      omega
    · intro w hw'
      rw [List.mem_singleton] at hw'
      exact hw' ▸ hw
    · exact hn

theorem Encoder.Inv.atReset {p : Params} (hp : p.legal) : Encoder.Inv p .atReset where
  dict := Dict.Inv.atReset hp
  distinct := by
    intro m n e hm
    have := (Dict.entry_eq_some_iff _ m e).mp hm
    exact absurd this.2.2 (by simp [Encoder.atReset, Dict.atReset])
  code := rfl
  error := ⟨rfl, rfl⟩

theorem Encoder.Inv.start {p : Params} {u : Encoder} (hp : p.legal) (h : Encoder.Inv p u) :
    Encoder.Inv p u.start where
  dict := h.dict.fresh hp
  distinct := Dict.PairsDistinct.fresh _
  code := rfl
  error := ⟨rfl, rfl⟩

theorem Encoder.Inv.fail {p : Params} {u : Encoder} (h : Encoder.Inv p u) {e : Status} {info : Word}
    (he : e = .outOfRange ∨ (e = .capacityExceeded ∧ info = 1)) : Encoder.Inv p (u.fail e info) where
  dict := h.dict
  distinct := h.distinct
  code := h.code
  error := he

theorem Encoder.Inv.finish {p : Params} {u : Encoder} (h : Encoder.Inv p u) (ha : u.phase = .active) :
    Encoder.Inv p u.finish where
  dict := h.dict
  distinct := h.distinct
  code := rfl
  error := by
    have := h.error
    rwa [if_neg (by rw [ha]; decide)] at this

@[simp] theorem Encoder.pushAll_nil (cap : Word) (u : Encoder) : u.pushAll cap [] = ⟨u, [], true⟩ := rfl

theorem Encoder.pushAll_cons_none {cap : Word} {u : Encoder} {c : Byte} (cs : List Byte)
    (h : u.push cap c = none) : u.pushAll cap (c :: cs) = ⟨u.fail .capacityExceeded 0x1#32, [], false⟩ := by
  rw [Encoder.pushAll, h]

theorem Encoder.pushAll_cons_some {cap : Word} {u u' : Encoder} {c : Byte} {out : List Word} (cs : List Byte)
    (h : u.push cap c = some (u', out)) :
    u.pushAll cap (c :: cs) =
      ⟨(u'.pushAll cap cs).enc, out ++ (u'.pushAll cap cs).out, (u'.pushAll cap cs).complete⟩ := by
  rw [Encoder.pushAll, h]

/-- Everything a run of pushes leaves, from a unit that meets the invariant. -/
theorem Encoder.Inv.pushAll {p : Params} {u : Encoder} (h : Encoder.Inv p u) (cs : List Byte) :
    Encoder.Inv p (u.pushAll p.dictCap cs).enc ∧
      (u.pushAll p.dictCap cs).enc.dict.next.toNat =
        u.dict.next.toNat + (u.pushAll p.dictCap cs).out.length ∧
      (u.pushAll p.dictCap cs).out.length ≤ cs.length := by
  induction cs generalizing u with
  | nil => exact ⟨h, rfl, Nat.le_refl 0⟩
  | cons c cs ih =>
    cases hp : u.push p.dictCap c with
    | none =>
      rw [Encoder.pushAll_cons_none cs hp]
      exact ⟨h.fail (.inr ⟨rfl, rfl⟩), rfl, Nat.zero_le _⟩
    | some r =>
      obtain ⟨u', out⟩ := r
      rw [Encoder.pushAll_cons_some cs hp]
      obtain ⟨h1, -, h2⟩ := h.push hp
      obtain ⟨h3, h4, h5⟩ := ih h1
      have hl : out.length ≤ 1 := by
        rcases Encoder.push_cases hp with ⟨-, -, rfl⟩ | ⟨n, -, -, -, rfl⟩ | ⟨-, -, -, -, rfl⟩ <;> simp
      refine ⟨h3, ?_, ?_⟩
      · rw [h4, h2, List.length_append]
        omega
      · simp only [List.length_append, List.length_cons]
        omega

/-- A run of pushes that completes leaves PHASE, ERR and ERRINFO; one that does not leaves the unit FAULTED with
`CapacityExceeded` 1 (41_encoder.md R127). -/
theorem Encoder.pushAll_ends (cap : Word) (u : Encoder) (cs : List Byte) :
    ((u.pushAll cap cs).complete = true ∧ (u.pushAll cap cs).enc.phase = u.phase ∧
      (u.pushAll cap cs).enc.err = u.err ∧ (u.pushAll cap cs).enc.errInfo = u.errInfo) ∨
    ((u.pushAll cap cs).complete = false ∧ (u.pushAll cap cs).enc.phase = .faulted ∧
      (u.pushAll cap cs).enc.err = .capacityExceeded ∧ (u.pushAll cap cs).enc.errInfo = 0x1#32) := by
  induction cs generalizing u with
  | nil => exact .inl ⟨rfl, rfl, rfl, rfl⟩
  | cons c cs ih =>
    cases hp : u.push cap c with
    | none =>
      rw [Encoder.pushAll_cons_none cs hp]
      exact .inr ⟨rfl, rfl, rfl, rfl⟩
    | some r =>
      obtain ⟨u', out⟩ := r
      rw [Encoder.pushAll_cons_some cs hp]
      obtain ⟨f1, f2, f3, -⟩ := Encoder.push_frame hp
      rcases ih u' with ⟨h1, h2, h3, h4⟩ | h
      · exact .inl ⟨h1, h2.trans f1, h3.trans f2, h4.trans f3⟩
      · exact .inr h

end Sys2Proof.Machine
end

