-- ==== Sys2Proof/Laws/Decoder.lean ====
section
/-! SUPPORT. The decoder: the kinds of a code, the entry of a code, and that each update keeps the invariant. -/

namespace Sys2Proof.Machine

theorem classify_known {next : Word} {k : Nat} (h : k < next.toNat) : classify next k = .known := if_pos h

theorem classify_sentinel {next : Word} {k : Nat} (h : k = next.toNat) : classify next k = .sentinel := by
  unfold classify
  rw [if_neg (by omega), if_pos h]

theorem classify_malformed {next : Word} {k : Nat} (h : next.toNat < k) : classify next k = .malformed := by
  unfold classify
  rw [if_neg (by omega), if_neg (by omega)]

theorem classify_eq_malformed_iff (next : Word) (k : Nat) : classify next k = .malformed ↔ next.toNat < k := by
  unfold classify
  split
  · simp
    omega
  · split
    · simp
      omega
    · simp
      omega

/-- Under the invariant a code that is not malformed has an entry, and it is not empty (42_decoder.md R145). -/
theorem Decoder.Inv.entryOf_defined {p : Params} {u : Decoder} (h : Decoder.Inv p u) (hs : u.seen = true) {k : Nat}
    (hk : k ≤ u.dict.next.toNat) :
    ∃ v w, u.entryOf (classify u.dict.next k) k = some (v :: w) := by
  rcases Nat.lt_or_eq_of_le hk with hk | hk
  · obtain ⟨v, w, hw, -⟩ := h.dict.str_defined hk
    rw [classify_known hk]
    exact ⟨v, w, hw⟩
  · have hc : u.wcode.toNat < u.dict.next.toNat := by
      have := h.code
      rwa [if_pos hs] at this
    obtain ⟨v, w, hw, hf⟩ := h.dict.str_defined hc
    rw [classify_sentinel hk]
    exact ⟨v, w ++ [v], by simp only [Decoder.entryOf, hw, hf, List.cons_append]⟩

theorem Decoder.Inv.atReset {p : Params} (hp : p.legal) : Decoder.Inv p .atReset where
  dict := Dict.Inv.atReset hp
  code := rfl
  error := ⟨rfl, rfl⟩

theorem Decoder.Inv.start {p : Params} {u : Decoder} (hp : p.legal) (h : Decoder.Inv p u) :
    Decoder.Inv p u.start where
  dict := h.dict.fresh hp
  code := rfl
  error := ⟨rfl, rfl⟩

theorem Decoder.Inv.fail {p : Params} {u : Decoder} (h : Decoder.Inv p u) {e : Status} {info : Word}
    (he : e = .malformedCode ∨ (e = .emptyInput ∧ info = 0) ∨ (e = .capacityExceeded ∧ info = 2)) :
    Decoder.Inv p (u.fail e info) where
  dict := h.dict
  code := h.code
  error := he

theorem Decoder.Inv.finish {p : Params} {u : Decoder} (h : Decoder.Inv p u) (ha : u.phase = .active) :
    Decoder.Inv p u.finish where
  dict := h.dict
  code := rfl
  error := by
    have := h.error
    rwa [if_neg (by rw [ha]; decide)] at this

/-- The first code of a call keeps the decoder's invariant (42_decoder.md R145). -/
theorem Decoder.Inv.acceptFirst {p : Params} {u : Decoder} (h : Decoder.Inv p u) {k : Nat} (hk : k < 256) :
    Decoder.Inv p { u with seen := true, wcode := zext32 k } where
  dict := h.dict
  code := by
    show if true = true then _ else _
    rw [if_pos rfl, zext32_toNat (by omega)]
    exact Nat.lt_of_lt_of_le hk h.dict.low
  error := h.error

/-- A later code keeps the decoder's invariant (42_decoder.md R145). -/
theorem Decoder.Inv.accept {p : Params} {u : Decoder} (h : Decoder.Inv p u) (hs : u.seen = true) {k : Nat}
    (hk : k ≤ u.dict.next.toNat) (hroom : u.dict.next ≠ p.dictCap) (v : Byte) : Decoder.Inv p (u.accept k v) := by
  have hc : u.wcode.toNat < u.dict.next.toNat := by
    have := h.code
    rwa [if_pos hs] at this
  have hlt : u.dict.next.toNat < p.dictCap.toNat :=
    Nat.lt_of_le_of_ne h.dict.high fun e => hroom (BitVec.eq_of_toNat_eq e)
  have hn := Dict.insert_next_toNat hlt u.wcode v
  have hb := u.dict.next.isLt
  exact
    { dict := h.dict.insert hroom hc v
      code := by
        show if u.seen = true then _ else _
        rw [if_pos hs]
        show (zext32 k).toNat < (u.dict.insert u.wcode v).next.toNat
        rw [zext32_toNat (by omega)]
        omega
      error := h.error }

end Sys2Proof.Machine
end

