-- ==== Sys2Proof/Laws/Grid.lean ====
section
/-! SUPPORT. The grid: what one cell reads after each write, that the writes keep the invariant, and that every cell of
a grid can be read. -/

namespace Sys2Proof.Machine

theorem isSym_iff (v : Int) : isSym v = true ↔ 0 ≤ v ∧ v ≤ 255 := by
  unfold isSym
  exact decide_eq_true_iff

theorem Grid.inBounds_iff (g : Grid) (row col : Int) :
    g.inBounds row col = true ↔ 0 ≤ row ∧ row < g.rows.toNat ∧ 0 ≤ col ∧ col < g.cols.toNat := by
  unfold Grid.inBounds
  exact decide_eq_true_iff

theorem Grid.cell_setCell (g : Grid) (i : Nat) (v : Byte) (k : Nat) :
    (g.setCell i v).cell k = if k = i then some v else g.cell k :=
  Table.read_write _ _ _ _

theorem Grid.cell_fillCells (g : Grid) (v : Byte) (k : Nat) :
    (g.fillCells v).cell k = if k < g.size then some v else g.cell k :=
  Table.read_fill _ _ _ _

/-- A pair in bounds has an index below the size (40_grid.md R100). -/
theorem Grid.idx_lt_size {g : Grid} {row col : Int} (h : g.inBounds row col = true) :
    g.idx row col < g.size := by
  obtain ⟨h1, h2, h3, h4⟩ := (Grid.inBounds_iff g row col).mp h
  have hr : row.toNat < g.rows.toNat := by omega
  have hc : col.toNat < g.cols.toNat := by omega
  unfold Grid.idx Grid.size
  calc row.toNat * g.cols.toNat + col.toNat < row.toNat * g.cols.toNat + g.cols.toNat := by omega
    _ = (row.toNat + 1) * g.cols.toNat := by ring
    _ ≤ g.rows.toNat * g.cols.toNat := Nat.mul_le_mul_right _ hr

/-- The shape of a new grid: the operands fit their registers, because the product does not exceed `GRID_CAP`. -/
theorem Grid.create_shape {g : Grid} {rows cols : Int} {cap : Word} (hr : 0 < rows) (hc : 0 < cols)
    (h : rows * cols ≤ cap.toNat) :
    ((g.create rows cols).rows.toNat : Int) = rows ∧ ((g.create rows cols).cols.toNat : Int) = cols ∧
      ((g.create rows cols).size : Int) = rows * cols := by
  have hcap := cap.isLt
  have h1 : rows ≤ rows * cols := by nlinarith
  have h2 : cols ≤ rows * cols := by nlinarith
  have fit : ∀ v : Int, 0 < v → v ≤ rows * cols → ((word32 v).toNat : Int) = v := by
    intro v h3 h4
    unfold word32
    rw [BitVec.toNat_ofInt]
    omega
  have e1 := fit rows hr h1
  have e2 := fit cols hc h2
  refine ⟨e1, e2, ?_⟩
  show (((word32 rows).toNat * (word32 cols).toNat : Nat) : Int) = rows * cols
  rw [Nat.cast_mul, e1, e2]

theorem Grid.Inv.size_le {p : Params} {g : Grid} (h : Grid.Inv p g) (hv : g.valid = true) :
    g.size ≤ p.gridCap.toNat := by
  have := h.shape
  rw [if_pos hv] at this
  exact this.2.2

/-- Under the invariant every cell of the grid can be read (10_state.md R49). -/
theorem Grid.Inv.symbols_defined {p : Params} {g : Grid} (h : Grid.Inv p g) : ∃ cs, g.symbols = some cs := by
  cases hs : g.symbols with
  | some cs => exact ⟨cs, rfl⟩
  | none =>
    obtain ⟨i, hi, hn⟩ := (Table.readAll_eq_none_iff _ _).mp hs
    have := h.written i (List.mem_range.mp hi)
    rw [Grid.cell, hn] at this
    cases this

/-- The cells in index order: as many as the grid has, each the cell of its index. -/
theorem Grid.symbols_spec {g : Grid} {cs : List Byte} (h : g.symbols = some cs) :
    cs.length = g.size ∧ ∀ i < cs.length, g.cell i = cs[i]? := by
  have hm := (Table.readAll_eq_some_iff _ _ _).mp h
  have hl : cs.length = g.size := by
    have := congrArg List.length hm
    simpa using this.symm
  refine ⟨hl, fun i hi => ?_⟩
  have := congrArg (·[i]?) hm
  simp only [List.getElem?_map, List.getElem?_range (hl ▸ hi)] at this
  rw [List.getElem?_eq_getElem hi] at this ⊢
  simpa [Grid.cell] using this

theorem Grid.Inv.atReset {p : Params} : Grid.Inv p .atReset where
  shape := ⟨rfl, rfl⟩
  canonical := List.Pairwise.nil
  bounded := by
    intro q hq
    cases hq
  written := by
    intro i hi
    exact absurd hi (Nat.not_lt_zero i)

theorem Grid.Inv.create {p : Params} {g : Grid} (h : Grid.Inv p g) {rows cols : Int} (hr : 0 < rows)
    (hc : 0 < cols) (hp : rows * cols ≤ p.gridCap.toNat) : Grid.Inv p (g.create rows cols) := by
  obtain ⟨e1, e2, e3⟩ := Grid.create_shape (g := g) hr hc hp
  have hs : (g.create rows cols).size ≤ p.gridCap.toNat := by omega
  exact
    { shape := by
        show if true = true then _ else _
        rw [if_pos rfl]
        exact ⟨by omega, by omega, hs⟩
      canonical := Memory.wf_fill h.canonical _ _
      bounded := by
        intro q hq
        rcases Table.mem_fill hq with hq | hq
        · exact Nat.lt_of_lt_of_le hq.1 hs
        · exact h.bounded q hq
      written := by
        intro i hi
        have : (g.create rows cols).cell i = some Config.fill0 :=
          (Grid.cell_fillCells _ _ i).trans (if_pos hi)
        rw [this]
        rfl }

theorem Grid.Inv.fillCells {p : Params} {g : Grid} (h : Grid.Inv p g) (hv : g.valid = true) (v : Byte) :
    Grid.Inv p (g.fillCells v) where
  shape := h.shape
  canonical := Memory.wf_fill h.canonical _ _
  bounded := by
    intro q hq
    rcases Table.mem_fill hq with hq | hq
    · exact Nat.lt_of_lt_of_le hq.1 (h.size_le hv)
    · exact h.bounded q hq
  written := by
    intro i hi
    rw [Grid.fillCells_size] at hi
    rw [Grid.cell_fillCells, if_pos hi]
    rfl

theorem Grid.Inv.setCell {p : Params} {g : Grid} (h : Grid.Inv p g) (hv : g.valid = true) {i : Nat}
    (hi : i < g.size) (v : Byte) : Grid.Inv p (g.setCell i v) where
  shape := h.shape
  canonical := Memory.wf_write h.canonical _ _
  bounded := by
    intro q hq
    rcases Table.mem_write hq with rfl | hq
    · exact Nat.lt_of_lt_of_le hi (h.size_le hv)
    · exact h.bounded q hq
  written := by
    intro k hk
    rw [Grid.cell_setCell]
    split
    · rfl
    · exact h.written k hk

end Sys2Proof.Machine
end

