-- ==== Sys2Proof/Laws/PerInstr.lean ====
section
/-! SUPPORT. Statements made per instruction. `SelectWord`: the selection word of an instruction alone selects its
command, whatever the operand words are (30_encoding.md R75). -/

namespace Sys2Proof.Laws.SelectWord

/-- Any operand words beside the selection word of `i` decode to an instruction with the opcode of `i`. -/
def Statement (i : Instr) : Prop :=
  ∀ a b c : Word, ∃ j, decode ⟨(encode i).w0, a, b, c⟩ = .ok j ∧ j.opcode = i.opcode

theorem nop : Statement .nop := fun _ _ _ => ⟨_, decode_select rfl, rfl⟩
theorem readCsr (n : Nat) : Statement (.readCsr n) := fun _ _ _ => ⟨_, decode_select rfl, rfl⟩
theorem gridCreate (rows cols : Int) : Statement (.gridCreate rows cols) := fun _ _ _ => ⟨_, decode_select rfl, rfl⟩
theorem gridClear (value : Int) : Statement (.gridClear value) := fun _ _ _ => ⟨_, decode_select rfl, rfl⟩
theorem gridGet (row col : Int) : Statement (.gridGet row col) := fun _ _ _ => ⟨_, decode_select rfl, rfl⟩
theorem gridSet (row col value : Int) : Statement (.gridSet row col value) := fun _ _ _ => ⟨_, decode_select rfl, rfl⟩
theorem gridRows : Statement .gridRows := fun _ _ _ => ⟨_, decode_select rfl, rfl⟩
theorem gridCols : Statement .gridCols := fun _ _ _ => ⟨_, decode_select rfl, rfl⟩
theorem encStart : Statement .encStart := fun _ _ _ => ⟨_, decode_select rfl, rfl⟩
theorem encPush (c : Int) : Statement (.encPush c) := fun _ _ _ => ⟨_, decode_select rfl, rfl⟩
theorem encFlush : Statement .encFlush := fun _ _ _ => ⟨_, decode_select rfl, rfl⟩
theorem encGrid : Statement .encGrid := fun _ _ _ => ⟨_, decode_select rfl, rfl⟩
theorem decStart : Statement .decStart := fun _ _ _ => ⟨_, decode_select rfl, rfl⟩
theorem decPush (k : Nat) : Statement (.decPush k) := fun _ _ _ => ⟨_, decode_select rfl, rfl⟩
theorem decFinish : Statement .decFinish := fun _ _ _ => ⟨_, decode_select rfl, rfl⟩

end Sys2Proof.Laws.SelectWord
end

