-- ==== Sys2Proof/Laws/Step.lean ====
section
/-! SUPPORT. What a step can do, and that every meaning answers by giving one response after the earlier ones and leaves
the parameters and the input stream; and runs of several steps. -/

namespace Sys2Proof.Machine

/-- Everything a step can do: wait, apply a reset, answer an illegal command word, or run the instruction. -/
theorem step_cases (s : State) :
    (s.inputs = [] ∧ step s = .next s) ∨
    (∃ rest, s.inputs = .reset :: rest ∧ step s = .next ({ s with inputs := rest }).applyReset) ∨
    (∃ c rest why, s.inputs = .command c :: rest ∧ decode c = .error why ∧
      step s = raiseIllegal why { s with inputs := rest }) ∨
    (∃ c rest i, s.inputs = .command c :: rest ∧ decode c = .ok i ∧ step s = exec i { s with inputs := rest }) := by
  unfold step State.take
  cases hi : s.inputs with
  | nil => exact .inl ⟨rfl, rfl⟩
  | cons x rest =>
    cases x with
    | reset => exact .inr (.inl ⟨rest, rfl, rfl⟩)
    | command c =>
      cases hd : decode c with
      | error why => exact .inr (.inr (.inl ⟨c, rest, why, rfl, hd, by simp only [hd]⟩))
      | ok i => exact .inr (.inr (.inr ⟨c, rest, i, rfl, hd, by simp only [hd]⟩))

/-- The outcome is a next state that differs from `s` in the units at most, with one response more. -/
def GivesOneResponse (o : Outcome) (s : State) : Prop :=
  ∀ t, o = .next t → t.cfg = s.cfg ∧ t.inputs = s.inputs ∧ ∃ r, t.rsps = s.rsps ++ [r]

theorem answer_givesOneResponse {s s' : State} (r : Response) (h1 : s'.cfg = s.cfg) (h2 : s'.inputs = s.inputs)
    (h3 : s'.rsps = s.rsps) : GivesOneResponse (answer s' r) s := by
  intro t ht
  cases ht
  exact ⟨h1, h2, r, by rw [State.respond_rsps, h3]⟩

theorem fault_givesOneResponse (f : Fault) (s : State) : GivesOneResponse (.fault f) s := by
  intro t ht
  cases ht

/-- Every instruction gives one response and leaves the parameters and the input stream (30_encoding.md R76). -/
theorem exec_givesOneResponse (i : Instr) (s : State) : GivesOneResponse (exec i s) s := by
  have ans : ∀ (s' : State) (r : Response), s'.cfg = s.cfg → s'.inputs = s.inputs → s'.rsps = s.rsps →
      GivesOneResponse (answer s' r) s := fun s' r h1 h2 h3 => answer_givesOneResponse r h1 h2 h3
  have flt := fault_givesOneResponse
  cases i <;> simp only [exec, execNop, execReadCsr, execGridCreate, execGridClear, execGridGet, execGridSet,
    execGridRows, execGridCols, execEncStart, execEncPush, execEncFlush, execEncGrid, execDecStart, execDecPush,
    execDecFinish, decPushFirst, decPushLater, raise, raiseEnc, raiseDec] <;>
    repeat' split
  all_goals first
    | exact ans _ _ rfl rfl rfl
    | exact flt _ _

/-! ### Runs -/

theorem core_run_next (M : Host.Core) {k : Nat} {s t : M.State} (h : M.step s = .next t) :
    M.run (k + 1) s = M.run k t := by
  rw [Host.Core.run, h]

theorem core_run_fault (M : Host.Core) {k : Nat} {s : M.State} {f : M.Fault} (h : M.step s = .fault f) :
    M.run (k + 1) s = .fault f := by
  rw [Host.Core.run, h]

theorem core_run_refused (M : Host.Core) {k : Nat} {s : M.State} {f : M.Refusal} (h : M.step s = .refused f) :
    M.run (k + 1) s = .refused f := by
  rw [Host.Core.run, h]

/-- `runSteps` is the host's run of the machine. -/
theorem runSteps_eq_core_run (k : Nat) (s : State) : runSteps k s = Host.Core.run Sys2Proof.core k s := by
  induction k generalizing s with
  | zero => rfl
  | succ k ih =>
    rw [runSteps]
    cases h : step s with
    | next t => exact (ih t).trans (core_run_next Sys2Proof.core h).symm
    | fault f => exact (core_run_fault Sys2Proof.core h).symm
    | refused f => exact (core_run_refused Sys2Proof.core h).symm

/-- A run whose first input is a command that decodes runs that instruction first. -/
theorem runSteps_command {s : State} {c : Command} {rest : List Input} {i : Instr} (hs : s.inputs = .command c :: rest)
    (hd : decode c = .ok i) (k : Nat) :
    runSteps (k + 1) s =
      match exec i { s with inputs := rest } with
      | .next t => runSteps k t
      | .fault f => .fault f
      | .refused f => .refused f := by
  have h : step s = exec i { s with inputs := rest } := by
    unfold step State.take
    simp only [hs, hd]
  cases he : exec i { s with inputs := rest } <;> rw [he] at h <;> simp only [runSteps, h]

/-- A run that answers a next state and then runs on. -/
theorem runSteps_add {s t : State} {k : Nat} (h : runSteps k s = .next t) (m : Nat) :
    runSteps (k + m) s = runSteps m t := by
  induction k generalizing s with
  | zero =>
    cases h
    rw [Nat.zero_add]
  | succ k ih =>
    rw [Nat.succ_add]
    rw [runSteps] at h ⊢
    cases hs : step s with
    | next u =>
      rw [hs] at h
      exact ih h
    | fault f =>
      rw [hs] at h
      cases h
    | refused f =>
      rw [hs] at h
      cases h

end Sys2Proof.Machine
end

