-- ==== Sys2Proof/Tests/Slice0.lean ====
section
/-! SUPPORT. Tests of the model. Expected results are the spec's: its encoded examples (30_encoding.md R83) and its test
vectors (95_test_vectors.md), named by their ids. The last part shows, for each statement with hypotheses, a state and
operands that meet them. -/

namespace Sys2Proof.Tests

open Sys2Proof Sys2Proof.Machine

/-! ### Well-formedness: each check, just outside and just inside its range (00_scope.md R9, R11) -/

theorem test_wf_readCsr : (Instr.readCsr 4294967296).wf = false ∧ (Instr.readCsr 4294967295).wf = true := by decide

theorem test_wf_gridCreate :
    (Instr.gridCreate 2147483648 1).wf = false ∧ (Instr.gridCreate 1 (-2147483649)).wf = false ∧
    (Instr.gridCreate 2147483647 (-2147483648)).wf = true := by decide

theorem test_wf_gridClear :
    (Instr.gridClear 2147483648).wf = false ∧ (Instr.gridClear (-2147483649)).wf = false ∧
    (Instr.gridClear (-1)).wf = true := by decide

theorem test_wf_gridGet :
    (Instr.gridGet 2147483648 0).wf = false ∧ (Instr.gridGet 0 2147483648).wf = false ∧
    (Instr.gridGet (-2147483648) 2147483647).wf = true := by decide

theorem test_wf_gridSet :
    (Instr.gridSet 2147483648 0 0).wf = false ∧ (Instr.gridSet 0 (-2147483649) 0).wf = false ∧
    (Instr.gridSet 0 0 2147483648).wf = false ∧ (Instr.gridSet 0 (-1) 999).wf = true := by decide

theorem test_wf_encPush : (Instr.encPush (-2147483649)).wf = false ∧ (Instr.encPush (-2147483648)).wf = true := by
  decide

theorem test_wf_decPush : (Instr.decPush 4294967296).wf = false ∧ (Instr.decPush 4294967295).wf = true := by decide

theorem test_wf_no_operands :
    Instr.nop.wf = true ∧ Instr.gridRows.wf = true ∧ Instr.gridCols.wf = true ∧ Instr.encStart.wf = true ∧
    Instr.encFlush.wf = true ∧ Instr.encGrid.wf = true ∧ Instr.decStart.wf = true ∧
    Instr.decFinish.wf = true := by decide

/-! ### Decoding: the words of 30_encoding.md R83, one per command -/

/-- The instruction a command word decodes to, `none` where it is illegal. -/
def decoded (w0 w1 w2 w3 : Word) : Option Instr :=
  match decode ⟨w0, w1, w2, w3⟩ with
  | .ok i => some i
  | .error _ => none

theorem test_decode_control :
    decoded 0x00000000#32 0x00000000#32 0x00000000#32 0x00000000#32 = some .nop ∧
    decoded 0x00000001#32 0x00000011#32 0x00000000#32 0x00000000#32 = some (.readCsr 0x11) := by decide

theorem test_decode_grid :
    decoded 0x00000010#32 0x00000003#32 0x00000004#32 0x00000000#32 = some (.gridCreate 3 4) ∧
    decoded 0x00000011#32 0x000000C8#32 0x00000000#32 0x00000000#32 = some (.gridClear 200) ∧
    decoded 0x00000012#32 0x00000005#32 0x00000000#32 0x00000000#32 = some (.gridGet 5 0) ∧
    decoded 0x00000013#32 0x00000001#32 0x00000002#32 0x000003E7#32 = some (.gridSet 1 2 999) ∧
    decoded 0x00000013#32 0x00000000#32 0xFFFFFFFF#32 0x00000007#32 = some (.gridSet 0 (-1) 7) ∧
    decoded 0x00000014#32 0x00000000#32 0x00000000#32 0x00000000#32 = some .gridRows ∧
    decoded 0x00000015#32 0x00000000#32 0x00000000#32 0x00000000#32 = some .gridCols := by decide

theorem test_decode_encoder :
    decoded 0x00000020#32 0x00000000#32 0x00000000#32 0x00000000#32 = some .encStart ∧
    decoded 0x00000021#32 0x00000041#32 0x00000000#32 0x00000000#32 = some (.encPush 65) ∧
    decoded 0x00000022#32 0x00000000#32 0x00000000#32 0x00000000#32 = some .encFlush ∧
    decoded 0x00000023#32 0x00000000#32 0x00000000#32 0x00000000#32 = some .encGrid := by decide

theorem test_decode_decoder :
    decoded 0x00000030#32 0x00000000#32 0x00000000#32 0x00000000#32 = some .decStart ∧
    decoded 0x00000031#32 0x000003E7#32 0x00000000#32 0x00000000#32 = some (.decPush 999) ∧
    decoded 0x00000032#32 0x00000000#32 0x00000000#32 0x00000000#32 = some .decFinish := by decide

/-- V-G3, V-E24 and V-D3: the operand words at the ends of their ranges. -/
theorem test_decode_extremes :
    decoded 0x00000010#32 0x7FFFFFFF#32 0x80000000#32 0x00000000#32 = some (.gridCreate 2147483647 (-2147483648)) ∧
    decoded 0x00000021#32 0x80000000#32 0x00000000#32 0x00000000#32 = some (.encPush (-2147483648)) ∧
    decoded 0x00000031#32 0xFFFFFFFF#32 0x00000000#32 0x00000000#32 = some (.decPush 4294967295) := by decide

/-- The two illegal rows of R83, and an opcode that is illegal with a reserved field that is not 0 (R74). -/
theorem test_decode_illegal :
    decode ⟨0x00000024#32, 1, 2, 3⟩ = .error .opcode ∧ decode ⟨0x00000121#32, 1, 2, 3⟩ = .error .reserved ∧
    decode ⟨0x00000124#32, 0, 0, 0⟩ = .error .opcode := ⟨rfl, rfl, rfl⟩

/-- The 128-bit value of a command: `GRID_SET 1, 2, 999` (R70, R83). -/
theorem test_command_bits :
    (encode (.gridSet 1 2 999)).bits = 0x000003E7000000020000000100000013#128 := by decide

/-- A row's word, numbered as spec/opcode_table.json numbers it: `ENC_PUSH 65`, and the same row without operand
bits. -/
theorem test_decodeTableWord :
    decodeTableWord 128 0x4100000021 = some (.encPush 65) ∧ decodeTableWord 32 0x21 = some (.encPush 0) ∧
    decodeTableWord 32 0x24 = none := by decide

/-- `NOP`, `ENC_PUSH 65` and `DEC_PUSH 258` on a narrow link (R79). -/
theorem test_link_bytes :
    (encode (.encPush 65)).bytes =
      [0x21, 0, 0, 0, 0x41, 0, 0, 0, 0, 0, 0, 0, 0, 0, 0, 0] ∧
    (encode (.decPush 0x102)).bytes =
      [0x31, 0, 0, 0, 0x02, 0x01, 0, 0, 0, 0, 0, 0, 0, 0, 0, 0] ∧
    Command.ofBytes [0x21, 0, 0, 0, 0x41, 0, 0, 0, 0, 0, 0, 0, 0, 0, 0] = none := by decide

/-- The response of V-E29's ENC_GRID as words (R78). -/
theorem test_response_words :
    Response.words ⟨.capacityExceeded, 1, 0, [1]⟩ = [0x00000006#32, 1, 0, 1, 1] := by decide

/-- The assembler examples of R81. -/
theorem test_assemble :
    assembleInstr "GRID_CREATE 3, 4".toList = some (.gridCreate 3 4) ∧
    assembleInstr "GRID_SET 1, 2, 999".toList = some (.gridSet 1 2 999) ∧
    assembleInstr "DEC_PUSH 0x100".toList = some (.decPush 256) ∧
    assembleInstr "READ_CSR 0x11".toList = some (.readCsr 17) ∧
    assembleInstr "ENC_FLUSH".toList = some .encFlush := by decide

/-- R82: the cells of a loaded grid are set in row-major order. -/
theorem test_gridLoad :
    (Pseudo.gridLoad 2 2 [7, 8, 9, 10]).expand =
      [.gridCreate 2 2, .gridSet 0 0 7, .gridSet 0 1 8, .gridSet 1 0 9, .gridSet 1 1 10] := by decide

/-! ### The meanings: one step on a small state -/

/-- `DICT_CAP` 258 and `GRID_CAP` 4. -/
def small : Params := ⟨258, 4⟩

/-- The block after reset with the small parameters. -/
def base : State := State.resetWith small

/-- A 2 × 2 grid with the cells 1, 2, 1, 2. -/
def square : Grid := ⟨true, 2, 2, [(0, 1), (1, 2), (2, 1), (3, 2)]⟩

/-- One entry: 256 = (1, 2). -/
def oneEntry : Dict := ⟨257, [(256, ⟨1, 2⟩)]⟩

/-- A full dictionary of `small`: 256 = (1, 2), 257 = (2, 1). -/
def twoEntries : Dict := ⟨258, [(256, ⟨1, 2⟩), (257, ⟨2, 1⟩)]⟩

/-- An encoder in a call, with the working code `w` if there is one. -/
def encWith (d : Dict) (w : Option Word) : Encoder :=
  match w with
  | none => ⟨.active, false, 0, d, .ok, 0⟩
  | some c => ⟨.active, true, c, d, .ok, 0⟩

/-- A decoder in a call, with the previous code `w` if there is one. -/
def decWith (d : Dict) (w : Option Word) : Decoder :=
  match w with
  | none => ⟨.active, false, 0, d, .ok, 0⟩
  | some c => ⟨.active, true, c, d, .ok, 0⟩

/-- An encoder whose call failed by V-E29's error. -/
def encFailed : Encoder := ⟨.faulted, true, 2, twoEntries, .capacityExceeded, 1⟩

/-- A decoder whose call failed by L1-4's error. -/
def decFailed : Decoder := ⟨.faulted, true, 65, ⟨256, []⟩, .malformedCode, 999⟩

/-- `base` with a grid and two units. -/
def withUnits (g : Grid) (e : Encoder) (d : Decoder) : State := { base with grid := g, enc := e, dec := d }

/-- The state after an outcome, `none` where it stops. -/
def after : Outcome → Option State
  | .next t => some t
  | .fault _ => none
  | .refused _ => none

/-- The last response of an outcome. -/
def reply (o : Outcome) : Option Response :=
  match after o with
  | none => none
  | some t => t.rsps.getLast?

theorem test_nop : after (exec .nop base) = some { base with rsps := [⟨.ok, 0, 0, []⟩] } := by decide

/-- V-G16, V-E25 and P5 row 4: GRID_STATUS, ENC_STATUS and DEC_STATUS. -/
theorem test_readCsr :
    reply (exec (.readCsr 0x30) (withUnits square .atReset .atReset)) = some ⟨.ok, 0, 1, []⟩ ∧
    reply (exec (.readCsr 0x10) (withUnits .atReset (encWith ⟨256, []⟩ (some 65)) .atReset)) =
      some ⟨.ok, 0, 0x00000005, []⟩ ∧
    reply (exec (.readCsr 0x20) (withUnits .atReset .atReset decFailed)) = some ⟨.ok, 0, 0x00000506, []⟩ := by decide

/-- 10_state.md R41, R48: ID, and a number that is not assigned. -/
theorem test_readCsr_id :
    reply (exec (.readCsr 0x00) base) = some ⟨.ok, 0, 0x4C5A5701, []⟩ ∧
    reply (exec (.readCsr 0x03) base) = some ⟨.illegalCommand, 2, 0, []⟩ := by decide

/-- V-G6 (a 1 × 1 grid of 0) and V-G2, V-G4. -/
theorem test_gridCreate :
    (after (exec (.gridCreate 1 1) base)).map (·.grid) = some ⟨true, 1, 1, [(0, 0)]⟩ ∧
    reply (exec (.gridCreate 0 4) base) = some ⟨.invalidDimension, 0, 0, []⟩ ∧
    reply (exec (.gridCreate 65536 65536) base) = some ⟨.capacityExceeded, 0, 0, []⟩ := by decide

/-- V-G13: a new grid loses the old contents. -/
theorem test_gridCreate_again :
    (after (exec (.gridCreate 1 3) (withUnits square .atReset .atReset))).map
      (fun t => [0, 1, 2].map t.grid.cell) = some [some 0, some 0, some 0] := by decide

/-- V-G8, V-G7 and V-G1. -/
theorem test_gridClear :
    (after (exec (.gridClear 255) (withUnits square .atReset .atReset))).map (·.grid.cells) =
      some [(0, 255), (1, 255), (2, 255), (3, 255)] ∧
    reply (exec (.gridClear (-1)) (withUnits square .atReset .atReset)) = some ⟨.outOfRange, 0xFFFFFFFF, 0, []⟩ ∧
    reply (exec (.gridClear 5) base) = some ⟨.sequenceError, 1, 0, []⟩ := by decide

/-- R105: the cell (0, 1) of the square; V-G9 on it. -/
theorem test_gridGet :
    reply (exec (.gridGet 0 1) (withUnits square .atReset .atReset)) = some ⟨.ok, 0, 2, []⟩ ∧
    reply (exec (.gridGet 2 0) (withUnits square .atReset .atReset)) = some ⟨.indexOutOfBounds, 0, 0, []⟩ ∧
    reply (exec (.gridGet (-1) 0) (withUnits square .atReset .atReset)) = some ⟨.indexOutOfBounds, 0, 0, []⟩ := by
  decide

/-- P4 row 2: the cell (1, 0) of a 2 × 2 grid has the index 2. -/
theorem test_gridSet :
    (after (exec (.gridSet 1 0 255) (withUnits square .atReset .atReset))).map (·.grid.cells) =
      some [(0, 1), (1, 2), (2, 255), (3, 2)] := by decide

/-- V-G10 and V-G11: the index is checked before the value. -/
theorem test_gridSet_order :
    reply (exec (.gridSet 5 0 999) (withUnits square .atReset .atReset)) = some ⟨.indexOutOfBounds, 0, 0, []⟩ ∧
    reply (exec (.gridSet 0 0 (-1)) (withUnits square .atReset .atReset)) =
      some ⟨.outOfRange, 0xFFFFFFFF, 0, []⟩ := by decide

/-- V-G13's shape. -/
theorem test_gridRows :
    reply (exec .gridRows (withUnits ⟨true, 2, 5, []⟩ .atReset .atReset)) = some ⟨.ok, 0, 2, []⟩ := by decide

theorem test_gridCols :
    reply (exec .gridCols (withUnits ⟨true, 2, 5, []⟩ .atReset .atReset)) = some ⟨.ok, 0, 5, []⟩ := by decide

/-- V-E27: START abandons a call; 60_exceptions.md R176: it clears the error. -/
theorem test_encStart :
    (after (exec .encStart (withUnits .atReset encFailed .atReset))).map
      (fun t => (t.enc.phase, t.enc.wvalid, t.enc.wcode, t.enc.dict.next, t.enc.err, t.enc.errInfo)) =
      some (.active, false, 0, 256, .ok, 0) := by decide

/-- V-E26's second command, V-E32 (a match in a full dictionary), V-E30's failure. -/
theorem test_encPush :
    (after (exec (.encPush 65) (withUnits .atReset (encWith ⟨256, []⟩ (some 65)) .atReset))).map
      (fun t => (t.rsps, t.enc.wcode, t.enc.dict)) =
      some ([⟨.ok, 0, 0, [65]⟩], 65, ⟨257, [(256, ⟨65, 65⟩)]⟩) ∧
    (after (exec (.encPush 2) (withUnits .atReset (encWith twoEntries (some 1)) .atReset))).map
      (fun t => (t.rsps, t.enc.wcode)) = some ([⟨.ok, 0, 0, []⟩], 256) ∧
    (after (exec (.encPush 9) (withUnits .atReset (encWith twoEntries (some 1)) .atReset))).map
      (fun t => (t.rsps, t.enc.phase, t.enc.wcode)) =
      some ([⟨.capacityExceeded, 1, 0, []⟩], .faulted, 1) := by decide

/-- V-E23 and V-E20. -/
theorem test_encPush_errors :
    (after (exec (.encPush 256) (withUnits .atReset (encWith ⟨256, []⟩ none) .atReset))).map
      (fun t => (t.rsps, t.enc.phase, t.enc.err, t.enc.errInfo)) =
      some ([⟨.outOfRange, 0x100, 0, []⟩], .faulted, .outOfRange, 0x100) ∧
    reply (exec (.encPush 5) base) = some ⟨.sequenceError, 2, 0, []⟩ := by decide

/-- P4 row 7: the pending code, and `E.NEXT` is kept. -/
theorem test_encFlush :
    (after (exec .encFlush (withUnits .atReset (encWith oneEntry (some 255)) .atReset))).map
      (fun t => (t.rsps, t.enc.phase, t.enc.wvalid, t.enc.wcode, t.enc.dict.next)) =
      some ([⟨.ok, 0, 0, [255]⟩], .idle, false, 0, 257) := by decide

/-- V-E29's shape with `DICT_CAP` 257: the code of the completed iterations stays in OUT. -/
theorem test_encGrid :
    (after (exec .encGrid { withUnits square (encWith ⟨256, []⟩ none) .atReset with cfg := ⟨257, 4⟩ })).map
      (fun t => (t.rsps, t.enc.phase, t.enc.wcode, t.enc.dict.next)) =
      some ([⟨.capacityExceeded, 1, 0, [1]⟩], .faulted, 2, 257) := by decide

/-- V-E22 and V-E21: the encoder is checked first. -/
theorem test_encGrid_order :
    reply (exec .encGrid base) = some ⟨.sequenceError, 2, 0, []⟩ ∧
    reply (exec .encGrid (withUnits .atReset (encWith ⟨256, []⟩ none) .atReset)) = some ⟨.sequenceError, 1, 0, []⟩ := by
  decide

/-- P5 row 8: recovery by START. -/
theorem test_decStart :
    (after (exec .decStart (withUnits .atReset .atReset decFailed))).map
      (fun t => (t.dec.phase, t.dec.seen, t.dec.wcode, t.dec.dict.next, t.dec.err, t.dec.errInfo)) =
      some (.active, false, 0, 256, .ok, 0) := by decide

/-- V-D5 (the sentinel 256 after 65) and V-D6's third code (known). -/
theorem test_decPush :
    (after (exec (.decPush 256) (withUnits .atReset .atReset (decWith ⟨256, []⟩ (some 65))))).map
      (fun t => (t.rsps, t.dec.wcode, t.dec.dict)) =
      some ([⟨.ok, 0, 0, [65, 65]⟩], 256, ⟨257, [(256, ⟨65, 65⟩)]⟩) ∧
    (after (exec (.decPush 256) (withUnits .atReset .atReset (decWith ⟨257, [(256, ⟨65, 66⟩)]⟩ (some 66))))).map
      (fun t => (t.rsps, t.dec.wcode, t.dec.dict)) =
      some ([⟨.ok, 0, 0, [65, 66]⟩], 256, ⟨258, [(256, ⟨65, 66⟩), (257, ⟨66, 65⟩)]⟩) := by decide

/-- V-D2, L1-4, and P6 rows 21 and 25 with a full dictionary: malformed is checked before the capacity. -/
theorem test_decPush_errors :
    reply (exec (.decPush 256) (withUnits .atReset .atReset (decWith ⟨256, []⟩ none))) =
      some ⟨.malformedCode, 0x100, 0, []⟩ ∧
    reply (exec (.decPush 999) (withUnits .atReset .atReset (decWith ⟨256, []⟩ (some 65)))) =
      some ⟨.malformedCode, 0x3E7, 0, []⟩ ∧
    reply (exec (.decPush 259) (withUnits .atReset .atReset (decWith twoEntries (some 2)))) =
      some ⟨.malformedCode, 0x103, 0, []⟩ ∧
    reply (exec (.decPush 258) (withUnits .atReset .atReset (decWith twoEntries (some 2)))) =
      some ⟨.capacityExceeded, 2, 0, []⟩ := by decide

/-- P5 row 9, and P3 row 8 (`D.NEXT` is kept). -/
theorem test_decFinish :
    (after (exec .decFinish (withUnits .atReset .atReset (decWith ⟨256, []⟩ none)))).map
      (fun t => (t.rsps, t.dec.phase, t.dec.err)) = some ([⟨.emptyInput, 0, 0, []⟩], .faulted, .emptyInput) ∧
    (after (exec .decFinish (withUnits .atReset .atReset (decWith oneEntry (some 2))))).map
      (fun t => (t.rsps, t.dec.phase, t.dec.seen, t.dec.dict.next)) =
      some ([⟨.ok, 0, 0, []⟩], .idle, false, 257) := by decide

/-- The model's two stops (log 5, log 12), from states that no run reaches: an unwritten cell, a missing entry. -/
theorem test_stops :
    exec (.gridGet 1 1) (withUnits ⟨true, 2, 2, []⟩ (encWith ⟨256, []⟩ none) .atReset) = .fault .unwrittenCell ∧
    exec .encGrid (withUnits ⟨true, 2, 2, []⟩ (encWith ⟨256, []⟩ none) .atReset) = .fault .unwrittenCell ∧
    exec (.decPush 256) (withUnits .atReset .atReset (decWith ⟨257, []⟩ (some 1))) = .fault .undefinedString :=
  ⟨rfl, rfl, rfl⟩

/-- The host's way in: the row's word runs as the first instruction after reset. -/
theorem test_withFetchWord :
    (after (step (State.reset.withFetchWord 128 0x0400000003_00000010))).map (·.grid.rows) = some 3 ∧
    reply (step (State.reset.withFetchWord 32 0x24)) = some ⟨.illegalCommand, 0, 0, []⟩ := by decide

/-- R190: reset in the middle of a call, with a grid. -/
theorem test_reset :
    after (step { withUnits square encFailed decFailed with inputs := [.reset] }) = some base := by decide

/-- V-E4, V-E12 and V-D6 on the reference functions. -/
theorem test_reference :
    compress [65, 65, 65, 66, 65, 65, 65, 66] = [65, 256, 66, 256, 65, 66] ∧
    compress [65, 66, 65, 66, 65, 66, 65] = [65, 66, 256, 258] ∧
    decompress [65, 66, 256, 258] = .ok [65, 66, 65, 66, 65, 66, 65] ∧
    decompress [65, 999] = .error (.malformedCode 999) := ⟨rfl, rfl, rfl, rfl⟩

/-! ### Witnesses: the hypotheses of each statement are met together -/

/-- An encoder in a call with an empty dictionary, no symbol yet. -/
def encFresh : Encoder := encWith ⟨256, []⟩ none

/-- A decoder in a call with an empty dictionary, no code yet. -/
def decFresh : Decoder := decWith ⟨256, []⟩ none

/-- `s` with one command sent. -/
def sending (s : State) (w0 w1 w2 w3 : Word) : State := { s with inputs := [.command ⟨w0, w1, w2, w3⟩] }

theorem small_legal : small.legal := by decide

theorem square_inv : Grid.Inv small square where
  shape := by decide
  canonical := by decide
  bounded := by decide
  written := by decide

theorem empty_inv : Dict.Inv small ⟨256, []⟩ := Dict.Inv.atReset small_legal

theorem oneEntry_inv : Dict.Inv small oneEntry where
  low := by decide
  high := by decide
  canonical := by decide
  bounded := by decide
  stored := by
    intro n h1 h2
    have h3 : 256 ≤ n := h1
    have h4 : n < 257 := h2
    have h : n = 256 := by omega
    subst h
    exact ⟨⟨1, 2⟩, by decide, by decide⟩

theorem twoEntries_inv : Dict.Inv small twoEntries where
  low := by decide
  high := by decide
  canonical := by decide
  bounded := by decide
  stored := by
    intro n h1 h2
    have h3 : 256 ≤ n := h1
    have h4 : n < 258 := h2
    have h : n = 256 ∨ n = 257 := by omega
    rcases h with rfl | rfl
    · exact ⟨⟨1, 2⟩, by decide, by decide⟩
    · exact ⟨⟨2, 1⟩, by decide, by decide⟩

theorem empty_distinct : Dict.PairsDistinct ⟨256, []⟩ := by
  intro m n e hm hn
  have h := (Dict.entry_eq_some_iff _ m e).mp hm
  have h1 : m < 256 := h.2.1
  omega

theorem oneEntry_distinct : oneEntry.PairsDistinct := by
  intro m n e hm hn
  have h1 := (Dict.entry_eq_some_iff _ m e).mp hm
  have h2 := (Dict.entry_eq_some_iff _ n e).mp hn
  have h3 : m < 257 := h1.2.1
  have h4 : n < 257 := h2.2.1
  omega

theorem twoEntries_distinct : twoEntries.PairsDistinct := by
  intro m n e hm hn
  have h1 := (Dict.entry_eq_some_iff _ m e).mp hm
  have h2 := (Dict.entry_eq_some_iff _ n e).mp hn
  have h3 : m < 258 := h1.2.1
  have h4 : n < 258 := h2.2.1
  have hm' : m = 256 ∨ m = 257 := by omega
  have hn' : n = 256 ∨ n = 257 := by omega
  have hne : twoEntries.entry 256 ≠ twoEntries.entry 257 := by decide
  rcases hm' with rfl | rfl <;> rcases hn' with rfl | rfl
  · rfl
  · exact absurd (hm.trans hn.symm) hne
  · exact absurd (hn.trans hm.symm) hne
  · rfl

theorem encFresh_inv : Encoder.Inv small encFresh := ⟨empty_inv, empty_distinct, by decide, by decide⟩

theorem encOne_inv (w : Word) (h : w.toNat < 257) : Encoder.Inv small (encWith oneEntry (some w)) :=
  ⟨oneEntry_inv, oneEntry_distinct, h, rfl, rfl⟩

theorem encTwo_inv (w : Word) (h : w.toNat < 258) : Encoder.Inv small (encWith twoEntries (some w)) :=
  ⟨twoEntries_inv, twoEntries_distinct, h, rfl, rfl⟩

theorem encFailed_inv : Encoder.Inv small encFailed :=
  ⟨twoEntries_inv, twoEntries_distinct, by decide, by decide⟩

theorem decFresh_inv : Decoder.Inv small decFresh := ⟨empty_inv, by decide, by decide⟩

theorem decOne_inv (w : Word) (h : w.toNat < 257) : Decoder.Inv small (decWith oneEntry (some w)) :=
  ⟨oneEntry_inv, h, rfl, rfl⟩

theorem decTwo_inv (w : Word) (h : w.toNat < 258) : Decoder.Inv small (decWith twoEntries (some w)) :=
  ⟨twoEntries_inv, h, rfl, rfl⟩

theorem decFailed_inv : Decoder.Inv small decFailed := ⟨empty_inv, by decide, by decide⟩

theorem withUnits_inv {g : Grid} {e : Encoder} {d : Decoder} (hg : Grid.Inv small g) (he : Encoder.Inv small e)
    (hd : Decoder.Inv small d) : (withUnits g e d).Inv := ⟨small_legal, hg, he, hd⟩

/-- The state most witnesses start from: a grid, an encoder call with 256 = (1, 2) stored and working code 1, and a
decoder call with the same entry and previous code 2. -/
def busy : State := withUnits square (encWith oneEntry (some 1)) (decWith oneEntry (some 2))

theorem busy_inv : busy.Inv := withUnits_inv square_inv (encOne_inv 1 (by decide)) (decOne_inv 2 (by decide))

/-- As `busy`, with both dictionaries full. -/
def full : State := withUnits square (encWith twoEntries (some 1)) (decWith twoEntries (some 2))

theorem full_inv : full.Inv := withUnits_inv square_inv (encTwo_inv 1 (by decide)) (decTwo_inv 2 (by decide))

/-- As `busy`, with both calls just started. -/
def started : State := withUnits square encFresh decFresh

theorem started_inv : started.Inv := withUnits_inv square_inv encFresh_inv decFresh_inv

/-- As `busy`, with both calls failed. -/
def failed : State := withUnits square encFailed decFailed

theorem failed_inv : failed.Inv := withUnits_inv square_inv encFailed_inv decFailed_inv

theorem base_inv : base.Inv :=
  ⟨small_legal, Grid.Inv.atReset, Encoder.Inv.atReset small_legal, Decoder.Inv.atReset small_legal⟩

theorem witness_DecodeOfEncode :
    (Instr.gridSet (-2147483648) 2147483647 (-1)).wf = true ∧ (Instr.decPush 4294967295).wf = true := by decide

theorem witness_EncodeOfDecode : decode ⟨0x00000013#32, 0, 0xFFFFFFFF#32, 7⟩ = .ok (.gridSet 0 (-1) 7) := rfl

theorem witness_OpcodeMap : decode ⟨0x00000032#32, 5, 6, 7⟩ = .ok .decFinish := rfl

/-- Two commands that differ in unused words only: one operand, two, and all three used. -/
theorem witness_UnusedOperandsIgnored :
    (∃ c c' : Command, c ≠ c' ∧ operandCount c.op = 1 ∧ c'.w0 = c.w0 ∧ c'.w1 = c.w1) ∧
    (∃ c c' : Command, c ≠ c' ∧ operandCount c.op = 2 ∧ c'.w0 = c.w0 ∧ c'.w1 = c.w1 ∧ c'.w2 = c.w2) ∧
    ∃ c c' : Command, operandCount c.op = 3 ∧ c'.w0 = c.w0 ∧ c'.w1 = c.w1 ∧ c'.w2 = c.w2 ∧ c'.w3 = c.w3 :=
  ⟨⟨⟨0x21, 65, 0, 0⟩, ⟨0x21, 65, 7, 8⟩, by decide⟩, ⟨⟨0x10, 3, 4, 0⟩, ⟨0x10, 3, 4, 9⟩, by decide⟩,
    ⟨0x13, 1, 2, 3⟩, ⟨0x13, 1, 2, 3⟩, by decide⟩

/-- An unassigned opcode, and the smallest reserved field that is not 0. -/
theorem witness_IllegalCommandChangesNothing :
    (sending busy 0x24 0 0 0).inputs = .command ⟨0x24, 0, 0, 0⟩ :: [] ∧
    (0x24 : Word).extractLsb' 0 8 ∉ opcodes ∧
    (sending busy 0x121 0 0 0).inputs = .command ⟨0x121, 0, 0, 0⟩ :: [] ∧
    (0x121 : Word).extractLsb' 0 8 ∈ opcodes ∧ (0x121 : Word).extractLsb' 8 24 ≠ 0 := by decide

theorem witness_NarrowLinkIsLittleEndian : (3 : Nat) < 4 := by decide

theorem witness_ResponseReadsBack : (Response.emitted [65, 65]).out.length < 2 ^ 32 := by decide

theorem witness_StepRunsDecoded :
    (sending busy 0x21 65 0 0).inputs = .command ⟨0x21, 65, 0, 0⟩ :: [] ∧
    decode ⟨0x21, 65, 0, 0⟩ = .ok (.encPush 65) := ⟨rfl, rfl⟩

theorem witness_ResetSetsEveryRegister :
    { busy with inputs := [.reset, .reset] }.inputs = .reset :: [.reset] := rfl

/-- The smallest legal parameters (00_scope.md R7, R8). -/
theorem witness_InvAtReset : Params.legal ⟨257, 1⟩ := by decide

theorem witness_StepKeepsInv :
    (sending busy 0x21 9 0 0).Inv ∧ ∃ t, step (sending busy 0x21 9 0 0) = .next t :=
  ⟨⟨busy_inv.params, busy_inv.grid, busy_inv.enc, busy_inv.dec⟩, _, rfl⟩

theorem witness_StepNeverStops : busy.Inv ∧ full.Inv ∧ failed.Inv := ⟨busy_inv, full_inv, failed_inv⟩

theorem witness_OneResponsePerCommand :
    (sending busy 0x23 0 0 0).inputs = .command ⟨0x23, 0, 0, 0⟩ :: [] ∧
    (∃ t, step (sending busy 0x23 0 0 0) = .next t) ∧ { busy with inputs := [.reset] }.inputs = .reset :: [] ∧
    ∃ t, step { busy with inputs := [.reset] } = .next t := ⟨rfl, ⟨_, rfl⟩, rfl, _, rfl⟩

theorem witness_NothingHappensUnasked : busy.inputs = [] := rfl

/-- A query that succeeds, an error of a command that emits nothing, and one of ENC_GRID. -/
theorem witness_ResponseFields :
    (∃ t r, step (sending busy 0x12 0 1 0) = .next t ∧ t.rsps = [r] ∧ r.status = .ok) ∧
    (∃ t r, step (sending busy 0x12 2 0 0) = .next t ∧ t.rsps = [r] ∧ r.status ≠ .ok ∧
      decode ⟨0x12, 2, 0, 0⟩ ≠ .ok .encGrid ∧ ∀ i, decode ⟨0x12, 2, 0, 0⟩ = .ok i → canEmit i = false) ∧
    ∃ t r, step (sending full 0x23 0 0 0) = .next t ∧ t.rsps = [r] ∧ r.status ≠ .ok ∧
      ∀ i, decode ⟨0x23, 0, 0, 0⟩ = .ok i → isQuery i = false :=
  ⟨⟨_, _, rfl, rfl, by decide⟩,
    ⟨_, _, rfl, rfl, by decide, (fun h => by cases h), (fun i h => by cases h; rfl)⟩,
    _, _, rfl, rfl, by decide, (fun i h => by cases h; rfl)⟩

/-- An error of each of the four kinds: ENC_PUSH 256, ENC_GRID with a full dictionary, DEC_PUSH 999, GRID_ROWS without
a grid. -/
theorem witness_ErrorEffects :
    (∃ t r, step (sending busy 0x21 256 0 0) = .next t ∧ t.rsps = [] ++ [r] ∧ r.status = .outOfRange) ∧
    (∃ t r, step (sending full 0x23 0 0 0) = .next t ∧ t.rsps = [] ++ [r] ∧ r.status = .capacityExceeded) ∧
    (∃ t r, step (sending busy 0x31 999 0 0) = .next t ∧ t.rsps = [] ++ [r] ∧ r.status = .malformedCode) ∧
    ∃ t r, step (sending base 0x14 0 0 0) = .next t ∧ t.rsps = [] ++ [r] ∧ r.status = .sequenceError :=
  ⟨⟨_, _, rfl, rfl, by decide⟩, ⟨_, _, rfl, rfl, by decide⟩, ⟨_, _, rfl, rfl, by decide⟩, _, _, rfl, rfl, by decide⟩

theorem witness_NopDoesNothing :
    (Command.mk 0 1 2 3).w0 = 0x00000000#32 ∧
    (sending busy 0x100 0 0 0).inputs = .command ⟨0x100, 0, 0, 0⟩ :: [] ∧
    (0x100 : Word).extractLsb' 0 8 = 0x00#8 ∧ (0x100 : Word).extractLsb' 8 24 ≠ 0 := by decide

/-- Unassigned CSR numbers at the edges of the map, and a state without a grid. -/
theorem witness_ReadCsrReads :
    (∀ n ∈ [0x03, 0x0F, 0x14, 0x1F, 0x24, 0x2F, 0x33, 4294967295],
      n ∉ [0x00, 0x01, 0x02, 0x10, 0x11, 0x12, 0x13, 0x20, 0x21, 0x22, 0x23, 0x30, 0x31, 0x32]) ∧
    base.Inv ∧ base.grid.valid = false := ⟨by decide, base_inv, rfl⟩

theorem witness_StatusCodes : 9 ≤ (0x09#8).toNat ∧ 9 ≤ (0xFF#8).toNat := by decide

/-- Each outcome at the edge of its range; `GRID_CAP` is 4. -/
theorem witness_GridCreateEffect :
    ((0 : Int) ≤ 0 ∨ (1 : Int) ≤ 0) ∧
    ((0 : Int) < 5 ∧ (0 : Int) < 1 ∧ (base.cfg.gridCap.toNat : Int) < 5 * 1) ∧
    (0 : Int) < 4 ∧ (0 : Int) < 1 ∧ (4 : Int) * 1 ≤ base.cfg.gridCap.toNat := by decide

theorem witness_GridClearEffect :
    base.grid.valid = false ∧ busy.grid.valid = true ∧ ((-1 : Int) < 0 ∨ (255 : Int) < -1) ∧
    ((256 : Int) < 0 ∨ (255 : Int) < 256) ∧ (0 : Int) ≤ 255 ∧ (255 : Int) ≤ 255 := by decide

theorem witness_GridGetEffect :
    base.Inv ∧ base.grid.valid = false ∧ busy.Inv ∧ busy.grid.valid = true ∧
    (busy.grid.rows.toNat : Int) ≤ 2 ∧ (busy.grid.cols.toNat : Int) ≤ 2 ∧ (-1 : Int) < 0 ∧
    1 < busy.grid.rows.toNat ∧ 1 < busy.grid.cols.toNat :=
  ⟨base_inv, rfl, busy_inv, rfl, by decide, by decide, by decide, by decide, by decide⟩

theorem witness_GridSetEffect :
    base.grid.valid = false ∧ busy.grid.valid = true ∧ (busy.grid.rows.toNat : Int) ≤ 2 ∧
    (busy.grid.cols.toNat : Int) ≤ 2 ∧ 1 < busy.grid.rows.toNat ∧ 1 < busy.grid.cols.toNat ∧
    (255 : Int) < 256 ∧ (0 : Int) ≤ 0 ∧ (255 : Int) ≤ 255 := by decide

theorem witness_GridShapeReads : base.grid.valid = false ∧ busy.grid.valid = true := by decide

theorem witness_RowMajorIndexIsBijective :
    square.inBounds 0 0 = true ∧ square.inBounds 1 1 = true ∧ 3 < square.rows.toNat * square.cols.toNat := by decide

theorem witness_GridShapeFixedUntilCreate :
    (sending busy 0x10 1 3 0).Inv ∧ (sending busy 0x10 1 3 0).grid.valid = true ∧
    ∃ t, step (sending busy 0x10 1 3 0) = .next t :=
  ⟨⟨busy_inv.params, busy_inv.grid, busy_inv.enc, busy_inv.dec⟩, rfl, _, rfl⟩

/-- Two states that differ in a cell beyond a 1 × 1 grid and in a stale entry of each dictionary. -/
theorem witness_StaleContentsNeverObserved :
    let a : State := withUnits ⟨true, 1, 1, [(0, 5)]⟩ (encWith ⟨256, []⟩ (some 1)) (decWith ⟨256, []⟩ (some 2))
    let b : State :=
      withUnits ⟨true, 1, 1, [(0, 5), (1, 9)]⟩ (encWith oneEntry.fresh (some 1)) (decWith oneEntry.fresh (some 2))
    a ≠ b ∧ (sending a 0x21 2 0 0).Inv ∧ (sending b 0x21 2 0 0).Inv ∧
    (sending a 0x21 2 0 0).SameVisible (sending b 0x21 2 0 0) ∧ ∃ t, step (sending a 0x21 2 0 0) = .next t := by
  have he : ∀ (d : Dict) (n : Nat), d.next = 256 → d.entry n = none := by
    intro d n hd
    unfold Dict.entry
    rw [if_neg]
    rintro ⟨h1, h2⟩
    rw [hd] at h2
    exact absurd h2 (Nat.not_lt.mpr h1)
  have hs : Dict.SameVisible ⟨256, []⟩ oneEntry.fresh :=
    ⟨rfl, fun n => by rw [he _ n rfl, he _ n rfl]⟩
  exact ⟨by decide,
    ⟨small_legal, ⟨by decide, by decide, by decide, by decide⟩, ⟨empty_inv, empty_distinct, by decide, by decide⟩,
      empty_inv, by decide, by decide⟩,
    ⟨small_legal, ⟨by decide, by decide, by decide, by decide⟩,
      ⟨oneEntry_inv.fresh small_legal, Dict.PairsDistinct.fresh _, by decide, by decide⟩,
      oneEntry_inv.fresh small_legal, by decide, by decide⟩,
    ⟨rfl, rfl, rfl, ⟨rfl, rfl, rfl, by decide⟩, rfl, hs, rfl, hs⟩, _, rfl⟩

theorem witness_EncStartEffect : (Command.mk 0x20 9 9 9).w0 = 0x00000020#32 := by decide

/-- IDLE; a value just outside; the first symbol; the match of (1, 2); no match with room; no match and none. -/
theorem witness_EncPushEffect :
    (base.Inv ∧ base.enc.phase ≠ .active) ∧ (busy.Inv ∧ busy.enc.phase = .active ∧ (255 : Int) < 256) ∧
    (started.Inv ∧ started.enc.phase = .active ∧ started.enc.wvalid = false) ∧
    (busy.enc.wvalid = true ∧ Table.read busy.enc.dict.entries 256 = some ⟨1, 2⟩ ∧ 256 < busy.enc.dict.next.toNat ∧
      (⟨1, 2⟩ : Entry).pre = busy.enc.wcode ∧ (((⟨1, 2⟩ : Entry).sym.toNat : Nat) : Int) = 2) ∧
    (NoMatch busy.enc 9 ∧ busy.enc.dict.next ≠ busy.cfg.dictCap) ∧
    full.Inv ∧ full.enc.phase = .active ∧ full.enc.wvalid = true ∧ NoMatch full.enc 9 ∧
    full.enc.dict.next = full.cfg.dictCap := by
  refine ⟨⟨base_inv, by decide⟩, ⟨busy_inv, rfl, by decide⟩, ⟨started_inv, rfl, rfl⟩,
    ⟨rfl, by decide, by decide, by decide, by decide⟩, ⟨?_, by decide⟩, full_inv, rfl, rfl, ?_, rfl⟩
  · intro n e h1 h2 he h
    have h3 : n < 257 := h2
    have hn : n = 256 := by omega
    subst hn
    cases he
    exact absurd h.2 (by decide)
  · intro n e h1 h2 he h
    have h3 : n < 258 := h2
    have hn : n = 256 ∨ n = 257 := by omega
    rcases hn with rfl | rfl
    · cases he
      exact absurd h.2 (by decide)
    · cases he
      exact absurd h.2 (by decide)

theorem witness_EncFlushEffect : base.enc.phase ≠ .active ∧ busy.enc.phase = .active ∧ busy.enc.wvalid = true ∧
    started.enc.phase = .active ∧ started.enc.wvalid = false := by decide

theorem witness_EncGridEqualsPushes :
    (base.Inv ∧ base.enc.phase ≠ .active) ∧
    ((withUnits .atReset encFresh decFresh).Inv ∧ (withUnits .atReset encFresh decFresh).enc.phase = .active ∧
      (withUnits .atReset encFresh decFresh).grid.valid = false) ∧
    busy.Inv ∧ busy.enc.phase = .active ∧ busy.grid.valid = true :=
  ⟨⟨base_inv, by decide⟩, ⟨withUnits_inv Grid.Inv.atReset encFresh_inv decFresh_inv, rfl, rfl⟩, busy_inv, rfl, rfl⟩

theorem witness_StringsOfCodes :
    Dict.Inv small twoEntries ∧ (255 : Nat) < 256 ∧ 257 < twoEntries.next.toNat ∧ twoEntries.next.toNat ≤ 258 :=
  ⟨twoEntries_inv, by decide, by decide, by decide⟩

theorem witness_EncoderStringsDistinct :
    full.Inv ∧ 257 < full.enc.dict.next.toNat ∧ full.enc.dict.str 257 = some [2, 1] :=
  ⟨full_inv, by decide, by decide⟩

theorem witness_EncNextCountsEmissions :
    busy.Inv ∧ (∃ t r, exec .encGrid busy = .next t ∧ t.rsps = busy.rsps ++ [r]) ∧
    (∃ t r, exec .encStart busy = .next t ∧ t.rsps = busy.rsps ++ [r]) ∧
    ∃ t r, exec .encFlush busy = .next t ∧ t.rsps = busy.rsps ++ [r] :=
  ⟨busy_inv, ⟨_, _, rfl, rfl⟩, ⟨_, _, rfl, rfl⟩, _, _, rfl, rfl⟩

theorem witness_DecStartEffect : (Command.mk 0x30 9 9 9).w0 = 0x00000030#32 := by decide

/-- IDLE; the first code at both sides of 256; later codes at both sides of `D.NEXT`, with room and without. -/
theorem witness_DecPushEffect :
    (base.Inv ∧ base.dec.phase ≠ .active) ∧
    (started.Inv ∧ started.dec.phase = .active ∧ started.dec.seen = false) ∧
    (busy.Inv ∧ busy.dec.phase = .active ∧ busy.dec.seen = true ∧ busy.dec.dict.next.toNat < 258 ∧
      256 < busy.dec.dict.next.toNat ∧ 257 = busy.dec.dict.next.toNat ∧ busy.dec.dict.next ≠ busy.cfg.dictCap) ∧
    full.Inv ∧ full.dec.phase = .active ∧ full.dec.seen = true ∧ 258 ≤ full.dec.dict.next.toNat ∧
    full.dec.dict.next = full.cfg.dictCap :=
  ⟨⟨base_inv, by decide⟩, ⟨started_inv, rfl, rfl⟩,
    ⟨busy_inv, rfl, rfl, by decide, by decide, by decide, by decide⟩, full_inv, rfl, rfl, by decide, rfl⟩

theorem witness_DecFinishEffect : base.dec.phase ≠ .active ∧ started.dec.phase = .active ∧
    started.dec.seen = false ∧ busy.dec.phase = .active ∧ busy.dec.seen = true := by decide

theorem witness_OutLengthBounded :
    busy.Inv ∧ (∃ t r, exec (.decPush 257) busy = .next t ∧ t.rsps = busy.rsps ++ [r] ∧ r.out.length = 2) ∧
    (∃ t r, exec .encGrid busy = .next t ∧ t.rsps = busy.rsps ++ [r]) ∧
    ∃ t r, exec .encFlush busy = .next t ∧ t.rsps = busy.rsps ++ [r] :=
  ⟨busy_inv, ⟨_, _, rfl, rfl, by decide⟩, ⟨_, _, rfl, rfl⟩, _, _, rfl, rfl⟩

theorem witness_GridAndCodecsSeparate :
    (∃ t, exec (.gridSet 1 1 7) busy = .next t) ∧ isGridCommand (.gridSet 1 1 7) = true ∧
    (∃ t, exec .encGrid busy = .next t) ∧ isEncCommand .encGrid = true ∧
    (∃ t, exec (.decPush 256) busy = .next t) ∧ isDecCommand (.decPush 256) = true :=
  ⟨⟨_, rfl⟩, rfl, ⟨_, rfl⟩, rfl, ⟨_, rfl⟩, rfl⟩

theorem witness_CodecCallsInterleave :
    isEncCommand (.encPush 2) = true ∧ isDecCommand (.decPush 256) = true ∧
    ∃ t u r r', exec (.encPush 2) busy = .next t ∧ exec (.decPush 256) t = .next u ∧
      t.rsps = busy.rsps ++ [r] ∧ u.rsps = t.rsps ++ [r'] := ⟨rfl, rfl, _, _, _, _, rfl, rfl, rfl, rfl⟩

theorem witness_FlagsWrittenByNamedCommands :
    (∃ t, exec (.gridCreate 1 1) base = .next t ∧ t.grid.valid ≠ base.grid.valid) ∧
    (∃ t, exec .encStart base = .next t ∧ t.enc.phase ≠ base.enc.phase) ∧
    ∃ t, exec (.decPush 5) started = .next t ∧ t.dec.seen ≠ started.dec.seen :=
  ⟨⟨_, rfl, by decide⟩, ⟨_, rfl, by decide⟩, _, rfl, by decide⟩

theorem witness_FaultedUntilStartOrReset :
    failed.enc.phase = .faulted ∧ failed.dec.phase = .faulted ∧
    (∃ t, step (sending failed 0x20 0 0 0) = .next t ∧ t.enc.phase ≠ .faulted) ∧
    (∃ t, step (sending failed 0x30 0 0 0) = .next t ∧ t.dec.phase ≠ .faulted) ∧
    ∃ t, step { failed with inputs := [.reset] } = .next t ∧ t.enc.phase ≠ .faulted :=
  ⟨rfl, rfl, ⟨_, rfl, by decide⟩, ⟨_, rfl, by decide⟩, _, rfl, by decide⟩

theorem witness_ErrWrittenOnlyOnEntry :
    (∃ t, step (sending busy 0x21 256 0 0) = .next t ∧ (t.enc.err, t.enc.errInfo) ≠ (busy.enc.err, busy.enc.errInfo)) ∧
    (∃ t, step (sending busy 0x31 999 0 0) = .next t ∧ (t.dec.err, t.dec.errInfo) ≠ (busy.dec.err, busy.dec.errInfo)) ∧
    ∃ t, step (sending failed 0x20 0 0 0) = .next t ∧
      (t.enc.err, t.enc.errInfo) ≠ (failed.enc.err, failed.enc.errInfo) :=
  ⟨⟨_, rfl, by decide⟩, ⟨_, rfl, by decide⟩, _, rfl, by decide⟩

theorem witness_ReadsChangeNothing :
    (∃ t r, exec (.gridGet 1 1) busy = .next t ∧ t.rsps = busy.rsps ++ [r]) ∧ isQuery (.gridGet 1 1) = true ∧
    (∃ t r, exec (.gridSet 1 1 7) busy = .next t ∧ t.rsps = busy.rsps ++ [r]) ∧
    ∃ t r, exec (.gridClear 7) busy = .next t ∧ t.rsps = busy.rsps ++ [r] :=
  ⟨⟨_, _, rfl, rfl⟩, rfl, ⟨_, _, rfl, rfl⟩, _, _, rfl, rfl⟩

/-- V-E31's list, whose insertions fit with one to spare, and one that needs exactly the room there is. -/
theorem witness_CompressMatchesReference :
    busy.Inv ∧ insertions [5, 5, 5] ≤ busy.cfg.dictCap.toNat - 256 ∧
    insertions [1, 2, 1] = busy.cfg.dictCap.toNat - 256 := ⟨busy_inv, by decide, by decide⟩

theorem witness_CompressFailsAtCapacity :
    busy.Inv ∧ busy.cfg.dictCap.toNat - 256 < insertions [1, 2, 3, 4] := ⟨busy_inv, by decide⟩

theorem witness_CompressRejectsNonSymbol :
    busy.Inv ∧ insertions [5, 5, 5] ≤ busy.cfg.dictCap.toNat - 256 ∧ ((-1 : Int) < 0 ∨ (255 : Int) < -1) ∧
    (Instr.encPush (-1)).wf = true ∧ ((256 : Int) < 0 ∨ (255 : Int) < 256) ∧ (Instr.encPush 256).wf = true :=
  ⟨busy_inv, by decide, by decide, by decide, by decide, by decide⟩

theorem witness_CompressProperties :
    ([5, 5, 5] : List Byte) ≠ [] ∧ (compress [5, 5, 5])[1]? = some 256 := ⟨by decide, rfl⟩

theorem witness_EncoderForgetsThePast :
    busy.Inv ∧ failed.Inv ∧ failed.cfg.dictCap = busy.cfg.dictCap ∧
    ∃ t t' rs rs', RunsTo busy (Pseudo.compress [5]).expand t rs ∧ RunsTo failed (Pseudo.compress [5]).expand t' rs' :=
  ⟨busy_inv, failed_inv, rfl,
    { busy with enc := ⟨.idle, false, 0, ⟨256, oneEntry.entries⟩, .ok, 0⟩,
                rsps := [⟨.ok, 0, 0, []⟩, ⟨.ok, 0, 0, []⟩, ⟨.ok, 0, 0, [5]⟩] },
    { failed with enc := ⟨.idle, false, 0, ⟨256, twoEntries.entries⟩, .ok, 0⟩,
                  rsps := [⟨.ok, 0, 0, []⟩, ⟨.ok, 0, 0, []⟩, ⟨.ok, 0, 0, [5]⟩] },
    _, _, ⟨rfl, rfl, rfl, rfl⟩, ⟨rfl, rfl, rfl, rfl⟩⟩

/-- The empty list, a list that decodes, and one that does not (L1-2, V-D5, V-D8). -/
theorem witness_DecompressMatchesReference :
    busy.Inv ∧ (∀ c ∈ [65, 256], c < 2 ^ 32) ∧ [65, 256].length - 1 ≤ busy.cfg.dictCap.toNat - 256 ∧
    decompress [] = .error .emptyInput ∧ decompress [65, 256] = .ok [65, 65, 65] ∧
    decompress [65, 257] = .error (.malformedCode 257) := ⟨busy_inv, by decide, by decide, rfl, rfl, rfl⟩

theorem witness_RoundTrip :
    busy.Inv ∧ ([5, 5, 5, 5] : List Byte) ≠ [] ∧ insertions [5, 5, 5, 5] ≤ busy.cfg.dictCap.toNat - 256 :=
  ⟨busy_inv, by decide, by decide⟩

end Sys2Proof.Tests
end

section
/-! SUPPORT. What each command can do: for every command, the next states it can answer with, and that a command of one
unit leaves the two others. -/

namespace Sys2Proof.Machine

variable {i : Instr} {s t : State}

/-! ### Outcomes that answer -/

theorem eq_respond_of_answer {r : Response} (h : answer s r = .next t) : t = s.respond r := by
  cases h
  rfl

/-- The command answers with an error and changes no unit (60_exceptions.md R174). -/
def RaisedOnly (s t : State) : Prop := ∃ e info, t = s.respond (.error e info)

theorem raisedOnly_of_raise {e : Status} {info : Word} (h : raise e info s = .next t) : RaisedOnly s t :=
  ⟨e, info, eq_respond_of_answer h⟩

theorem RaisedOnly.eq_respond (h : RaisedOnly s t) : ∃ r, t = s.respond r := by
  obtain ⟨e, info, ht⟩ := h
  exact ⟨_, ht⟩

theorem RaisedOnly.grid_eq (h : RaisedOnly s t) : t.grid = s.grid := by
  obtain ⟨e, info, rfl⟩ := h
  rfl

theorem RaisedOnly.enc_eq (h : RaisedOnly s t) : t.enc = s.enc := by
  obtain ⟨e, info, rfl⟩ := h
  rfl

theorem RaisedOnly.dec_eq (h : RaisedOnly s t) : t.dec = s.dec := by
  obtain ⟨e, info, rfl⟩ := h
  rfl

/-! ### The control commands -/

theorem execReadCsr_eq_respond {n : Nat} (h : execReadCsr n s = .next t) : ∃ r, t = s.respond r := by
  unfold execReadCsr at h
  split at h
  · exact ⟨_, eq_respond_of_answer h⟩
  · exact ⟨_, eq_respond_of_answer h⟩

/-! ### The grid commands -/

/-- GRID_CREATE raises an error, or its operands are a legal shape and it makes that grid (40_grid.md R103). -/
theorem execGridCreate_cases {rows cols : Int} (h : execGridCreate rows cols s = .next t) :
    RaisedOnly s t ∨
    (0 < rows ∧ 0 < cols ∧ rows * cols ≤ s.cfg.gridCap.toNat ∧
      t = ({ s with grid := s.grid.create rows cols }).respond .done) := by
  unfold execGridCreate at h
  split at h
  · exact .inl (raisedOnly_of_raise h)
  · rename_i hpos
    split at h
    · exact .inl (raisedOnly_of_raise h)
    · rename_i hcap
      exact .inr ⟨by omega, by omega, by omega, eq_respond_of_answer h⟩

/-- GRID_CLEAR raises an error, or fills the cells of an existing grid (40_grid.md R104). -/
theorem execGridClear_cases {value : Int} (h : execGridClear value s = .next t) :
    RaisedOnly s t ∨
    (s.grid.valid = true ∧ isSym value = true ∧
      t = ({ s with grid := s.grid.fillCells (symOf value) }).respond .done) := by
  unfold execGridClear at h
  split at h
  · exact .inl (raisedOnly_of_raise h)
  · rename_i hvalid
    split at h
    · exact .inl (raisedOnly_of_raise h)
    · rename_i hsym
      exact .inr ⟨by simpa using hvalid, by simpa using hsym, eq_respond_of_answer h⟩

/-- GRID_GET gives a response and changes no unit (40_grid.md R105). -/
theorem execGridGet_eq_respond {row col : Int} (h : execGridGet row col s = .next t) : ∃ r, t = s.respond r := by
  unfold execGridGet at h
  split at h
  · exact ⟨_, eq_respond_of_answer h⟩
  · split at h
    · exact ⟨_, eq_respond_of_answer h⟩
    · split at h
      · cases h
      · exact ⟨_, eq_respond_of_answer h⟩

/-- GRID_SET raises an error, or writes one cell within the grid (40_grid.md R106). -/
theorem execGridSet_cases {row col value : Int} (h : execGridSet row col value s = .next t) :
    RaisedOnly s t ∨
    (s.grid.valid = true ∧ s.grid.inBounds row col = true ∧ isSym value = true ∧
      t = ({ s with grid := s.grid.setCell (s.grid.idx row col) (symOf value) }).respond .done) := by
  unfold execGridSet at h
  split at h
  · exact .inl (raisedOnly_of_raise h)
  · rename_i hvalid
    split at h
    · exact .inl (raisedOnly_of_raise h)
    · rename_i hin
      split at h
      · exact .inl (raisedOnly_of_raise h)
      · rename_i hsym
        exact .inr ⟨by simpa using hvalid, by simpa using hin, by simpa using hsym, eq_respond_of_answer h⟩

theorem execGridRows_eq_respond (h : execGridRows s = .next t) : ∃ r, t = s.respond r := by
  unfold execGridRows at h
  split at h
  · exact ⟨_, eq_respond_of_answer h⟩
  · exact ⟨_, eq_respond_of_answer h⟩

theorem execGridCols_eq_respond (h : execGridCols s = .next t) : ∃ r, t = s.respond r := by
  unfold execGridCols at h
  split at h
  · exact ⟨_, eq_respond_of_answer h⟩
  · exact ⟨_, eq_respond_of_answer h⟩

/-! ### The encoder commands -/

/-- The encoder's call fails: the unit enters FAULTED with the error of the response (60_exceptions.md R173). -/
def EncCallFails (s t : State) : Prop :=
  s.enc.phase = .active ∧ ∃ e info, t = ({ s with enc := s.enc.fail e info }).respond (.error e info)

/-- ENC_PUSH raises a sequence error, fails the call, or pushes the symbol (41_encoder.md R125). -/
theorem execEncPush_cases {c : Int} (h : execEncPush c s = .next t) :
    (s.enc.phase ≠ .active ∧ RaisedOnly s t) ∨
    EncCallFails s t ∨
    (s.enc.phase = .active ∧ isSym c = true ∧ ∃ u out, s.enc.push s.cfg.dictCap (symOf c) = some (u, out) ∧
      t = ({ s with enc := u }).respond (.emitted out)) := by
  unfold execEncPush at h
  split at h
  · rename_i hidle
    exact .inl ⟨hidle, raisedOnly_of_raise h⟩
  · rename_i hact
    have hact := not_not.mp hact
    split at h
    · exact .inr (.inl ⟨hact, _, _, eq_respond_of_answer h⟩)
    · rename_i hsym
      split at h
      · exact .inr (.inl ⟨hact, _, _, eq_respond_of_answer h⟩)
      · rename_i u out hpush
        exact .inr (.inr ⟨hact, by simpa using hsym, u, out, hpush, eq_respond_of_answer h⟩)

/-- ENC_FLUSH raises a sequence error, or ends the call (41_encoder.md R126). -/
theorem execEncFlush_cases (h : execEncFlush s = .next t) :
    (s.enc.phase ≠ .active ∧ RaisedOnly s t) ∨
    (s.enc.phase = .active ∧ t = ({ s with enc := s.enc.finish }).respond (.emitted s.enc.pending)) := by
  unfold execEncFlush at h
  split at h
  · rename_i hidle
    exact .inl ⟨hidle, raisedOnly_of_raise h⟩
  · rename_i hact
    exact .inr ⟨not_not.mp hact, eq_respond_of_answer h⟩

/-- ENC_GRID raises a sequence error, or pushes the cells of the grid in index order (41_encoder.md R127). -/
theorem execEncGrid_cases (h : execEncGrid s = .next t) :
    RaisedOnly s t ∨
    (s.enc.phase = .active ∧ s.grid.valid = true ∧ ∃ cs, s.grid.symbols = some cs ∧
      t = ({ s with enc := (s.enc.pushAll s.cfg.dictCap cs).enc }).respond
        (s.enc.pushAll s.cfg.dictCap cs).response) := by
  unfold execEncGrid at h
  split at h
  · exact .inl (raisedOnly_of_raise h)
  · rename_i hact
    split at h
    · exact .inl (raisedOnly_of_raise h)
    · rename_i hvalid
      split at h
      · cases h
      · rename_i cs hcs
        exact .inr ⟨not_not.mp hact, by simpa using hvalid, cs, hcs, eq_respond_of_answer h⟩

/-! ### The decoder commands -/

/-- The decoder's call fails: the unit enters FAULTED with the error of the response (60_exceptions.md R173). -/
def DecCallFails (s t : State) : Prop :=
  s.dec.phase = .active ∧ ∃ e info, t = ({ s with dec := s.dec.fail e info }).respond (.error e info)

/-- The first code of a call fails it, or is a seed that becomes the working code (42_decoder.md R145, step 3). -/
theorem decPushFirst_cases {k : Nat} (hact : s.dec.phase = .active) (h : decPushFirst k s = .next t) :
    DecCallFails s t ∨
    (classifyFirst k = .known ∧
      t = ({ s with dec := { s.dec with seen := true, wcode := zext32 k } }).respond (.emitted [zext32 k])) := by
  unfold decPushFirst at h
  split at h
  · rename_i hk
    exact .inr ⟨hk, eq_respond_of_answer h⟩
  · exact .inl ⟨hact, _, _, eq_respond_of_answer h⟩

/-- A later code fails the call, or is consumed with its entry (42_decoder.md R145, step 4). -/
theorem decPushLater_cases {k : Nat} (hact : s.dec.phase = .active) (h : decPushLater k s = .next t) :
    DecCallFails s t ∨
    (classify s.dec.dict.next k ≠ .malformed ∧ s.dec.dict.next ≠ s.cfg.dictCap ∧
      ∃ v rest, s.dec.entryOf (classify s.dec.dict.next k) k = some (v :: rest) ∧
        t = ({ s with dec := s.dec.accept k v }).respond (.emitted (symbolWords (v :: rest)))) := by
  unfold decPushLater at h
  simp only at h
  split at h
  · exact .inl ⟨hact, _, _, eq_respond_of_answer h⟩
  · rename_i hkind
    split at h
    · exact .inl ⟨hact, _, _, eq_respond_of_answer h⟩
    · rename_i hroom
      split at h
      · rename_i v rest hentry
        exact .inr ⟨hkind, hroom, v, rest, hentry, eq_respond_of_answer h⟩
      · cases h

/-- DEC_PUSH raises a sequence error, fails the call, or consumes a first or a later code (42_decoder.md R145). -/
theorem execDecPush_cases {k : Nat} (h : execDecPush k s = .next t) :
    (s.dec.phase ≠ .active ∧ RaisedOnly s t) ∨
    DecCallFails s t ∨
    (s.dec.phase = .active ∧ s.dec.seen = false ∧ classifyFirst k = .known ∧
      t = ({ s with dec := { s.dec with seen := true, wcode := zext32 k } }).respond (.emitted [zext32 k])) ∨
    (s.dec.phase = .active ∧ s.dec.seen = true ∧ classify s.dec.dict.next k ≠ .malformed ∧
      s.dec.dict.next ≠ s.cfg.dictCap ∧
      ∃ v rest, s.dec.entryOf (classify s.dec.dict.next k) k = some (v :: rest) ∧
        t = ({ s with dec := s.dec.accept k v }).respond (.emitted (symbolWords (v :: rest)))) := by
  unfold execDecPush at h
  split at h
  · rename_i hidle
    exact .inl ⟨hidle, raisedOnly_of_raise h⟩
  · rename_i hact
    have hact := not_not.mp hact
    split at h
    · rename_i hseen
      rcases decPushFirst_cases hact h with hf | ⟨hk, ht⟩
      · exact .inr (.inl hf)
      · exact .inr (.inr (.inl ⟨hact, hseen, hk, ht⟩))
    · rename_i hseen
      rcases decPushLater_cases hact h with hf | hok
      · exact .inr (.inl hf)
      · exact .inr (.inr (.inr ⟨hact, by simpa using hseen, hok⟩))

/-- DEC_FINISH raises a sequence error, fails the call, or ends it (42_decoder.md R146). -/
theorem execDecFinish_cases (h : execDecFinish s = .next t) :
    (s.dec.phase ≠ .active ∧ RaisedOnly s t) ∨
    DecCallFails s t ∨
    (s.dec.phase = .active ∧ s.dec.seen = true ∧ t = ({ s with dec := s.dec.finish }).respond .done) := by
  unfold execDecFinish at h
  split at h
  · rename_i hidle
    exact .inl ⟨hidle, raisedOnly_of_raise h⟩
  · rename_i hact
    have hact := not_not.mp hact
    split at h
    · exact .inr (.inl ⟨hact, _, _, eq_respond_of_answer h⟩)
    · rename_i hseen
      exact .inr (.inr ⟨hact, by simpa using hseen, eq_respond_of_answer h⟩)

/-! ### A command touches its own unit only -/

theorem exec_gridCommand_eq (hi : isGridCommand i = true) (h : exec i s = .next t) :
    ∃ g r, t = ({ s with grid := g }).respond r := by
  have keep : (∃ r, t = s.respond r) → ∃ g r, t = ({ s with grid := g }).respond r :=
    fun ⟨r, ht⟩ => ⟨s.grid, r, ht⟩
  cases i with
  | gridCreate rows cols =>
    rcases execGridCreate_cases h with hr | ⟨-, -, -, ht⟩
    · exact keep hr.eq_respond
    · exact ⟨_, _, ht⟩
  | gridClear value =>
    rcases execGridClear_cases h with hr | ⟨-, -, ht⟩
    · exact keep hr.eq_respond
    · exact ⟨_, _, ht⟩
  | gridGet row col => exact keep (execGridGet_eq_respond h)
  | gridSet row col value =>
    rcases execGridSet_cases h with hr | ⟨-, -, -, ht⟩
    · exact keep hr.eq_respond
    · exact ⟨_, _, ht⟩
  | gridRows => exact keep (execGridRows_eq_respond h)
  | gridCols => exact keep (execGridCols_eq_respond h)
  | nop | readCsr | encStart | encPush | encFlush | encGrid | decStart | decPush | decFinish => cases hi

theorem exec_encCommand_eq (hi : isEncCommand i = true) (h : exec i s = .next t) :
    ∃ u r, t = ({ s with enc := u }).respond r := by
  have keep : RaisedOnly s t → ∃ u r, t = ({ s with enc := u }).respond r := fun ⟨_, _, ht⟩ => ⟨s.enc, _, ht⟩
  cases i with
  | encStart => exact ⟨_, _, eq_respond_of_answer h⟩
  | encPush c =>
    rcases execEncPush_cases h with ⟨-, hr⟩ | ⟨-, e, info, ht⟩ | ⟨-, -, u, out, -, ht⟩
    · exact keep hr
    · exact ⟨_, _, ht⟩
    · exact ⟨_, _, ht⟩
  | encFlush =>
    rcases execEncFlush_cases h with ⟨-, hr⟩ | ⟨-, ht⟩
    · exact keep hr
    · exact ⟨_, _, ht⟩
  | encGrid =>
    rcases execEncGrid_cases h with hr | ⟨-, -, cs, -, ht⟩
    · exact keep hr
    · exact ⟨_, _, ht⟩
  | nop | readCsr | gridCreate | gridClear | gridGet | gridSet | gridRows | gridCols | decStart | decPush
  | decFinish => cases hi

theorem exec_decCommand_eq (hi : isDecCommand i = true) (h : exec i s = .next t) :
    ∃ u r, t = ({ s with dec := u }).respond r := by
  have keep : RaisedOnly s t → ∃ u r, t = ({ s with dec := u }).respond r := fun ⟨_, _, ht⟩ => ⟨s.dec, _, ht⟩
  cases i with
  | decStart => exact ⟨_, _, eq_respond_of_answer h⟩
  | decPush k =>
    rcases execDecPush_cases h with ⟨-, hr⟩ | ⟨-, e, info, ht⟩ | ⟨-, -, -, ht⟩ | ⟨-, -, -, -, v, rest, -, ht⟩
    · exact keep hr
    · exact ⟨_, _, ht⟩
    · exact ⟨_, _, ht⟩
    · exact ⟨_, _, ht⟩
  | decFinish =>
    rcases execDecFinish_cases h with ⟨-, hr⟩ | ⟨-, e, info, ht⟩ | ⟨-, -, ht⟩
    · exact keep hr
    · exact ⟨_, _, ht⟩
    · exact ⟨_, _, ht⟩
  | nop | readCsr | gridCreate | gridClear | gridGet | gridSet | gridRows | gridCols | encStart | encPush | encFlush
  | encGrid => cases hi

theorem exec_controlCommand_eq (hg : isGridCommand i = false) (he : isEncCommand i = false)
    (hd : isDecCommand i = false) (h : exec i s = .next t) : ∃ r, t = s.respond r := by
  cases i with
  | nop => exact ⟨_, eq_respond_of_answer h⟩
  | readCsr n => exact execReadCsr_eq_respond h
  | gridCreate | gridClear | gridGet | gridSet | gridRows | gridCols => cases hg
  | encStart | encPush | encFlush | encGrid => cases he
  | decStart | decPush | decFinish => cases hd

/-- Every command writes one unit at most, the one it is a command of: READ_CSR and NOP are commands of none. -/
theorem exec_own_unit (h : exec i s = .next t) :
    (isGridCommand i = true ∧ t.enc = s.enc ∧ t.dec = s.dec) ∨
    (isEncCommand i = true ∧ t.grid = s.grid ∧ t.dec = s.dec) ∨
    (isDecCommand i = true ∧ t.grid = s.grid ∧ t.enc = s.enc) ∨
    (t.grid = s.grid ∧ t.enc = s.enc ∧ t.dec = s.dec) := by
  cases hg : isGridCommand i with
  | true =>
    obtain ⟨g, r, rfl⟩ := exec_gridCommand_eq hg h
    exact .inl ⟨rfl, rfl, rfl⟩
  | false =>
    cases he : isEncCommand i with
    | true =>
      obtain ⟨u, r, rfl⟩ := exec_encCommand_eq he h
      exact .inr (.inl ⟨rfl, rfl, rfl⟩)
    | false =>
      cases hd : isDecCommand i with
      | true =>
        obtain ⟨u, r, rfl⟩ := exec_decCommand_eq hd h
        exact .inr (.inr (.inl ⟨rfl, rfl, rfl⟩))
      | false =>
        obtain ⟨r, rfl⟩ := exec_controlCommand_eq hg he hd h
        exact .inr (.inr (.inr ⟨rfl, rfl, rfl⟩))

theorem exec_grid_of_not_gridCommand (hi : isGridCommand i = false) (h : exec i s = .next t) : t.grid = s.grid := by
  rcases exec_own_unit h with ⟨hg, -⟩ | ⟨-, hk, -⟩ | ⟨-, hk, -⟩ | ⟨hk, -⟩
  · rw [hi] at hg
    cases hg
  · exact hk
  · exact hk
  · exact hk

theorem exec_enc_of_not_encCommand (hi : isEncCommand i = false) (h : exec i s = .next t) : t.enc = s.enc := by
  rcases exec_own_unit h with ⟨-, hk, -⟩ | ⟨he, -⟩ | ⟨-, -, hk⟩ | ⟨-, hk, -⟩
  · exact hk
  · rw [hi] at he
    cases he
  · exact hk
  · exact hk

theorem exec_dec_of_not_decCommand (hi : isDecCommand i = false) (h : exec i s = .next t) : t.dec = s.dec := by
  rcases exec_own_unit h with ⟨-, -, hk⟩ | ⟨-, -, hk⟩ | ⟨hd, -⟩ | ⟨-, -, hk⟩
  · exact hk
  · exact hk
  · rw [hi] at hd
    cases hd
  · exact hk

end Sys2Proof.Machine
end

section
/-! PROOFS. The grid's shape over a step (10_state.md R22). -/

namespace Sys2Proof.Machine

/-- The grids agree in VALID, ROWS and COLS. -/
def Grid.SameShape (g g' : Grid) : Prop := g'.valid = g.valid ∧ g'.rows = g.rows ∧ g'.cols = g.cols

theorem Grid.SameShape.of_eq {g g' : Grid} (h : g' = g) : g.SameShape g' := by
  subst h
  exact ⟨rfl, rfl, rfl⟩

/-- An instruction keeps the shape of the grid, or is a GRID_CREATE that makes one of a legal shape. -/
theorem exec_grid_shape {i : Instr} {s t : State} (h : exec i s = .next t) :
    s.grid.SameShape t.grid ∨
    ∃ rows cols, i = .gridCreate rows cols ∧ 0 < rows ∧ 0 < cols ∧ rows * cols ≤ s.cfg.gridCap.toNat ∧
      t = ({ s with grid := s.grid.create rows cols }).respond .done := by
  cases i with
  | gridCreate rows cols =>
    rcases execGridCreate_cases h with hr | hok
    · exact .inl (.of_eq hr.grid_eq)
    · exact .inr ⟨rows, cols, rfl, hok⟩
  | gridClear value =>
    rcases execGridClear_cases h with hr | ⟨-, -, rfl⟩
    · exact .inl (.of_eq hr.grid_eq)
    · exact .inl ⟨rfl, rfl, rfl⟩
  | gridSet row col value =>
    rcases execGridSet_cases h with hr | ⟨-, -, -, rfl⟩
    · exact .inl (.of_eq hr.grid_eq)
    · exact .inl ⟨rfl, rfl, rfl⟩
  | gridGet row col =>
    obtain ⟨r, rfl⟩ := execGridGet_eq_respond h
    exact .inl (.of_eq rfl)
  | gridRows =>
    obtain ⟨r, rfl⟩ := execGridRows_eq_respond h
    exact .inl (.of_eq rfl)
  | gridCols =>
    obtain ⟨r, rfl⟩ := execGridCols_eq_respond h
    exact .inl (.of_eq rfl)
  | nop | readCsr | encStart | encPush | encFlush | encGrid | decStart | decPush | decFinish =>
    exact .inl (.of_eq (exec_grid_of_not_gridCommand rfl h))

/-- Settles O27: by the cases of a step, and for an instruction by what it can do to the shape. -/
theorem gridShapeFixedUntilCreate : Obligations.GridShapeFixedUntilCreate := by
  unfold Obligations.GridShapeFixedUntilCreate
  intro s hinv
  refine ⟨hinv.grid.size_le, fun t ht => ?_⟩
  rcases step_cases s with ⟨-, hstep⟩ | ⟨rest, hin, hstep⟩ | ⟨c, rest, why, -, -, hstep⟩ |
    ⟨c, rest, i, hin, hdec, hstep⟩
  · rw [hstep] at ht
    cases ht
    exact .inl ⟨rfl, rfl, rfl⟩
  · rw [hstep] at ht
    cases ht
    exact .inr (.inl ⟨rest, hin, rfl, rfl, rfl⟩)
  · rw [hstep] at ht
    exact .inl (Grid.SameShape.of_eq (raisedOnly_of_raise ht).grid_eq)
  · rw [hstep] at ht
    rcases exec_grid_shape ht with hsame | ⟨rows, cols, rfl, hr, hc, hcap, rfl⟩
    · exact .inl hsame
    · obtain ⟨hrows, hcols, -⟩ := Grid.create_shape (g := s.grid) hr hc hcap
      exact .inr (.inr ⟨c, rest, rows, cols, .done, hin, hdec, rfl, rfl, hr, hc, hcap, rfl, hrows, hcols⟩)

end Sys2Proof.Machine
end

section
/-! PROOFS. ERR and ERRINFO of both codec units over a step (10_state.md R30, R31). -/

namespace Sys2Proof.Machine

variable {i : Instr} {s t : State}

/-! One predicate serves both units: it speaks of a PHASE and of the pair of ERR and ERRINFO. -/

/-- The error registers keep their values, or the unit moves from ACTIVE to FAULTED and they hold the status and INFO of
the response `t` gives after those of `s`. -/
def ErrKeptOrEntered (s t : State) (phase phase' : Phase) (err err' : Status × Word) : Prop :=
  err' = err ∨
  ∃ r, phase = .active ∧ phase' = .faulted ∧ t.rsps = s.rsps ++ [r] ∧ err'.1 = r.status ∧ err'.2 = r.info

/-- `ErrKeptOrEntered` of the encoder. -/
def EncErrKeptOrEntered (s t : State) : Prop :=
  ErrKeptOrEntered s t s.enc.phase t.enc.phase (s.enc.err, s.enc.errInfo) (t.enc.err, t.enc.errInfo)

/-- `ErrKeptOrEntered` of the decoder. -/
def DecErrKeptOrEntered (s t : State) : Prop :=
  ErrKeptOrEntered s t s.dec.phase t.dec.phase (s.dec.err, s.dec.errInfo) (t.dec.err, t.dec.errInfo)

theorem EncErrKeptOrEntered.of_eq (h : t.enc = s.enc) : EncErrKeptOrEntered s t := .inl (by rw [h])

theorem DecErrKeptOrEntered.of_eq (h : t.dec = s.dec) : DecErrKeptOrEntered s t := .inl (by rw [h])

theorem EncCallFails.errEntered (h : EncCallFails s t) : EncErrKeptOrEntered s t := by
  obtain ⟨hact, e, info, rfl⟩ := h
  exact .inr ⟨_, hact, rfl, rfl, rfl, rfl⟩

theorem DecCallFails.errEntered (h : DecCallFails s t) : DecErrKeptOrEntered s t := by
  obtain ⟨hact, e, info, rfl⟩ := h
  exact .inr ⟨_, hact, rfl, rfl, rfl, rfl⟩

/-- A run of pushes of an ACTIVE encoder writes ERR and ERRINFO only where it stops, with what ENC_GRID then responds
(41_encoder.md R127). -/
theorem pushAll_errKeptOrEntered (hact : s.enc.phase = .active) (cap : Word) (cs : List Byte) :
    EncErrKeptOrEntered s
      (({ s with enc := (s.enc.pushAll cap cs).enc }).respond (s.enc.pushAll cap cs).response) := by
  rcases Encoder.pushAll_ends cap s.enc cs with ⟨-, -, herr, hinfo⟩ | ⟨hstop, hph, herr, hinfo⟩
  · exact .inl (Prod.ext herr hinfo)
  · have hresp : (s.enc.pushAll cap cs).response = ⟨.capacityExceeded, 0x1#32, 0x0#32, (s.enc.pushAll cap cs).out⟩ :=
      if_neg (by rw [hstop]; decide)
    rw [hresp]
    exact .inr ⟨_, hact, hph, rfl, herr, hinfo⟩

/-- Every instruction but ENC_START keeps the encoder's ERR and ERRINFO or enters FAULTED. -/
theorem exec_encErr (h : exec i s = .next t) : EncErrKeptOrEntered s t ∨ (i = .encStart ∧ t.enc = s.enc.start) := by
  cases i with
  | encStart => exact .inr ⟨rfl, by rw [eq_respond_of_answer h]; rfl⟩
  | encPush c =>
    rcases execEncPush_cases h with ⟨-, hr⟩ | hf | ⟨-, -, u, out, hpush, rfl⟩
    · exact .inl (.of_eq hr.enc_eq)
    · exact .inl hf.errEntered
    · obtain ⟨-, herr, hinfo, -⟩ := Encoder.push_frame hpush
      exact .inl (.inl (Prod.ext herr hinfo))
  | encFlush =>
    rcases execEncFlush_cases h with ⟨-, hr⟩ | ⟨-, rfl⟩
    · exact .inl (.of_eq hr.enc_eq)
    · exact .inl (.inl rfl)
  | encGrid =>
    rcases execEncGrid_cases h with hr | ⟨hact, -, cs, -, rfl⟩
    · exact .inl (.of_eq hr.enc_eq)
    · exact .inl (pushAll_errKeptOrEntered hact _ cs)
  | nop | readCsr | gridCreate | gridClear | gridGet | gridSet | gridRows | gridCols | decStart | decPush
  | decFinish => exact .inl (.of_eq (exec_enc_of_not_encCommand rfl h))

/-- Every instruction but DEC_START keeps the decoder's ERR and ERRINFO or enters FAULTED. -/
theorem exec_decErr (h : exec i s = .next t) : DecErrKeptOrEntered s t ∨ (i = .decStart ∧ t.dec = s.dec.start) := by
  cases i with
  | decStart => exact .inr ⟨rfl, by rw [eq_respond_of_answer h]; rfl⟩
  | decPush k =>
    rcases execDecPush_cases h with ⟨-, hr⟩ | hf | ⟨-, -, -, rfl⟩ | ⟨-, -, -, -, v, rest, -, rfl⟩
    · exact .inl (.of_eq hr.dec_eq)
    · exact .inl hf.errEntered
    · exact .inl (.inl rfl)
    · exact .inl (.inl rfl)
  | decFinish =>
    rcases execDecFinish_cases h with ⟨-, hr⟩ | hf | ⟨-, -, rfl⟩
    · exact .inl (.of_eq hr.dec_eq)
    · exact .inl hf.errEntered
    · exact .inl (.inl rfl)
  | nop | readCsr | gridCreate | gridClear | gridGet | gridSet | gridRows | gridCols | encStart | encPush | encFlush
  | encGrid => exact .inl (.of_eq (exec_dec_of_not_decCommand rfl h))

/-- Settles O44: by the cases of a step, and for an instruction by what it can do to each unit's ERR and ERRINFO. -/
theorem errWrittenOnlyOnEntry : Obligations.ErrWrittenOnlyOnEntry := by
  unfold Obligations.ErrWrittenOnlyOnEntry
  intro s t ht
  rcases step_cases s with ⟨-, hstep⟩ | ⟨rest, hin, hstep⟩ | ⟨c, rest, why, -, -, hstep⟩ |
    ⟨c, rest, i, hin, hdec, hstep⟩
  · rw [hstep] at ht
    cases ht
    exact ⟨fun hne => absurd rfl hne, fun hne => absurd rfl hne⟩
  · rw [hstep] at ht
    cases ht
    exact ⟨fun _ => .inr ⟨.inl ⟨rest, hin⟩, rfl, rfl⟩, fun _ => .inr ⟨.inl ⟨rest, hin⟩, rfl, rfl⟩⟩
  · rw [hstep] at ht
    obtain ⟨e, info, rfl⟩ := raisedOnly_of_raise ht
    exact ⟨fun hne => absurd rfl hne, fun hne => absurd rfl hne⟩
  · rw [hstep] at ht
    constructor
    · intro hne
      rcases exec_encErr ht with (hkeep | hentry) | ⟨rfl, hstart⟩
      · exact absurd hkeep hne
      · exact .inl hentry
      · rw [hstart]
        exact .inr ⟨.inr ⟨c, rest, hin, hdec⟩, rfl, rfl⟩
    · intro hne
      rcases exec_decErr ht with (hkeep | hentry) | ⟨rfl, hstart⟩
      · exact absurd hkeep hne
      · exact .inl hentry
      · rw [hstart]
        exact .inr ⟨.inr ⟨c, rest, hin, hdec⟩, rfl, rfl⟩

end Sys2Proof.Machine
end

section
/-! PROOFS. The opcode map, its selection word, and the operand words an opcode reads (30_encoding.md R71 to R73). -/

namespace Sys2Proof

open Machine

/-! ### Selection -/

theorem Instr.opcode_mem_opcodes (i : Instr) : i.opcode ∈ opcodes := by
  cases i <;> simp [Instr.opcode, opcodes]

/-- The opcode map sends an opcode to an instruction of that opcode (30_encoding.md R73). -/
theorem decodeOp_eq_some_opcode {op : Byte} {a b c : Word} {i : Instr} (h : decodeOp op a b c = some i) :
    i.opcode = op := by
  unfold decodeOp at h
  split at h <;> cases h <;> rfl

/-- A zero reserved field makes the selection word `zext_32(OP)` (30_encoding.md R73). -/
theorem Command.w0_eq_setWidth {c : Command} (h : c.rsv = 0) : c.w0 = c.op.setWidth 32 := by
  rw [c.w0_eq, h]
  exact (BitVec.setWidth_eq_append (by decide)).symm

theorem decode_ok_w0 {c : Command} {i : Instr} (h : decode c = .ok i) : c.w0 = i.opcode.setWidth 32 := by
  obtain ⟨hop, hrsv⟩ := decode_ok_inv h
  rw [decodeOp_eq_some_opcode hop]
  exact Command.w0_eq_setWidth hrsv

/-- Settles O3: each selection word decodes to its row of the opcode map, and a decoded command has the selection word
of its instruction. -/
theorem opcodeMap : Obligations.OpcodeMap := by
  unfold Obligations.OpcodeMap
  constructor
  · intro a b c
    exact ⟨decode_select (op := 0x00#8) rfl, decode_select (op := 0x01#8) rfl, decode_select (op := 0x10#8) rfl,
      decode_select (op := 0x11#8) rfl, decode_select (op := 0x12#8) rfl, decode_select (op := 0x13#8) rfl,
      decode_select (op := 0x14#8) rfl, decode_select (op := 0x15#8) rfl, decode_select (op := 0x20#8) rfl,
      decode_select (op := 0x21#8) rfl, decode_select (op := 0x22#8) rfl, decode_select (op := 0x23#8) rfl,
      decode_select (op := 0x30#8) rfl, decode_select (op := 0x31#8) rfl, decode_select (op := 0x32#8) rfl⟩
  · intro c i h
    exact ⟨i.opcode, i.opcode_mem_opcodes, decode_ok_w0 h⟩

/-! ### The operand words an opcode reads -/

/-- The opcode map reads the first `operandCount` operand words only (30_encoding.md R72). The cases are the rows of
`decodeOp` in its order. -/
theorem decodeOp_congr {op : Byte} {a b c a' b' c' : Word} (ha : 1 ≤ operandCount op → a' = a)
    (hb : 2 ≤ operandCount op → b' = b) (hc : 3 ≤ operandCount op → c' = c) :
    decodeOp op a' b' c' = decodeOp op a b c := by
  unfold decodeOp
  split
  case h_2 | h_4 | h_10 | h_14 => rw [ha (by decide)]
  case h_3 | h_5 => rw [ha (by decide), hb (by decide)]
  case h_6 => rw [ha (by decide), hb (by decide), hc (by decide)]
  all_goals rfl

theorem decode_congr {c c' : Command} (h0 : c'.w0 = c.w0) (h1 : 1 ≤ operandCount c.op → c'.w1 = c.w1)
    (h2 : 2 ≤ operandCount c.op → c'.w2 = c.w2) (h3 : 3 ≤ operandCount c.op → c'.w3 = c.w3) :
    decode c' = decode c := by
  have hop : c'.op = c.op := by rw [Command.op, Command.op, h0]
  have hrsv : c'.rsv = c.rsv := by rw [Command.rsv, Command.rsv, h0]
  have hrow : decodeOp c'.op c'.w1 c'.w2 c'.w3 = decodeOp c.op c.w1 c.w2 c.w3 := by
    rw [hop]
    exact decodeOp_congr h1 h2 h3
  simp only [decode, hrow, hrsv]

/-- A step reads a command through `decode` only. -/
theorem step_command_congr {c c' : Command} (h : decode c' = decode c) (s : State) (rest : List Input) :
    step { s with inputs := .command c' :: rest } = step { s with inputs := .command c :: rest } := by
  simp only [step, State.take, h]

/-- Settles O4: `decode` reads no unused operand word, and a step reads a command through `decode` only. -/
theorem unusedOperandsIgnored : Obligations.UnusedOperandsIgnored := by
  unfold Obligations.UnusedOperandsIgnored
  intro c c' s rest h0 h1 h2 h3
  have hdec : decode c' = decode c := decode_congr h0 h1 h2 h3
  exact ⟨hdec, step_command_congr hdec s rest⟩

end Sys2Proof
end

section
/-! PROOFS. Words and commands as bytes on a narrow link (30_encoding.md R79). -/

namespace Sys2Proof

theorem wordBytes_length (w : Word) : (wordBytes w).length = 4 := rfl

theorem wordBytes_getElem? (w : Word) {j : Nat} (hj : j < 4) :
    (wordBytes w)[j]? = some (w.extractLsb' (8 * j) 8) := by
  match j, hj with
  | 0, _ | 1, _ | 2, _ | 3, _ => rfl

theorem toNat_extractLsb'_byte (w : Word) (j : Nat) :
    (w.extractLsb' (8 * j) 8).toNat = w.toNat / 256 ^ j % 256 := by
  rw [BitVec.extractLsb'_toNat, Nat.shiftRight_eq_div_pow, Nat.pow_mul]

theorem wordOfBytes_wordBytes (w : Word) :
    wordOfBytes (w.extractLsb' 0 8) (w.extractLsb' 8 8) (w.extractLsb' 16 8) (w.extractLsb' 24 8) = w := by
  have h3 : w.extractLsb' 24 8 ++ w.extractLsb' 16 8 = w.extractLsb' 16 16 :=
    BitVec.extractLsb'_append_extractLsb'_eq_extractLsb' rfl
  have h2 : w.extractLsb' 16 16 ++ w.extractLsb' 8 8 = w.extractLsb' 8 24 :=
    BitVec.extractLsb'_append_extractLsb'_eq_extractLsb' rfl
  have h1 : w.extractLsb' 8 24 ++ w.extractLsb' 0 8 = w.extractLsb' 0 32 :=
    BitVec.extractLsb'_append_extractLsb'_eq_extractLsb' rfl
  rw [wordOfBytes, h3, h2, h1]
  exact BitVec.extractLsb'_eq_self

theorem Command.bytes_eq_flatMap (c : Command) : c.bytes = [c.w0, c.w1, c.w2, c.w3].flatMap wordBytes := rfl

/-- A command's bytes are read back whole, and the bytes after them are left. -/
theorem Command.ofBytes_bytes_append (c : Command) (rest : List Byte) :
    Command.ofBytes (c.bytes ++ rest) = some (c, rest) := by
  simp only [Command.bytes, wordBytes, List.cons_append, List.nil_append, Command.ofBytes, wordOfBytes_wordBytes]

/-- Settles O7: each byte by its place in the word, and a command's bytes by joining each word's again. -/
theorem narrowLinkIsLittleEndian : Obligations.NarrowLinkIsLittleEndian := by
  unfold Obligations.NarrowLinkIsLittleEndian
  refine ⟨fun w j hj => ?_, wordBytes_length, Command.bytes_eq_flatMap, fun _ => rfl, Command.ofBytes_bytes_append⟩
  exact ⟨_, wordBytes_getElem? w hj, toNat_extractLsb'_byte w j⟩

end Sys2Proof
end

section
/-! SUPPORT. What a grid command answers in each case of its checks (40_grid.md R101 to R108), and the decoding of a
command by its selection word. -/

namespace Sys2Proof

/-- A command decodes by its selection word to a row of the opcode map (30_encoding.md R73). -/
theorem decode_of_w0 {c : Command} {op : Byte} {i : Instr} (hw : c.w0 = op.setWidth 32)
    (h : decodeOp op c.w1 c.w2 c.w3 = some i) : decode c = .ok i := by
  obtain ⟨w0, w1, w2, w3⟩ := c
  subst hw
  exact decode_select h

end Sys2Proof

namespace Sys2Proof.Machine

variable {s : State} {i : Instr} {row col value : Int}

theorem isSym_eq_false_iff (v : Int) : isSym v = false ↔ v < 0 ∨ 255 < v := by
  rw [← Bool.not_eq_true, isSym_iff]
  omega

theorem Grid.inBounds_eq_false_iff (g : Grid) (row col : Int) :
    g.inBounds row col = false ↔
      row < 0 ∨ (g.rows.toNat : Int) ≤ row ∨ col < 0 ∨ (g.cols.toNat : Int) ≤ col := by
  rw [← Bool.not_eq_true, Grid.inBounds_iff]
  omega

theorem Grid.inBounds_natCast {g : Grid} {r c : Nat} (hr : r < g.rows.toNat) (hc : c < g.cols.toNat) :
    g.inBounds r c = true :=
  (g.inBounds_iff r c).mpr ⟨by omega, by omega, by omega, by omega⟩

theorem Grid.idx_natCast (g : Grid) (r c : Nat) : g.idx r c = r * g.cols.toNat + c := rfl

theorem zext32_byte (v : Byte) : zext32 v.toNat = v.setWidth 32 := BitVec.ofNat_toNat 32 v

/-- With no grid every grid command but GRID_CREATE raises `SequenceError(1)` (40_grid.md R104 to R108). -/
theorem exec_gridCommand_of_no_grid (hi : isGridCommand i = true) (hc : ∀ rows cols, i ≠ .gridCreate rows cols)
    (hv : s.grid.valid = false) : exec i s = raise .sequenceError 0x1#32 s := by
  cases i with
  | gridCreate rows cols => exact absurd rfl (hc rows cols)
  | gridClear | gridGet | gridSet | gridRows | gridCols => exact if_pos hv
  | nop | readCsr | encStart | encPush | encFlush | encGrid | decStart | decPush | decFinish => cases hi

/-! ### With a grid -/

theorem execGridClear_of_not_isSym (hv : s.grid.valid = true) (h : isSym value = false) :
    execGridClear value s = raise .outOfRange (word32 value) s := by
  simp [execGridClear, hv, h]

theorem execGridClear_of_isSym (hv : s.grid.valid = true) (h : isSym value = true) :
    execGridClear value s = answer { s with grid := s.grid.fillCells (symOf value) } .done := by
  simp [execGridClear, hv, h]

theorem execGridGet_of_not_inBounds (hv : s.grid.valid = true) (h : s.grid.inBounds row col = false) :
    execGridGet row col s = raise .indexOutOfBounds 0x0#32 s := by
  simp [execGridGet, hv, h]

theorem execGridGet_of_inBounds {v : Byte} (hv : s.grid.valid = true) (h : s.grid.inBounds row col = true)
    (hcell : s.grid.cell (s.grid.idx row col) = some v) :
    execGridGet row col s = answer s (.value (zext32 v.toNat)) := by
  simp [execGridGet, hv, h, hcell]

/-- The index is checked before the value (40_grid.md R106). -/
theorem execGridSet_of_not_inBounds (hv : s.grid.valid = true) (h : s.grid.inBounds row col = false) :
    execGridSet row col value s = raise .indexOutOfBounds 0x0#32 s := by
  simp [execGridSet, hv, h]

theorem execGridSet_of_not_isSym (hv : s.grid.valid = true) (hin : s.grid.inBounds row col = true)
    (h : isSym value = false) : execGridSet row col value s = raise .outOfRange (word32 value) s := by
  simp [execGridSet, hv, hin, h]

theorem execGridSet_of_isSym (hv : s.grid.valid = true) (hin : s.grid.inBounds row col = true)
    (h : isSym value = true) :
    execGridSet row col value s =
      answer { s with grid := s.grid.setCell (s.grid.idx row col) (symOf value) } .done := by
  simp [execGridSet, hv, hin, h]

theorem execGridRows_of_valid (hv : s.grid.valid = true) : execGridRows s = answer s (.value s.grid.rows) := by
  simp [execGridRows, hv]

theorem execGridCols_of_valid (hv : s.grid.valid = true) : execGridCols s = answer s (.value s.grid.cols) := by
  simp [execGridCols, hv]

/-! ### Answers -/

theorem onlyRaises_of_eq_raise {o : Outcome} {e : Status} {info : Word} (h : o = raise e info s) :
    OnlyRaises o s e info := h

theorem answers_of_eq_answer {o : Outcome} {t : State} {r : Response} (h : o = answer t r) : Answers o t r := h

end Sys2Proof.Machine
end

section
/-! PROOFS. The grid commands that read and write an existing grid (40_grid.md R104 to R108). -/

namespace Sys2Proof.Machine

/-- Settles O22: the two checks in order, and what a cell reads after the fill. -/
theorem gridClearEffect : Obligations.GridClearEffect := by
  unfold Obligations.GridClearEffect
  refine ⟨fun c hw => decode_of_w0 (op := 0x11#8) hw rfl, fun v s => ⟨fun hv => ?_, fun hv hbad => ?_, ?_⟩⟩
  · exact onlyRaises_of_eq_raise (exec_gridCommand_of_no_grid rfl nofun hv)
  · exact onlyRaises_of_eq_raise (execGridClear_of_not_isSym hv ((isSym_eq_false_iff v).mpr hbad))
  · intro hv hlow hhigh
    have hsym : isSym v = true := (isSym_iff v).mpr ⟨hlow, hhigh⟩
    exact ⟨_, answers_of_eq_answer (execGridClear_of_isSym hv hsym), s.grid.cell_fillCells (symOf v)⟩

/-- Settles O23: the two checks in order, and the invariant, which gives the cell of a pair in bounds. -/
theorem gridGetEffect : Obligations.GridGetEffect := by
  unfold Obligations.GridGetEffect
  refine ⟨fun c hw => decode_of_w0 (op := 0x12#8) hw rfl,
    fun row col s hinv => ⟨fun hv => ?_, fun hv hbad => ?_, ?_⟩⟩
  · exact onlyRaises_of_eq_raise (exec_gridCommand_of_no_grid rfl nofun hv)
  · exact onlyRaises_of_eq_raise
      (execGridGet_of_not_inBounds hv ((s.grid.inBounds_eq_false_iff row col).mpr hbad))
  · rintro r c hv rfl rfl hr hc
    have hin : s.grid.inBounds r c = true := Grid.inBounds_natCast hr hc
    obtain ⟨v, hcell⟩ := Option.isSome_iff_exists.mp (hinv.grid.written _ (Grid.idx_lt_size hin))
    refine ⟨v, hcell, ?_⟩
    rw [← zext32_byte]
    exact answers_of_eq_answer (execGridGet_of_inBounds hv hin hcell)

/-- Settles O24: the three checks in order, and what a cell reads after the write of one. -/
theorem gridSetEffect : Obligations.GridSetEffect := by
  unfold Obligations.GridSetEffect
  refine ⟨fun c hw => decode_of_w0 (op := 0x13#8) hw rfl,
    fun row col v s => ⟨fun hv => ?_, fun hv hbad => ?_, ?_⟩⟩
  · exact onlyRaises_of_eq_raise (exec_gridCommand_of_no_grid rfl nofun hv)
  · exact onlyRaises_of_eq_raise
      (execGridSet_of_not_inBounds hv ((s.grid.inBounds_eq_false_iff row col).mpr hbad))
  · rintro r c hv rfl rfl hr hc
    have hin : s.grid.inBounds r c = true := Grid.inBounds_natCast hr hc
    refine ⟨fun hbad => ?_, fun hlow hhigh => ?_⟩
    · exact onlyRaises_of_eq_raise (execGridSet_of_not_isSym hv hin ((isSym_eq_false_iff v).mpr hbad))
    · have hsym : isSym v = true := (isSym_iff v).mpr ⟨hlow, hhigh⟩
      exact ⟨_, answers_of_eq_answer (execGridSet_of_isSym hv hin hsym),
        s.grid.cell_setCell (s.grid.idx r c) (symOf v)⟩

/-- Settles O25: the one check, and the register as the result. -/
theorem gridShapeReads : Obligations.GridShapeReads := by
  unfold Obligations.GridShapeReads
  refine ⟨fun c hw => decode_of_w0 (op := 0x14#8) hw rfl, fun c hw => decode_of_w0 (op := 0x15#8) hw rfl,
    fun s => ⟨fun hv => ⟨?_, ?_⟩, fun hv => ⟨?_, ?_⟩⟩⟩
  · exact onlyRaises_of_eq_raise (exec_gridCommand_of_no_grid rfl nofun hv)
  · exact onlyRaises_of_eq_raise (exec_gridCommand_of_no_grid rfl nofun hv)
  · exact answers_of_eq_answer (execGridRows_of_valid hv)
  · exact answers_of_eq_answer (execGridCols_of_valid hv)

end Sys2Proof.Machine
end

section
/-! PROOFS. The grid and the codec units are separate (40_grid.md R109). -/

namespace Sys2Proof.Machine

/-- The state with the codec units `e` and `d` in the place of its own. -/
def State.withCodecs (e : Encoder) (d : Decoder) (s : State) : State := { s with enc := e, dec := d }

/-- The outcome with the codec units `e` and `d` in the next state, if there is one. -/
def outcomeWithCodecs (e : Encoder) (d : Decoder) : Outcome → Outcome
  | .next t => .next (t.withCodecs e d)
  | .fault f => .fault f
  | .refused f => .refused f

variable {e : Encoder} {d : Decoder}

@[simp] theorem State.withCodecs_grid (s : State) : (s.withCodecs e d).grid = s.grid := rfl

@[simp] theorem State.withCodecs_cfg (s : State) : (s.withCodecs e d).cfg = s.cfg := rfl

/-- A grid command reads no codec register: with other codec units it has the same outcome, but for those units. Each
of its checks is of the grid and the parameters, so the change of units passes through the branches. -/
theorem exec_gridCommand_withCodecs {i : Instr} (hi : isGridCommand i = true) (s : State) :
    exec i (s.withCodecs e d) = outcomeWithCodecs e d (exec i s) := by
  cases i with
  | gridGet row col =>
    simp only [exec, execGridGet, State.withCodecs_grid, apply_ite (outcomeWithCodecs e d)]
    cases s.grid.cell (s.grid.idx row col) <;> rfl
  | gridCreate | gridClear | gridSet | gridRows | gridCols =>
    simp only [exec, execGridCreate, execGridClear, execGridSet, execGridRows, execGridCols, State.withCodecs_grid,
      State.withCodecs_cfg, apply_ite (outcomeWithCodecs e d)]
    rfl
  | nop | readCsr | encStart | encPush | encFlush | encGrid | decStart | decPush | decFinish => cases hi

theorem isGridCommand_eq_false_of_codecCommand {i : Instr} (hi : isEncCommand i = true ∨ isDecCommand i = true) :
    isGridCommand i = false := by
  cases i with
  | nop | readCsr | encStart | encPush | encFlush | encGrid | decStart | decPush | decFinish => rfl
  | gridCreate | gridClear | gridGet | gridSet | gridRows | gridCols => rcases hi with h | h <;> cases h

/-- Settles O40: a grid command writes its own unit only and reads no codec register, and a command of a codec unit is
no grid command. -/
theorem gridAndCodecsSeparate : Obligations.GridAndCodecsSeparate := by
  unfold Obligations.GridAndCodecsSeparate
  intro i s t h
  refine ⟨fun hi => ?_, fun hi => exec_grid_of_not_gridCommand (isGridCommand_eq_false_of_codecCommand hi) h⟩
  have hreads : ∀ (e : Encoder) (d : Decoder), exec i (s.withCodecs e d) = .next (t.withCodecs e d) := by
    intro e d
    rw [exec_gridCommand_withCodecs hi, h]
    rfl
  obtain ⟨g, r, rfl⟩ := exec_gridCommand_eq hi h
  exact ⟨rfl, rfl, hreads⟩

end Sys2Proof.Machine
end

section
/-! SUPPORT. What an encoder command answers in each case of its checks (41_encoder.md R124 to R127), and symbols as
words. -/

namespace Sys2Proof.Machine

variable {s : State} {i : Instr} {u : Encoder} {c : Int} {cap : Word} {b : Byte} {out : List Word}

/-! ### Symbols -/

theorem symOf_toNat (h : isSym c = true) : ((symOf c).toNat : Int) = c := by
  have := (isSym_iff c).mp h
  rw [symOf, BitVec.toNat_ofInt]
  omega

theorem zext32_symOf (h : isSym c = true) : zext32 (symOf c).toNat = BitVec.ofInt 32 c := by
  rw [zext32, ← BitVec.ofInt_natCast, symOf_toNat h]

theorem isSym_byte (b : Byte) : isSym (b.toNat : Int) = true := by
  have := b.isLt
  exact (isSym_iff _).mpr (by omega)

theorem symOf_byte (b : Byte) : symOf (b.toNat : Int) = b := by
  rw [symOf, BitVec.ofInt_natCast, BitVec.ofNat_toNat, BitVec.setWidth_eq]

/-! ### Pushing a symbol into the unit -/

theorem Encoder.push_first (hv : u.wvalid = false) :
    u.push cap b = some ({ u with wvalid := true, wcode := zext32 b.toNat }, []) := if_pos hv

theorem Encoder.push_match {n : Nat} (hv : u.wvalid = true) (hf : u.dict.find u.wcode b = some n) :
    u.push cap b = some ({ u with wcode := zext32 n }, []) := by
  simp [Encoder.push, hv, hf]

theorem Encoder.push_emit (hv : u.wvalid = true) (hf : u.dict.find u.wcode b = none) (hroom : u.dict.next ≠ cap) :
    u.push cap b = some ({ u with dict := u.dict.insert u.wcode b, wcode := zext32 b.toNat }, [u.wcode]) := by
  simp [Encoder.push, hv, hf, hroom]

/-- A stored pair of the working code and a symbol is the match of the two. -/
theorem Encoder.Inv.find_of_read {p : Params} (h : Encoder.Inv p u) {n : Nat} {e : Entry} (h1 : 256 ≤ n)
    (h2 : n < u.dict.next.toNat) (hread : Table.read u.dict.entries n = some e) (hpre : e.pre = u.wcode)
    (hsym : e.sym = b) : u.dict.find u.wcode b = some n := by
  rw [← hpre, ← hsym]
  exact Dict.find_of_entry h.dict.canonical h.distinct ((Dict.entry_eq_some_iff _ _ _).mpr ⟨h1, h2, hread⟩)

theorem Encoder.Inv.find_of_noMatch {p : Params} (h : Encoder.Inv p u) (hc : isSym c = true) (hno : NoMatch u c) :
    u.dict.find u.wcode (symOf c) = none := by
  cases hf : u.dict.find u.wcode (symOf c) with
  | none => rfl
  | some n =>
    obtain ⟨h1, h2, hread⟩ := (Dict.entry_eq_some_iff _ _ _).mp (Dict.find_some h.dict.canonical hf)
    exact absurd ⟨rfl, symOf_toNat hc⟩ (hno n _ h1 h2 hread)

theorem Dict.Inv.next_lt {p : Params} {d : Dict} (h : Dict.Inv p d) (hroom : d.next ≠ p.dictCap) :
    d.next.toNat < p.dictCap.toNat :=
  Nat.lt_of_le_of_ne h.high fun heq => hroom (BitVec.eq_of_toNat_eq heq)

/-- The working code of an encoder that has one is a code of its dictionary. -/
theorem Encoder.Inv.wcode_lt {p : Params} (h : Encoder.Inv p u) (hv : u.wvalid = true) :
    u.wcode.toNat < u.dict.next.toNat := by
  have := h.code
  rwa [if_pos hv] at this

/-! ### The commands -/

/-- While the encoder is not ACTIVE, its commands but ENC_START raise `SequenceError(2)` (41_encoder.md R125 to
R127). -/
theorem exec_encCommand_of_not_active (hi : isEncCommand i = true) (hne : i ≠ .encStart) (h : s.enc.phase ≠ .active) :
    exec i s = raise .sequenceError 0x2#32 s := by
  cases i with
  | encStart => exact absurd rfl hne
  | encPush | encFlush | encGrid => exact if_pos h
  | nop | readCsr | gridCreate | gridClear | gridGet | gridSet | gridRows | gridCols | decStart | decPush
  | decFinish => cases hi

theorem execEncPush_of_not_isSym (ha : s.enc.phase = .active) (hc : isSym c = false) :
    execEncPush c s = raiseEnc .outOfRange (word32 c) s := by
  simp [execEncPush, ha, hc]

theorem execEncPush_of_push_none (ha : s.enc.phase = .active) (hc : isSym c = true)
    (h : s.enc.push s.cfg.dictCap (symOf c) = none) :
    execEncPush c s = raiseEnc .capacityExceeded 0x1#32 s := by
  simp [execEncPush, ha, hc, h]

theorem execEncPush_of_push_some (ha : s.enc.phase = .active) (hc : isSym c = true)
    (h : s.enc.push s.cfg.dictCap (symOf c) = some (u, out)) :
    execEncPush c s = answer { s with enc := u } (.emitted out) := by
  simp [execEncPush, ha, hc, h]

theorem execEncFlush_of_active (ha : s.enc.phase = .active) :
    execEncFlush s = answer { s with enc := s.enc.finish } (.emitted s.enc.pending) := by
  simp [execEncFlush, ha]

/-- The encoder is checked before the grid (41_encoder.md R127). -/
theorem execEncGrid_of_no_grid (ha : s.enc.phase = .active) (hv : s.grid.valid = false) :
    execEncGrid s = raise .sequenceError 0x1#32 s := by
  simp [execEncGrid, ha, hv]

theorem execEncGrid_of_symbols {cs : List Byte} (ha : s.enc.phase = .active) (hv : s.grid.valid = true)
    (hcs : s.grid.symbols = some cs) :
    execEncGrid s = answer { s with enc := (s.enc.pushAll s.cfg.dictCap cs).enc }
      (s.enc.pushAll s.cfg.dictCap cs).response := by
  simp [execEncGrid, ha, hv, hcs]

end Sys2Proof.Machine
end

section
/-! SUPPORT. Runs of a command sequence: no meaning reads the input stream, so a run is its first command and then the
run of the others. -/

namespace Sys2Proof

theorem sint32_word32 {v : Int} (h : fitsSigned v = true) : sint32 (word32 v) = v := by
  have h : -2147483648 ≤ v ∧ v < 2147483648 := of_decide_eq_true h
  rw [sint32, word32, BitVec.toInt_ofInt]
  exact Int.bmod_eq_of_le (by omega) (by omega)

theorem decode_encode_encPush {v : Int} (h : fitsSigned v = true) :
    decode (encode (.encPush v)) = .ok (.encPush v) :=
  decode_select (op := 0x21#8) (congrArg (fun x => some (Instr.encPush x)) (sint32_word32 h))

end Sys2Proof

namespace Sys2Proof.Machine

variable {s t u : State} {i : Instr} {is : List Instr} {r : Response} {rs : List Response}

/-- The state with the inputs `l` in the place of its own. -/
def State.withInputs (l : List Input) (s : State) : State := { s with inputs := l }

/-- The outcome with the inputs `l` in the next state, if there is one. -/
def outcomeWithInputs (l : List Input) : Outcome → Outcome
  | .next t => .next (t.withInputs l)
  | .fault f => .fault f
  | .refused f => .refused f

@[simp] theorem State.withInputs_cfg (l : List Input) (s : State) : (s.withInputs l).cfg = s.cfg := rfl

@[simp] theorem State.withInputs_grid (l : List Input) (s : State) : (s.withInputs l).grid = s.grid := rfl

@[simp] theorem State.withInputs_enc (l : List Input) (s : State) : (s.withInputs l).enc = s.enc := rfl

@[simp] theorem State.withInputs_dec (l : List Input) (s : State) : (s.withInputs l).dec = s.dec := rfl

theorem decPushFirst_withInputs (l : List Input) (k : Nat) (s : State) :
    decPushFirst k (s.withInputs l) = outcomeWithInputs l (decPushFirst k s) := by
  unfold decPushFirst
  cases classifyFirst k <;> rfl

theorem decPushLater_withInputs (l : List Input) (k : Nat) (s : State) :
    decPushLater k (s.withInputs l) = outcomeWithInputs l (decPushLater k s) := by
  simp only [decPushLater, State.withInputs_dec, State.withInputs_cfg, apply_ite (outcomeWithInputs l)]
  rcases s.dec.entryOf (classify s.dec.dict.next k) k with _ | _ | ⟨v, rest⟩ <;> rfl

/-- No meaning reads the input stream (log 2): each of its checks is of the units and the parameters, so the change of
inputs passes through the branches. -/
theorem exec_withInputs (l : List Input) (i : Instr) (s : State) :
    exec i (s.withInputs l) = outcomeWithInputs l (exec i s) := by
  cases i with
  | readCsr n =>
    simp only [exec, execReadCsr]
    cases csrOfNumber n <;> rfl
  | gridGet row col =>
    simp only [exec, execGridGet, State.withInputs_grid, apply_ite (outcomeWithInputs l)]
    cases s.grid.cell (s.grid.idx row col) <;> rfl
  | encPush c =>
    simp only [exec, execEncPush, State.withInputs_enc, State.withInputs_cfg, apply_ite (outcomeWithInputs l)]
    cases s.enc.push s.cfg.dictCap (symOf c) <;> rfl
  | encGrid =>
    simp only [exec, execEncGrid, State.withInputs_enc, State.withInputs_grid, apply_ite (outcomeWithInputs l)]
    cases s.grid.symbols <;> rfl
  | decPush k =>
    simp only [exec, execDecPush, State.withInputs_dec, decPushFirst_withInputs, decPushLater_withInputs,
      apply_ite (outcomeWithInputs l)]
    rfl
  | nop | gridCreate | gridClear | gridSet | gridRows | gridCols | encStart | encFlush | decStart | decFinish =>
    simp only [exec, execNop, execGridCreate, execGridClear, execGridSet, execGridRows, execGridCols, execEncStart,
      execEncFlush, execDecStart, execDecFinish, State.withInputs_grid, State.withInputs_enc, State.withInputs_dec,
      State.withInputs_cfg, apply_ite (outcomeWithInputs l)]
    rfl

/-- A run whose first input is a command that answers a next state goes on from there with the other inputs. -/
theorem runSteps_command_next {c : Command} (hd : decode c = .ok i) (hex : exec i s = .next u) (rest : List Input)
    (k : Nat) : runSteps (k + 1) (s.withInputs (.command c :: rest)) = runSteps k (u.withInputs rest) := by
  have hfirst : exec i (s.withInputs rest) = .next (u.withInputs rest) := by
    rw [exec_withInputs, hex]
    rfl
  rw [State.withInputs] at hfirst
  rw [runSteps_command rfl hd, State.withInputs, hfirst]

theorem RunsTo.nil (s : State) : RunsTo s [] (s.withInputs []) [] :=
  ⟨rfl, rfl, (List.append_nil _).symm, rfl⟩

/-- A run is its first command and then the run of the others. -/
theorem RunsTo.cons (hdec : decode (encode i) = .ok i) (hex : exec i s = .next u) (hr : u.rsps = s.rsps ++ [r])
    (h : RunsTo u is t rs) : RunsTo s (i :: is) t (r :: rs) := by
  obtain ⟨hrun, hin, hrsps, hlen⟩ := h
  have hfirst := runSteps_command_next hdec hex (is.map fun j => .command (encode j)) is.length
  refine ⟨hfirst.trans hrun, hin, ?_, congrArg (· + 1) hlen⟩
  rw [hrsps, hr, List.append_assoc, List.singleton_append]

end Sys2Proof.Machine
end

section
/-! PROOFS. The encoder commands (41_encoder.md R124 to R127). -/

namespace Sys2Proof.Machine

/-- Settles O29: the selection word, and the unit that START leaves. -/
theorem encStartEffect : Obligations.EncStartEffect := by
  unfold Obligations.EncStartEffect
  exact ⟨fun c hw => decode_of_w0 (op := 0x20#8) hw rfl, fun s => answers_of_eq_answer rfl⟩

/-- Settles O31: the one check, and the unit that the end of a call leaves. -/
theorem encFlushEffect : Obligations.EncFlushEffect := by
  unfold Obligations.EncFlushEffect
  refine ⟨fun c hw => decode_of_w0 (op := 0x22#8) hw rfl, fun s => ⟨fun hidle => ?_, fun ha => ?_⟩⟩
  · exact onlyRaises_of_eq_raise (exec_encCommand_of_not_active rfl nofun hidle)
  · exact answers_of_eq_answer (execEncFlush_of_active ha)

/-- Settles O30: the two checks in order, and for a symbol what a push does in each of its cases; the invariant makes a
stored pair the match. -/
theorem encPushEffect : Obligations.EncPushEffect := by
  unfold Obligations.EncPushEffect
  refine ⟨fun c hw => decode_of_w0 (op := 0x21#8) hw rfl,
    fun c s hinv => ⟨fun hidle => ?_, fun ha hbad => ?_, fun ha hlow hhigh => ?_⟩⟩
  · exact onlyRaises_of_eq_raise (exec_encCommand_of_not_active rfl nofun hidle)
  · exact answers_of_eq_answer (execEncPush_of_not_isSym ha ((isSym_eq_false_iff c).mpr hbad))
  · have hsym : isSym c = true := (isSym_iff c).mpr ⟨hlow, hhigh⟩
    rw [← zext32_symOf hsym]
    refine ⟨fun hv => ?_, fun hv => ⟨fun n e h1 h2 hread hpre hc => ?_, fun hno hfull => ?_, fun hno hroom => ?_⟩⟩
    · exact answers_of_eq_answer (execEncPush_of_push_some ha hsym (Encoder.push_first hv))
    · have hc : e.sym = symOf c := by rw [← hc, symOf_byte]
      have hfind := hinv.enc.find_of_read h1 h2 hread hpre hc
      exact answers_of_eq_answer (execEncPush_of_push_some ha hsym (Encoder.push_match hv hfind))
    · have hfind := hinv.enc.find_of_noMatch hsym hno
      exact answers_of_eq_answer
        (execEncPush_of_push_none ha hsym ((Encoder.push_eq_none_iff _ _ _).mpr ⟨hv, hfind, hfull⟩))
    · have hfind := hinv.enc.find_of_noMatch hsym hno
      exact ⟨hinv.enc.wcode_lt hv, _,
        answers_of_eq_answer (execEncPush_of_push_some ha hsym (Encoder.push_emit hv hfind hroom)),
        Dict.insert_next_toNat (hinv.enc.dict.next_lt hroom) _ _, Table.read_write _ _ _⟩

end Sys2Proof.Machine
end

section
/-! PROOFS. ENC_GRID is the pushes of the cells (41_encoder.md R127). -/

namespace Sys2Proof.Machine

variable {s : State}

/-- The sequence of ENC_PUSHes of the symbols. -/
def pushCommands (cs : List Byte) : List Instr := cs.map fun b => .encPush (b.toNat : Int)

theorem decode_encode_encPush_byte (b : Byte) :
    decode (encode (.encPush (b.toNat : Int))) = .ok (.encPush (b.toNat : Int)) := by
  have := b.isLt
  exact decode_encode_encPush (decide_eq_true (by omega))

theorem exec_encPush_byte_of_push_none {b : Byte} (ha : s.enc.phase = .active)
    (h : s.enc.push s.cfg.dictCap b = none) :
    exec (.encPush (b.toNat : Int)) s = raiseEnc .capacityExceeded 0x1#32 s :=
  execEncPush_of_push_none ha (isSym_byte b) (by rwa [symOf_byte])

theorem exec_encPush_byte_of_push_some {b : Byte} {u : Encoder} {out : List Word} (ha : s.enc.phase = .active)
    (h : s.enc.push s.cfg.dictCap b = some (u, out)) :
    exec (.encPush (b.toNat : Int)) s = answer { s with enc := u } (.emitted out) :=
  execEncPush_of_push_some ha (isSym_byte b) (by rwa [symOf_byte])

/-- What a run of ENC_PUSHes leaves: the unit `u`, no input, and the responses `rs` after the earlier ones. -/
def State.afterPushes (s : State) (u : Encoder) (rs : List Response) : State :=
  { s with enc := u, inputs := [], rsps := s.rsps ++ rs }

theorem State.afterPushes_nil (s : State) : s.afterPushes s.enc [] = s.withInputs [] := by
  rw [State.afterPushes, List.append_nil]
  rfl

/-- What is left after a push and then the others is what is left after all. -/
theorem State.respond_afterPushes (s : State) (u' u : Encoder) (r : Response) (rs : List Response) :
    (({ s with enc := u' }).respond r).afterPushes u rs = s.afterPushes u (r :: rs) := by
  simp only [State.afterPushes, State.respond, List.append_assoc, List.singleton_append]

theorem runsTo_pushCommands_nil (s : State) : RunsTo s (pushCommands []) (s.afterPushes s.enc []) [] := by
  rw [State.afterPushes_nil]
  exact .nil s

theorem runsTo_pushCommands_cons {b : Byte} {cs : List Byte} {u' u : Encoder} {r : Response} {rs : List Response}
    (hex : exec (.encPush (b.toNat : Int)) s = answer { s with enc := u' } r)
    (h : RunsTo (({ s with enc := u' }).respond r) (pushCommands cs)
      ((({ s with enc := u' }).respond r).afterPushes u rs) rs) :
    RunsTo s (pushCommands (b :: cs)) (s.afterPushes u (r :: rs)) (r :: rs) := by
  rw [State.respond_afterPushes] at h
  exact .cons (decode_encode_encPush_byte b) hex rfl h

/-- After a push that failed, the pushes that follow raise errors, which emit nothing and change no unit. -/
theorem runsTo_pushCommands_of_not_active (h : s.enc.phase ≠ .active) (cs : List Byte) :
    ∃ rs, RunsTo s (pushCommands cs) (s.afterPushes s.enc rs) rs ∧ outOfAll rs = [] := by
  induction cs generalizing s with
  | nil => exact ⟨[], runsTo_pushCommands_nil s, rfl⟩
  | cons b cs ih =>
    have hex : exec (.encPush (b.toNat : Int)) s = raise .sequenceError 0x2#32 s :=
      exec_encCommand_of_not_active rfl nofun h
    obtain ⟨rs, hrun, hout⟩ := ih (s := s.respond (.error .sequenceError 0x2#32)) h
    exact ⟨_, runsTo_pushCommands_cons hex hrun, hout⟩

/-- ENC_PUSHes of the symbols leave the unit that pushing them leaves, emit the same codes, and all answer OK exactly
where every push completes. -/
theorem runsTo_pushCommands (ha : s.enc.phase = .active) (cs : List Byte) :
    ∃ rs, RunsTo s (pushCommands cs) (s.afterPushes (s.enc.pushAll s.cfg.dictCap cs).enc rs) rs ∧
      outOfAll rs = (s.enc.pushAll s.cfg.dictCap cs).out ∧ allOk rs = (s.enc.pushAll s.cfg.dictCap cs).complete := by
  induction cs generalizing s with
  | nil => exact ⟨[], runsTo_pushCommands_nil s, rfl, rfl⟩
  | cons b cs ih =>
    cases hp : s.enc.push s.cfg.dictCap b with
    | none =>
      have hex := exec_encPush_byte_of_push_none ha hp
      have hidle : (s.enc.fail .capacityExceeded 0x1#32).phase ≠ .active := by
        rw [Encoder.fail_phase]
        decide
      obtain ⟨rs, hrun, hout⟩ := runsTo_pushCommands_of_not_active
        (s := ({ s with enc := s.enc.fail .capacityExceeded 0x1#32 }).respond (.error .capacityExceeded 0x1#32))
        hidle cs
      rw [Encoder.pushAll_cons_none cs hp]
      exact ⟨_, runsTo_pushCommands_cons hex hrun, hout, rfl⟩
    | some r =>
      obtain ⟨u, out⟩ := r
      have hex := exec_encPush_byte_of_push_some ha hp
      have ha' : u.phase = .active := (Encoder.push_frame hp).1.trans ha
      obtain ⟨rs, hrun, hout, hok⟩ := ih (s := ({ s with enc := u }).respond (.emitted out)) ha'
      rw [Encoder.pushAll_cons_some cs hp]
      exact ⟨_, runsTo_pushCommands_cons hex hrun, congrArg (out ++ ·) hout, hok⟩

/-- Settles O32: the two checks in order, and then the run of the pushes. -/
theorem encGridEqualsPushes : Obligations.EncGridEqualsPushes := by
  unfold Obligations.EncGridEqualsPushes
  refine ⟨fun c hw => decode_of_w0 (op := 0x23#8) hw rfl,
    fun s hinv => ⟨fun hidle => ?_, fun ha hv => ?_, fun ha hv => ?_⟩⟩
  · exact onlyRaises_of_eq_raise (exec_encCommand_of_not_active rfl nofun hidle)
  · exact onlyRaises_of_eq_raise (execEncGrid_of_no_grid ha hv)
  · obtain ⟨cs, hcs⟩ := hinv.grid.symbols_defined
    obtain ⟨hlen, hcell⟩ := Grid.symbols_spec hcs
    obtain ⟨rs, hrun, hout, hok⟩ := runsTo_pushCommands ha cs
    refine ⟨cs, _, rs, hlen, hcell, hrun, ?_, fun hfail => ?_⟩
    · rw [hout, hok]
      exact answers_of_eq_answer (execEncGrid_of_symbols ha hv hcs)
    · rcases Encoder.pushAll_ends s.cfg.dictCap s.enc cs with ⟨hc, -⟩ | ⟨-, hend⟩
      · rw [hok, hc] at hfail
        cases hfail
      · exact hend

end Sys2Proof.Machine
end

section
/-! SUPPORT. What a decoder command answers in each case of its checks (42_decoder.md R145, R146), and the string of the
code that an insertion adds. -/

namespace Sys2Proof.Machine

variable {p : Params} {s : State} {i : Instr} {k : Nat} {v : Byte} {w : List Byte}

theorem classifyFirst_known (h : k < 256) : classifyFirst k = .known := if_pos h

theorem classifyFirst_malformed (h : 256 ≤ k) : classifyFirst k = .malformed := if_neg (Nat.not_lt.mpr h)

theorem classify_ne_malformed {next : Word} (h : k ≤ next.toNat) : classify next k ≠ .malformed :=
  (classify_eq_malformed_iff next k).not.mpr (Nat.not_lt.mpr h)

/-- The working code of a decoder that has seen one is a code of its dictionary. -/
theorem Decoder.Inv.wcode_lt {u : Decoder} (h : Decoder.Inv p u) (hs : u.seen = true) :
    u.wcode.toNat < u.dict.next.toNat := by
  have := h.code
  rwa [if_pos hs] at this

/-- The string of the code that an insertion adds is the string of the pair's code and then the pair's symbol
(10_state.md R28). -/
theorem Dict.Inv.str_insert_next {d : Dict} (h : Dict.Inv p d) (hroom : d.next ≠ p.dictCap) {pre : Word}
    (hpre : pre.toNat < d.next.toNat) (hw : d.str pre.toNat = some w) (c : Byte) :
    (d.insert pre c).str d.next.toNat = some (w ++ [c]) := by
  have hlt := h.next_lt hroom
  have hentry : (d.insert pre c).entry d.next.toNat = some ⟨pre, c⟩ := by
    rw [Dict.entry_insert h.low hlt, if_pos rfl]
  rw [Dict.str_entry (h.insert hroom hpre c).descends hentry, Dict.str_insert_of_lt h.descends h.low hlt pre c hpre, hw]
  rfl

theorem symbolWords_eq (w : List Byte) : symbolWords w = w.map fun b => b.setWidth 32 :=
  List.map_congr_left fun b _ => zext32_byte b

/-! ### The commands -/

/-- While the decoder is not ACTIVE, its commands but DEC_START raise `SequenceError(3)` (42_decoder.md R145, R146). -/
theorem exec_decCommand_of_not_active (hi : isDecCommand i = true) (hne : i ≠ .decStart) (h : s.dec.phase ≠ .active) :
    exec i s = raise .sequenceError 0x3#32 s := by
  cases i with
  | decStart => exact absurd rfl hne
  | decPush | decFinish => exact if_pos h
  | nop | readCsr | gridCreate | gridClear | gridGet | gridSet | gridRows | gridCols | encStart | encPush | encFlush
  | encGrid => cases hi

theorem execDecFinish_of_not_seen (ha : s.dec.phase = .active) (hs : s.dec.seen = false) :
    execDecFinish s = raiseDec .emptyInput 0x0#32 s := by
  simp [execDecFinish, ha, hs]

theorem execDecFinish_of_seen (ha : s.dec.phase = .active) (hs : s.dec.seen = true) :
    execDecFinish s = answer { s with dec := s.dec.finish } .done := by
  simp [execDecFinish, ha, hs]

theorem execDecPush_of_not_seen (ha : s.dec.phase = .active) (hs : s.dec.seen = false) :
    execDecPush k s = decPushFirst k s := by
  simp [execDecPush, ha, hs]

theorem execDecPush_of_seen (ha : s.dec.phase = .active) (hs : s.dec.seen = true) :
    execDecPush k s = decPushLater k s := by
  simp [execDecPush, ha, hs]

theorem decPushFirst_of_seed (h : k < 256) :
    decPushFirst k s =
      answer { s with dec := { s.dec with seen := true, wcode := zext32 k } } (.emitted [zext32 k]) := by
  rw [decPushFirst, classifyFirst_known h]

theorem decPushFirst_of_malformed (h : 256 ≤ k) : decPushFirst k s = raiseDec .malformedCode (zext32 k) s := by
  rw [decPushFirst, classifyFirst_malformed h]

/-- "The malformed check comes before the capacity check" (42_decoder.md R145). -/
theorem decPushLater_of_malformed (h : s.dec.dict.next.toNat < k) :
    decPushLater k s = raiseDec .malformedCode (zext32 k) s :=
  if_pos (classify_malformed h)

theorem decPushLater_of_full (hk : k ≤ s.dec.dict.next.toNat) (hfull : s.dec.dict.next = s.cfg.dictCap) :
    decPushLater k s = raiseDec .capacityExceeded 0x2#32 s := by
  rw [decPushLater, if_neg (classify_ne_malformed hk), if_pos hfull]

theorem decPushLater_of_entry (hk : k ≤ s.dec.dict.next.toNat) (hroom : s.dec.dict.next ≠ s.cfg.dictCap)
    (hentry : s.dec.entryOf (classify s.dec.dict.next k) k = some (v :: w)) :
    decPushLater k s = answer { s with dec := s.dec.accept k v } (.emitted (symbolWords (v :: w))) := by
  rw [decPushLater, if_neg (classify_ne_malformed hk), if_neg hroom, hentry]

end Sys2Proof.Machine
end

section
/-! PROOFS. DEC_PUSH and DEC_FINISH (42_decoder.md R145, R146). -/

namespace Sys2Proof.Machine

variable {s : State} {k : Nat} {v : Byte} {w : List Byte}

/-- Settles O38: the two checks in order, and the unit that the end of a call leaves. -/
theorem decFinishEffect : Obligations.DecFinishEffect := by
  unfold Obligations.DecFinishEffect
  refine ⟨fun c hw => decode_of_w0 (op := 0x32#8) hw rfl,
    fun s => ⟨fun hidle => ?_, fun ha hs => ?_, fun ha hs => ?_⟩⟩
  · exact onlyRaises_of_eq_raise (exec_decCommand_of_not_active rfl nofun hidle)
  · exact answers_of_eq_answer (execDecFinish_of_not_seen ha hs)
  · exact answers_of_eq_answer (execDecFinish_of_seen ha hs)

theorem decPushFails_of_eq_raiseDec {e : Status} {info : Word} (h : exec (.decPush k) s = raiseDec e info s) :
    DecPushFails s k e info := h

/-- A later code that has an entry and room is consumed; what is left to show is that the entry is the code's string
after the insertion. -/
theorem decPushConsumes_of_entry (hinv : s.Inv) (ha : s.dec.phase = .active) (hs : s.dec.seen = true)
    (hk : k ≤ s.dec.dict.next.toNat) (hroom : s.dec.dict.next ≠ s.cfg.dictCap)
    (hentry : s.dec.entryOf (classify s.dec.dict.next k) k = some (v :: w))
    (hstr : (s.dec.dict.insert s.dec.wcode v).str k = some (v :: w)) : DecPushConsumes s k (v :: w) := by
  refine ⟨v, _, rfl, ?_, Dict.insert_next_toNat (hinv.dec.dict.next_lt hroom) _ _, Table.read_write _ _ _, hstr⟩
  rw [← symbolWords_eq]
  exact answers_of_eq_answer ((execDecPush_of_seen ha hs).trans (decPushLater_of_entry hk hroom hentry))

/-- A known code emits its string, which the insertion leaves as it is. -/
theorem decPushConsumes_of_known (hinv : s.Inv) (ha : s.dec.phase = .active) (hs : s.dec.seen = true)
    (hk : k < s.dec.dict.next.toNat) (hroom : s.dec.dict.next ≠ s.cfg.dictCap) :
    ∃ entry, s.dec.dict.str k = some entry ∧ DecPushConsumes s k entry := by
  have hd := hinv.dec.dict
  obtain ⟨v, w, hstr, -⟩ := hd.str_defined hk
  have hentry : s.dec.entryOf (classify s.dec.dict.next k) k = some (v :: w) := by
    rw [classify_known hk]
    exact hstr
  refine ⟨v :: w, hstr, decPushConsumes_of_entry hinv ha hs hk.le hroom hentry ?_⟩
  rw [Dict.str_insert_of_lt hd.descends hd.low (hd.next_lt hroom) _ _ hk, hstr]

/-- The next-code sentinel emits the previous string and its first symbol, which is the string of the entry that the
insertion adds. -/
theorem decPushConsumes_of_sentinel (hinv : s.Inv) (ha : s.dec.phase = .active) (hs : s.dec.seen = true)
    (hk : k = s.dec.dict.next.toNat) (hroom : s.dec.dict.next ≠ s.cfg.dictCap) :
    ∃ w v, s.dec.dict.str s.dec.wcode.toNat = some w ∧ w.head? = some v ∧ DecPushConsumes s k (w ++ [v]) := by
  have hcode := hinv.dec.wcode_lt hs
  obtain ⟨v, w, hstr, hfirst⟩ := hinv.dec.dict.str_defined hcode
  have hentry : s.dec.entryOf (classify s.dec.dict.next k) k = some (v :: (w ++ [v])) := by
    simp only [classify_sentinel hk, Decoder.entryOf, hstr, hfirst, List.cons_append]
  refine ⟨v :: w, v, hstr, rfl, decPushConsumes_of_entry hinv ha hs hk.le hroom hentry ?_⟩
  rw [hk]
  exact hinv.dec.dict.str_insert_next hroom hcode hstr v

/-- Settles O37: the checks in order; a first code is a seed or malformed, and a later code that passes is known or the
sentinel. -/
theorem decPushEffect : Obligations.DecPushEffect := by
  unfold Obligations.DecPushEffect
  refine ⟨fun c hw => decode_of_w0 (op := 0x31#8) hw rfl, fun k s hinv => ⟨fun hidle => ?_, fun ha hs => ?_, ?_⟩⟩
  · exact onlyRaises_of_eq_raise (exec_decCommand_of_not_active rfl nofun hidle)
  · have hfirst : exec (.decPush k) s = decPushFirst k s := execDecPush_of_not_seen ha hs
    refine ⟨fun hk => ?_, fun hk => ?_⟩
    · exact decPushFails_of_eq_raiseDec (hfirst.trans (decPushFirst_of_malformed hk))
    · exact answers_of_eq_answer (hfirst.trans (decPushFirst_of_seed hk))
  · intro ha hs
    have hlater : exec (.decPush k) s = decPushLater k s := execDecPush_of_seen ha hs
    refine ⟨fun hk => ?_, fun hk hfull => ?_, decPushConsumes_of_known hinv ha hs,
      decPushConsumes_of_sentinel hinv ha hs⟩
    · exact decPushFails_of_eq_raiseDec (hlater.trans (decPushLater_of_malformed hk))
    · exact decPushFails_of_eq_raiseDec (hlater.trans (decPushLater_of_full hk hfull))

end Sys2Proof.Machine
end

section
/-! SUPPORT. The step on an illegal command word, what READ_CSR answers for a number of the CSR map and for any other,
and the fields of the status words (10_state.md R40 to R48). -/

namespace Sys2Proof.Machine

variable {s : State} {n : Nat}

/-- A step on a command that does not decode (30_encoding.md R74). -/
theorem step_of_decode_error {c : Command} {rest : List Input} {why : Illegal} (hs : s.inputs = .command c :: rest)
    (hd : decode c = .error why) : step s = raiseIllegal why { s with inputs := rest } := by
  simp only [step, State.take, hs, hd]

/-! ### The CSR map -/

theorem csrReads_csrValue (r : Csr) (h : csrOfNumber n = some r) : CsrReads s n (csrValue s r) := by
  have hexec : execReadCsr n s = answer s (.value (csrValue s r)) := by rw [execReadCsr, h]
  exact answers_of_eq_answer hexec

theorem onlyRaises_of_csrOfNumber_eq_none (h : csrOfNumber n = none) :
    OnlyRaises (exec (.readCsr n) s) s .illegalCommand 2 := by
  have hexec : execReadCsr n s = raise .illegalCommand 0x2#32 s := by rw [execReadCsr, h]
  exact onlyRaises_of_eq_raise hexec

/-- A number that the map of 10_state.md R40 does not list is unassigned (R48). The last case is the map's last row, and
the others are the listed numbers. -/
theorem csrOfNumber_eq_none
    (h : n ∉ [0x00, 0x01, 0x02, 0x10, 0x11, 0x12, 0x13, 0x20, 0x21, 0x22, 0x23, 0x30, 0x31, 0x32]) :
    csrOfNumber n = none := by
  unfold csrOfNumber
  split
  case h_15 => rfl
  all_goals exact absurd (by decide) h

/-! ### The status words -/

/-- Each field of five words put side by side is found by dropping the fields below it. The widths are those of the
codec units' status word. -/
theorem extractLsb'_statusLayout (hi : BitVec 16) (err : Byte) (gap : BitVec 5) (flag : BitVec 1) (phase : BitVec 2) :
    (hi ++ err ++ gap ++ flag ++ phase).extractLsb' 0 2 = phase ∧
    (hi ++ err ++ gap ++ flag ++ phase).extractLsb' 2 1 = flag ∧
    (hi ++ err ++ gap ++ flag ++ phase).extractLsb' 3 5 = gap ∧
    (hi ++ err ++ gap ++ flag ++ phase).extractLsb' 8 8 = err ∧
    (hi ++ err ++ gap ++ flag ++ phase).extractLsb' 16 16 = hi := by
  refine ⟨?_, ?_, ?_, ?_, ?_⟩
  · exact BitVec.extractLsb'_append_eq_right
  · rw [BitVec.extractLsb'_append_eq_of_le (by decide)]
    exact BitVec.extractLsb'_append_eq_right
  · iterate 2 rw [BitVec.extractLsb'_append_eq_of_le (by decide)]
    exact BitVec.extractLsb'_append_eq_right
  · iterate 3 rw [BitVec.extractLsb'_append_eq_of_le (by decide)]
    exact BitVec.extractLsb'_append_eq_right
  · iterate 3 rw [BitVec.extractLsb'_append_eq_of_le (by decide)]
    exact BitVec.extractLsb'_append_eq_left

theorem statusFields_unitStatusWord (ph : Phase) (f : Bool) (e : Status) :
    StatusFields (unitStatusWord ph f e) ph f e := by
  obtain ⟨hphase, hflag, hgap, herr, hhi⟩ :=
    extractLsb'_statusLayout 0#16 e.code 0#5 (BitVec.ofBool f) ph.code
  have hbit : (unitStatusWord ph f e).getLsbD 2 = (BitVec.ofBool f).getLsbD 0 := by
    rw [← hflag, BitVec.getLsbD_extractLsb']
    rfl
  exact ⟨hphase.trans (by cases ph <;> rfl), hbit.trans (by cases f <;> rfl), hgap, herr, hhi⟩

theorem gridStatusWord_valid (valid : Bool) : (gridStatusWord valid).getLsbD 0 = valid := by
  cases valid <;> rfl

theorem gridStatusWord_reserved (valid : Bool) : (gridStatusWord valid).extractLsb' 1 31 = 0 :=
  BitVec.extractLsb'_append_eq_left

/-- The invariant behind "both read 0 while no grid exists" (10_state.md R47). -/
theorem Grid.Inv.shape_eq_zero {p : Params} {g : Grid} (h : Grid.Inv p g) (hv : g.valid = false) :
    g.rows = 0 ∧ g.cols = 0 := by
  have hshape := h.shape
  rwa [hv] at hshape

end Sys2Proof.Machine
end

section
/-! PROOFS. NOP and READ_CSR (43_control.md R160, R161). -/

namespace Sys2Proof.Machine

/-- Settles O18: the selection word of NOP, the check of the reserved field that comes after the opcode check, and the
answer. -/
theorem nopDoesNothing : Obligations.NopDoesNothing := by
  unfold Obligations.NopDoesNothing
  refine ⟨fun c hw => decode_of_w0 (op := 0x00#8) hw rfl, fun s c rest hs hop hrsv => ?_,
    fun s => answers_of_eq_answer (rfl : execNop s = answer s .done)⟩
  have hrow : decodeOp c.op c.w1 c.w2 c.w3 = some .nop := by rw [Command.op, hop]; rfl
  have hdec : decode c = .error .reserved := (decode_eq_error_reserved_iff c).mpr ⟨by simp [hrow], hrsv⟩
  exact onlyRaises_of_eq_raise (step_of_decode_error hs hdec)

/-- Settles O19: each number by its row of the CSR map, the status words by their fields, and the shape registers
without a grid by the invariant. -/
theorem readCsrReads : Obligations.ReadCsrReads := by
  unfold Obligations.ReadCsrReads
  refine ⟨fun c hw => decode_of_w0 (op := 0x01#8) hw rfl, fun s => ?_, fun s hinv hv => ?_⟩
  · exact ⟨csrReads_csrValue .id rfl, csrReads_csrValue .dictCap rfl, csrReads_csrValue .gridCap rfl,
      ⟨_, csrReads_csrValue .encStatus rfl, statusFields_unitStatusWord ..⟩, csrReads_csrValue .encNext rfl,
      csrReads_csrValue .encWcode rfl, csrReads_csrValue .encErrInfo rfl,
      ⟨_, csrReads_csrValue .decStatus rfl, statusFields_unitStatusWord ..⟩, csrReads_csrValue .decNext rfl,
      csrReads_csrValue .decWcode rfl, csrReads_csrValue .decErrInfo rfl,
      ⟨_, csrReads_csrValue .gridStatus rfl, gridStatusWord_valid _, gridStatusWord_reserved _⟩,
      csrReads_csrValue .gridRows rfl, csrReads_csrValue .gridCols rfl,
      fun n hn => onlyRaises_of_csrOfNumber_eq_none (csrOfNumber_eq_none hn)⟩
  · obtain ⟨hrows, hcols⟩ := hinv.grid.shape_eq_zero hv
    have hr : CsrReads s 0x31 s.grid.rows := csrReads_csrValue .gridRows rfl
    have hc : CsrReads s 0x32 s.grid.cols := csrReads_csrValue .gridCols rfl
    rw [hrows] at hr
    rw [hcols] at hc
    exact ⟨hr, hc⟩

end Sys2Proof.Machine
end

section
/-! SUPPORT. What an error response leaves of the state (60_exceptions.md R172 to R174), command by command. -/

namespace Sys2Proof.Machine

variable {i : Instr} {s t u : State} {r r' : Response} {e : Status} {info : Word}

theorem execEncGrid_of_unwritten (ha : s.enc.phase = .active) (hv : s.grid.valid = true)
    (hcs : s.grid.symbols = none) : execEncGrid s = .fault .unwrittenCell := by
  simp [execEncGrid, ha, hv, hcs]

theorem Pushes.response_of_complete {p : Pushes} (h : p.complete = true) : p.response = .emitted p.out := if_pos h

theorem Pushes.response_of_stopped {p : Pushes} (h : p.complete = false) :
    p.response = ⟨.capacityExceeded, 0x1#32, 0x0#32, p.out⟩ := by
  simp [Pushes.response, h]

/-- A step on a command that decodes runs it on the state without that input (20_memory.md R57, R61). -/
theorem step_of_decode_ok {c : Command} {rest : List Input} (hs : s.inputs = .command c :: rest)
    (hd : decode c = .ok i) : step s = exec i { s with inputs := rest } := by
  simp only [step, State.take, hs, hd]

/-! ### The response of an answer -/

/-- The one response that `t` gives beyond those of `s` is the one answered. -/
theorem response_unique (ht : t = u.respond r') (hu : u.rsps = s.rsps) (hr : t.rsps = s.rsps ++ [r]) : r' = r := by
  rw [ht, State.respond_rsps, hu] at hr
  exact List.singleton_inj.mp (List.append_cancel_left hr)

theorem status_eq_ok_of_answer (h : answer u r' = .next t) (hu : u.rsps = s.rsps) (hok : r'.status = .ok)
    (hr : t.rsps = s.rsps ++ [r]) : r.status = .ok := by
  rw [← response_unique (eq_respond_of_answer h) hu hr, hok]

theorem raise_effect (h : raise e info s = .next t) (hr : t.rsps = s.rsps ++ [r]) :
    r.status = e ∧ t = s.respond r := by
  obtain rfl := response_unique (eq_respond_of_answer h) rfl hr
  exact ⟨rfl, eq_respond_of_answer h⟩

theorem raiseEnc_effect (h : raiseEnc e info s = .next t) (hr : t.rsps = s.rsps ++ [r]) :
    r.status = e ∧ t = ({ s with enc := s.enc.fail r.status r.info }).respond r := by
  obtain rfl := response_unique (eq_respond_of_answer h) rfl hr
  exact ⟨rfl, eq_respond_of_answer h⟩

theorem raiseDec_effect (h : raiseDec e info s = .next t) (hr : t.rsps = s.rsps ++ [r]) :
    r.status = e ∧ t = ({ s with dec := s.dec.fail r.status r.info }).respond r := by
  obtain rfl := response_unique (eq_respond_of_answer h) rfl hr
  exact ⟨rfl, eq_respond_of_answer h⟩

/-! ### The effect of an error -/

/-- What the error response `r` of an instruction leaves in `t` of the state `s` it runs in: the failed call of a codec
unit (60_exceptions.md R173), or nothing changed (R174). -/
inductive ErrorEffect (s t : State) (r : Response) : Instr → Prop
  | encPush {c : Int} (hstatus : r.status = .outOfRange ∨ r.status = .capacityExceeded)
      (ht : t = ({ s with enc := s.enc.fail r.status r.info }).respond r) : ErrorEffect s t r (.encPush c)
  | encGrid (hstatus : r.status = .capacityExceeded) (hphase : t.enc.phase = .faulted) (herr : t.enc.err = r.status)
      (hinfo : t.enc.errInfo = r.info) (ht : t = ({ s with enc := t.enc }).respond r) : ErrorEffect s t r .encGrid
  | decPush {k : Nat} (hstatus : r.status = .malformedCode ∨ r.status = .capacityExceeded)
      (ht : t = ({ s with dec := s.dec.fail r.status r.info }).respond r) : ErrorEffect s t r (.decPush k)
  | decFinish (hstatus : r.status = .emptyInput)
      (ht : t = ({ s with dec := s.dec.fail r.status r.info }).respond r) : ErrorEffect s t r .decFinish
  | unchanged {i : Instr}
      (hcause : r.status = .sequenceError ∨ r.status = .illegalCommand ∨ isGridCommand i = true)
      (ht : t = s.respond r) : ErrorEffect s t r i

theorem ErrorEffect.of_raise_sequenceError (h : raise .sequenceError info s = .next t)
    (hr : t.rsps = s.rsps ++ [r]) : ErrorEffect s t r i := by
  obtain ⟨hstatus, ht⟩ := raise_effect h hr
  exact .unchanged (.inl hstatus) ht

section
variable (hr : t.rsps = s.rsps ++ [r]) (he : r.status ≠ .ok)
include hr he

/-- A grid command that answers with an error has left its grid as it was. -/
theorem eq_respond_of_gridCommand_error (hi : isGridCommand i = true) (h : exec i s = .next t) : t = s.respond r := by
  have only : (∃ r', t = s.respond r') → t = s.respond r := by
    rintro ⟨r', ht⟩
    rwa [response_unique ht rfl hr] at ht
  have done : ∀ {g : Grid}, t ≠ ({ s with grid := g }).respond .done := by
    intro g ht
    exact he (by rw [← response_unique ht rfl hr]; rfl)
  cases i with
  | gridCreate rows cols =>
    rcases execGridCreate_cases h with hraised | ⟨-, -, -, ht⟩
    · exact only hraised.eq_respond
    · exact absurd ht done
  | gridClear value =>
    rcases execGridClear_cases h with hraised | ⟨-, -, ht⟩
    · exact only hraised.eq_respond
    · exact absurd ht done
  | gridSet row col value =>
    rcases execGridSet_cases h with hraised | ⟨-, -, -, ht⟩
    · exact only hraised.eq_respond
    · exact absurd ht done
  | gridGet row col => exact only (execGridGet_eq_respond h)
  | gridRows => exact only (execGridRows_eq_respond h)
  | gridCols => exact only (execGridCols_eq_respond h)
  | nop | readCsr | encStart | encPush | encFlush | encGrid | decStart | decPush | decFinish => cases hi

theorem execReadCsr_error {n : Nat} (h : execReadCsr n s = .next t) : r.status = .illegalCommand ∧ t = s.respond r := by
  unfold execReadCsr at h
  split at h
  · exact raise_effect h hr
  · exact absurd (status_eq_ok_of_answer h rfl rfl hr) he

theorem execEncPush_errorEffect {c : Int} (ha : s.enc.phase = .active) (h : execEncPush c s = .next t) :
    ErrorEffect s t r (.encPush c) := by
  cases hsym : isSym c with
  | false =>
    rw [execEncPush_of_not_isSym ha hsym] at h
    obtain ⟨hstatus, ht⟩ := raiseEnc_effect h hr
    exact .encPush (.inl hstatus) ht
  | true =>
    cases hpush : s.enc.push s.cfg.dictCap (symOf c) with
    | none =>
      rw [execEncPush_of_push_none ha hsym hpush] at h
      obtain ⟨hstatus, ht⟩ := raiseEnc_effect h hr
      exact .encPush (.inr hstatus) ht
    | some pushed =>
      rw [execEncPush_of_push_some ha hsym hpush] at h
      exact absurd (status_eq_ok_of_answer h rfl rfl hr) he

/-- ENC_GRID answers with an error where its pushes stop, with what the stop wrote in the unit (41_encoder.md R127). -/
theorem pushAll_errorEffect {cap : Word} {cs : List Byte}
    (h : answer { s with enc := (s.enc.pushAll cap cs).enc } (s.enc.pushAll cap cs).response = .next t) :
    ErrorEffect s t r .encGrid := by
  rcases Encoder.pushAll_ends cap s.enc cs with ⟨hcomplete, -⟩ | ⟨hstop, hphase, herr, hinfo⟩
  · rw [Pushes.response_of_complete hcomplete] at h
    exact absurd (status_eq_ok_of_answer h rfl rfl hr) he
  · rw [Pushes.response_of_stopped hstop] at h
    have ht := eq_respond_of_answer h
    obtain rfl := response_unique ht rfl hr
    subst ht
    exact .encGrid rfl hphase herr hinfo rfl

theorem execEncGrid_errorEffect (ha : s.enc.phase = .active) (h : execEncGrid s = .next t) :
    ErrorEffect s t r .encGrid := by
  cases hv : s.grid.valid with
  | false =>
    rw [execEncGrid_of_no_grid ha hv] at h
    exact .of_raise_sequenceError h hr
  | true =>
    cases hcs : s.grid.symbols with
    | none =>
      rw [execEncGrid_of_unwritten ha hv hcs] at h
      cases h
    | some cs =>
      rw [execEncGrid_of_symbols ha hv hcs] at h
      exact pushAll_errorEffect hr he h

theorem exec_encCommand_errorEffect (hi : isEncCommand i = true) (h : exec i s = .next t) : ErrorEffect s t r i := by
  by_cases hstart : i = .encStart
  · subst hstart
    exact absurd (status_eq_ok_of_answer h rfl rfl hr) he
  by_cases ha : s.enc.phase = .active
  · cases i with
    | encStart => exact absurd rfl hstart
    | encPush c => exact execEncPush_errorEffect hr he ha h
    | encFlush =>
      have h := (execEncFlush_of_active ha).symm.trans h
      exact absurd (status_eq_ok_of_answer h rfl rfl hr) he
    | encGrid => exact execEncGrid_errorEffect hr he ha h
    | nop | readCsr | gridCreate | gridClear | gridGet | gridSet | gridRows | gridCols | decStart | decPush
    | decFinish => cases hi
  · rw [exec_encCommand_of_not_active hi hstart ha] at h
    exact .of_raise_sequenceError h hr

theorem decPushFirst_errorEffect {k : Nat} (h : decPushFirst k s = .next t) : ErrorEffect s t r (.decPush k) := by
  rcases Nat.lt_or_ge k 256 with hk | hk
  · rw [decPushFirst_of_seed hk] at h
    exact absurd (status_eq_ok_of_answer h rfl rfl hr) he
  · rw [decPushFirst_of_malformed hk] at h
    obtain ⟨hstatus, ht⟩ := raiseDec_effect h hr
    exact .decPush (.inl hstatus) ht

theorem decPushLater_errorEffect {k : Nat} (h : decPushLater k s = .next t) : ErrorEffect s t r (.decPush k) := by
  unfold decPushLater at h
  simp only at h
  split at h
  · obtain ⟨hstatus, ht⟩ := raiseDec_effect h hr
    exact .decPush (.inl hstatus) ht
  · split at h
    · obtain ⟨hstatus, ht⟩ := raiseDec_effect h hr
      exact .decPush (.inr hstatus) ht
    · split at h
      · exact absurd (status_eq_ok_of_answer h rfl rfl hr) he
      · cases h

theorem exec_decCommand_errorEffect (hi : isDecCommand i = true) (h : exec i s = .next t) : ErrorEffect s t r i := by
  by_cases hstart : i = .decStart
  · subst hstart
    exact absurd (status_eq_ok_of_answer h rfl rfl hr) he
  by_cases ha : s.dec.phase = .active
  · cases i with
    | decStart => exact absurd rfl hstart
    | decPush k =>
      cases hseen : s.dec.seen with
      | false => exact decPushFirst_errorEffect hr he ((execDecPush_of_not_seen ha hseen).symm.trans h)
      | true => exact decPushLater_errorEffect hr he ((execDecPush_of_seen ha hseen).symm.trans h)
    | decFinish =>
      cases hseen : s.dec.seen with
      | false =>
        obtain ⟨hstatus, ht⟩ := raiseDec_effect ((execDecFinish_of_not_seen ha hseen).symm.trans h) hr
        exact .decFinish hstatus ht
      | true =>
        have h := (execDecFinish_of_seen ha hseen).symm.trans h
        exact absurd (status_eq_ok_of_answer h rfl rfl hr) he
    | nop | readCsr | gridCreate | gridClear | gridGet | gridSet | gridRows | gridCols | encStart | encPush | encFlush
    | encGrid => cases hi
  · rw [exec_decCommand_of_not_active hi hstart ha] at h
    exact .of_raise_sequenceError h hr

/-- An instruction that answers with an error has the effect of that error. -/
theorem exec_errorEffect (h : exec i s = .next t) : ErrorEffect s t r i := by
  cases i with
  | nop => exact absurd (status_eq_ok_of_answer h rfl rfl hr) he
  | readCsr n =>
    obtain ⟨hstatus, ht⟩ := execReadCsr_error hr he h
    exact .unchanged (.inr (.inl hstatus)) ht
  | gridCreate | gridClear | gridGet | gridSet | gridRows | gridCols =>
    exact .unchanged (.inr (.inr rfl)) (eq_respond_of_gridCommand_error hr he rfl h)
  | encStart | encPush | encFlush | encGrid => exact exec_encCommand_errorEffect hr he rfl h
  | decStart | decPush | decFinish => exact exec_decCommand_errorEffect hr he rfl h

end

end Sys2Proof.Machine
end

section
/-! PROOFS. The status codes, what an error changes, and the way out of FAULTED (60_exceptions.md R170, R173, R174,
R176). -/

namespace Sys2Proof.Machine

variable {i : Instr} {s t : State}

/-- A code of the reserved range is none of the nine rows of `statusOfCode` (60_exceptions.md R170). -/
theorem statusOfCode_eq_none {b : Byte} (h : 9 ≤ b.toNat) : statusOfCode b = none := by
  unfold statusOfCode
  split
  case h_10 => rfl
  all_goals exact absurd h (by decide)

theorem statusOfCode_code (e : Status) : statusOfCode e.code = some e := by cases e <;> rfl

theorem Status.code_toNat_le (e : Status) : e.code.toNat ≤ 8 := by cases e <;> decide

/-- Settles O20: each code by its row of the table. -/
theorem statusCodes : Obligations.StatusCodes := by
  unfold Obligations.StatusCodes
  exact ⟨rfl, rfl, rfl, rfl, rfl, rfl, rfl, rfl, rfl, fun e => ⟨e.code_toNat_le, statusOfCode_code e⟩,
    fun _ => statusOfCode_eq_none⟩

/-- Settles O17: an illegal command word raises its error only, and an instruction that answers with an error has the
effect of that error. -/
theorem errorEffects : Obligations.ErrorEffects := by
  unfold Obligations.ErrorEffects
  intro s t c rest r hin hstep hr he
  cases hdec : decode c with
  | error why =>
    rw [step_of_decode_error hin hdec] at hstep
    obtain ⟨hstatus, ht⟩ := raise_effect (s := { s with inputs := rest }) hstep hr
    exact .inr (.inr (.inr ⟨.inr (.inl hstatus), ht⟩))
  | ok i =>
    rw [step_of_decode_ok hin hdec] at hstep
    cases exec_errorEffect (s := { s with inputs := rest }) hr he hstep with
    | encPush hstatus ht => exact .inl ⟨⟨_, rfl⟩, hstatus, ht⟩
    | encGrid hstatus hphase herr hinfo ht => exact .inr (.inl ⟨rfl, hstatus, hphase, herr, hinfo, ht⟩)
    | decPush hstatus ht => exact .inr (.inr (.inl ⟨.inl ⟨⟨_, rfl⟩, hstatus⟩, ht⟩))
    | decFinish hstatus ht => exact .inr (.inr (.inl ⟨.inr ⟨rfl, hstatus⟩, ht⟩))
    | unchanged hcause ht =>
      exact .inr (.inr (.inr ⟨hcause.imp_right (.imp_right fun hi => ⟨i, rfl, hi⟩), ht⟩))

/-- While the encoder is FAULTED, every instruction but ENC_START keeps it. -/
theorem exec_enc_of_faulted (hf : s.enc.phase = .faulted) (h : exec i s = .next t) :
    t.enc = s.enc ∨ (i = .encStart ∧ t.enc = s.enc.start) := by
  cases hi : isEncCommand i with
  | false => exact .inl (exec_enc_of_not_encCommand hi h)
  | true =>
    by_cases hstart : i = .encStart
    · subst hstart
      exact .inr ⟨rfl, congrArg State.enc (eq_respond_of_answer h)⟩
    · rw [exec_encCommand_of_not_active hi hstart (by simp [hf])] at h
      exact .inl (raisedOnly_of_raise h).enc_eq

/-- While the decoder is FAULTED, every instruction but DEC_START keeps it. -/
theorem exec_dec_of_faulted (hf : s.dec.phase = .faulted) (h : exec i s = .next t) :
    t.dec = s.dec ∨ (i = .decStart ∧ t.dec = s.dec.start) := by
  cases hi : isDecCommand i with
  | false => exact .inl (exec_dec_of_not_decCommand hi h)
  | true =>
    by_cases hstart : i = .decStart
    · subst hstart
      exact .inr ⟨rfl, congrArg State.dec (eq_respond_of_answer h)⟩
    · rw [exec_decCommand_of_not_active hi hstart (by simp [hf])] at h
      exact .inl (raisedOnly_of_raise h).dec_eq

/-- Settles O43: by the cases of a step, and for an instruction by what it can do to a FAULTED unit. -/
theorem faultedUntilStartOrReset : Obligations.FaultedUntilStartOrReset := by
  unfold Obligations.FaultedUntilStartOrReset
  intro s t ht
  rcases step_cases s with ⟨-, hstep⟩ | ⟨rest, hin, hstep⟩ | ⟨c, rest, why, -, -, hstep⟩ |
    ⟨c, rest, i, hin, hdec, hstep⟩
  · rw [hstep] at ht
    cases ht
    exact ⟨fun _ => .inl rfl, fun _ => .inl rfl⟩
  · rw [hstep] at ht
    cases ht
    exact ⟨fun _ => .inr (.inl ⟨rest, hin, rfl, rfl, rfl⟩), fun _ => .inr (.inl ⟨rest, hin, rfl, rfl, rfl⟩)⟩
  · rw [hstep] at ht
    have hraised := raisedOnly_of_raise ht
    exact ⟨fun _ => .inl hraised.enc_eq, fun _ => .inl hraised.dec_eq⟩
  · rw [hstep] at ht
    constructor
    · intro hf
      rcases exec_enc_of_faulted (s := { s with inputs := rest }) hf ht with hkeep | ⟨rfl, hstart⟩
      · exact .inl hkeep
      · rw [hstart]
        exact .inr (.inr ⟨c, rest, hin, hdec, rfl, rfl, rfl, rfl, rfl⟩)
    · intro hf
      rcases exec_dec_of_faulted (s := { s with inputs := rest }) hf ht with hkeep | ⟨rfl, hstart⟩
      · exact .inl hkeep
      · rw [hstart]
        exact .inr (.inr ⟨c, rest, hin, hdec, rfl, rfl, rfl, rfl, rfl⟩)

end Sys2Proof.Machine
end

section
/-! PROOFS. Reset (70_reset_and_hazards.md R190). -/

namespace Sys2Proof.Machine

/-- A step on a reset applies it to the state without that input (70_reset_and_hazards.md R190). -/
theorem step_of_reset {s : State} {rest : List Input} (hs : s.inputs = .reset :: rest) :
    step s = .next ({ s with inputs := rest }).applyReset := by
  simp only [step, State.take, hs]

/-- ENC_STATUS and DEC_STATUS read 0 for the reset values of their fields (10_state.md R40, R43, R45). -/
theorem unitStatusWord_idle_ok : unitStatusWord .idle false .ok = 0 := by decide

/-- GRID_STATUS reads 0 while no grid exists (10_state.md R40, R47). -/
theorem gridStatusWord_false : gridStatusWord false = 0 := by decide

/-- The one fact about reset: it writes every register, so what `s` held does not matter. The registers of the three units
and the CSRs that read one register or a constant are at their reset values by what reset writes; the status words are
composed of several fields. -/
theorem State.applyReset_atReset (s : State) : AtReset s.cfg s.applyReset := by
  have hencStatus : csrValue s.applyReset .encStatus = 0 := unitStatusWord_idle_ok
  have hdecStatus : csrValue s.applyReset .decStatus = 0 := unitStatusWord_idle_ok
  have hgridStatus : csrValue s.applyReset .gridStatus = 0 := gridStatusWord_false
  exact ⟨s.applyReset_cfg,
    /- G -/ rfl, rfl, rfl,
    /- E -/ rfl, rfl, rfl, rfl, rfl, rfl,
    /- D -/ rfl, rfl, rfl, rfl, rfl, rfl,
    /- CSRs -/ rfl, rfl, rfl, hencStatus, rfl, rfl, rfl, hdecStatus, rfl, rfl, rfl, hgridStatus, rfl, rfl⟩

/-- Resetting the state after reset again changes nothing, which makes `State.resetWith` a case of `State.applyReset`. -/
theorem State.applyReset_resetWith (p : Params) : (State.resetWith p).applyReset = State.resetWith p := rfl

theorem State.resetWith_atReset (p : Params) : AtReset p (State.resetWith p) := by
  rw [← State.applyReset_resetWith]
  exact (State.resetWith p).applyReset_atReset

/-- Settles O10: a step on a reset applies it, and a reset applied to any state writes every register. -/
theorem resetSetsEveryRegister : Obligations.ResetSetsEveryRegister := by
  unfold Obligations.ResetSetsEveryRegister
  refine ⟨State.resetWith_atReset, State.resetWith_atReset Config.params, fun s rest hs => ?_⟩
  exact ⟨_, step_of_reset hs, State.applyReset_atReset { s with inputs := rest }, rfl⟩

end Sys2Proof.Machine
end

section
/-! PROOFS. `encode` and `decode` are inverse to each other, and the words that are no command (30_encoding.md R70 to
R75, R83). -/

namespace Sys2Proof

open Machine

/-! ### Operands and their words -/

theorem word32_sint32 (w : Word) : word32 (sint32 w) = w := BitVec.ofInt_toInt

theorem zext32_uint32 (w : Word) : zext32 (uint32 w) = w := (BitVec.ofNat_toNat 32 w).trans (BitVec.setWidth_eq w)

theorem uint32_zext32 {n : Nat} (h : fitsUnsigned n = true) : uint32 (zext32 n) = n :=
  Machine.zext32_toNat (of_decide_eq_true h)

theorem fitsSigned_sint32 (w : Word) : fitsSigned (sint32 w) = true :=
  decide_eq_true ⟨BitVec.le_toInt w, BitVec.toInt_lt⟩

theorem fitsUnsigned_uint32 (w : Word) : fitsUnsigned (uint32 w) = true := decide_eq_true w.isLt

/-! ### Decoding what was encoded -/

/-- The row of an opcode reads back the operands of a well-formed instruction (30_encoding.md R71). -/
theorem decodeOp_operands {i : Instr} (h : i.wf = true) :
    decodeOp i.opcode i.operandA i.operandB i.operandC = some i := by
  cases i with
  | nop | gridRows | gridCols | encStart | encFlush | encGrid | decStart | decFinish => rfl
  | readCsr n => exact congrArg (fun x => some (Instr.readCsr x)) (uint32_zext32 h)
  | decPush k => exact congrArg (fun x => some (Instr.decPush x)) (uint32_zext32 h)
  | gridClear v => exact congrArg (fun x => some (Instr.gridClear x)) (sint32_word32 h)
  | encPush c => exact congrArg (fun x => some (Instr.encPush x)) (sint32_word32 h)
  | gridCreate rows cols =>
    obtain ⟨hr, hc⟩ := Bool.and_eq_true_iff.mp h
    exact congrArg₂ (fun a b => some (Instr.gridCreate a b)) (sint32_word32 hr) (sint32_word32 hc)
  | gridGet row col =>
    obtain ⟨hr, hc⟩ := Bool.and_eq_true_iff.mp h
    exact congrArg₂ (fun a b => some (Instr.gridGet a b)) (sint32_word32 hr) (sint32_word32 hc)
  | gridSet row col v =>
    obtain ⟨hrc, hv⟩ := Bool.and_eq_true_iff.mp h
    obtain ⟨hr, hc⟩ := Bool.and_eq_true_iff.mp hrc
    show some (Instr.gridSet (sint32 (word32 row)) (sint32 (word32 col)) (sint32 (word32 v))) = _
    rw [sint32_word32 hr, sint32_word32 hc, sint32_word32 hv]

theorem decode_encode {i : Instr} (h : i.wf = true) : decode (encode i) = .ok i :=
  decode_select (decodeOp_operands h)

/-- Settles O1: the row of each opcode reads its operand words back. -/
theorem decodeOfEncode : Obligations.DecodeOfEncode := by
  unfold Obligations.DecodeOfEncode
  exact fun _ => decode_encode

/-! ### Encoding what was decoded -/

/-- What the rows of the opcode map give: operands in range, whose words are the operand words that the opcode uses, and
0 in the others (30_encoding.md R71, R72). -/
theorem decodeOp_inv {op : Byte} {a b c : Word} {i : Instr} (h : decodeOp op a b c = some i) :
    i.wf = true ∧ i.operandA = (if 1 ≤ operandCount op then a else 0) ∧
      i.operandB = (if 2 ≤ operandCount op then b else 0) ∧
      i.operandC = (if 3 ≤ operandCount op then c else 0) := by
  unfold decodeOp at h
  split at h <;> cases h
  case h_2 | h_14 => exact ⟨fitsUnsigned_uint32 a, zext32_uint32 a, rfl, rfl⟩
  case h_4 | h_10 => exact ⟨fitsSigned_sint32 a, word32_sint32 a, rfl, rfl⟩
  case h_3 | h_5 =>
    exact ⟨Bool.and_eq_true_iff.mpr ⟨fitsSigned_sint32 a, fitsSigned_sint32 b⟩, word32_sint32 a, word32_sint32 b, rfl⟩
  case h_6 =>
    exact ⟨Bool.and_eq_true_iff.mpr ⟨Bool.and_eq_true_iff.mpr ⟨fitsSigned_sint32 a, fitsSigned_sint32 b⟩,
      fitsSigned_sint32 c⟩, word32_sint32 a, word32_sint32 b, word32_sint32 c⟩
  all_goals exact ⟨rfl, rfl, rfl, rfl⟩

/-- Settles O2: the selection word is fixed by the opcode and the zero reserved field, and the operand words by the row
of the opcode. -/
theorem encodeOfDecode : Obligations.EncodeOfDecode := by
  unfold Obligations.EncodeOfDecode
  intro c i h
  obtain ⟨hwf, hwords⟩ := decodeOp_inv (decode_ok_inv h).1
  exact ⟨hwf, (decode_ok_w0 h).symm, hwords⟩

/-! ### The encoded examples and illegal commands -/

theorem decode_of_encode_eq {i : Instr} {c : Command} (hwf : i.wf = true) (h : encode i = c) : decode c = .ok i :=
  h ▸ decode_encode hwf

/-- An opcode has a row exactly when it is assigned (30_encoding.md R73). -/
theorem decodeOp_eq_none_iff (op : Byte) (a b c : Word) : decodeOp op a b c = none ↔ op ∉ opcodes := by
  constructor
  · intro h hop
    simp only [opcodes, List.mem_cons, List.not_mem_nil, or_false] at hop
    rcases hop with rfl | rfl | rfl | rfl | rfl | rfl | rfl | rfl | rfl | rfl | rfl | rfl | rfl | rfl | rfl <;> cases h
  · intro hop
    cases h : decodeOp op a b c with
    | none => rfl
    | some i => exact absurd (decodeOp_eq_some_opcode h ▸ i.opcode_mem_opcodes) hop

theorem decode_of_unassigned {c : Command} (h : c.op ∉ opcodes) : decode c = .error .opcode :=
  (decode_eq_error_opcode_iff c).mpr ((decodeOp_eq_none_iff ..).mpr h)

theorem decode_of_reserved {c : Command} (h : c.op ∈ opcodes) (hr : c.rsv ≠ 0) : decode c = .error .reserved :=
  (decode_eq_error_reserved_iff c).mpr ⟨fun hn => (decodeOp_eq_none_iff ..).mp hn h, hr⟩

/-- Settles O5: each row's words by evaluation, and its decoding by `decode_encode`; the illegal rows by their opcode
and their reserved field. -/
theorem encodedExamples : Obligations.EncodedExamples := by
  unfold Obligations.EncodedExamples
  refine ⟨rfl, rfl, rfl, rfl, rfl, rfl, rfl, rfl, rfl, rfl, rfl, rfl, rfl, rfl, rfl, rfl, rfl, ?_⟩
  refine ⟨decode_of_encode_eq rfl rfl, decode_of_encode_eq rfl rfl, decode_of_encode_eq rfl rfl,
    decode_of_encode_eq rfl rfl, decode_of_encode_eq rfl rfl, decode_of_encode_eq rfl rfl,
    decode_of_encode_eq rfl rfl, decode_of_encode_eq rfl rfl, decode_of_encode_eq rfl rfl,
    decode_of_encode_eq rfl rfl, decode_of_encode_eq rfl rfl, decode_of_encode_eq rfl rfl,
    decode_of_encode_eq rfl rfl, decode_of_encode_eq rfl rfl, decode_of_encode_eq rfl rfl,
    decode_of_encode_eq rfl rfl, decode_of_encode_eq rfl rfl, fun a b c => ⟨?_, ?_, rfl⟩⟩
  · exact decode_of_unassigned (show (0x00000024#32).extractLsb' 0 8 ∉ opcodes by decide)
  · exact decode_of_reserved (show (0x00000121#32).extractLsb' 0 8 ∈ opcodes by decide)
      (show (0x00000121#32).extractLsb' 8 24 ≠ 0 by decide)

/-- Settles O6: the opcode check and then the reserved field decide the error of the decoder, which a step raises. -/
theorem illegalCommandChangesNothing : Obligations.IllegalCommandChangesNothing := by
  unfold Obligations.IllegalCommandChangesNothing
  intro s c rest hs
  constructor
  · intro hop
    exact onlyRaises_of_eq_raise (step_of_decode_error hs (decode_of_unassigned hop))
  · intro hop hrsv
    exact onlyRaises_of_eq_raise (step_of_decode_error hs (decode_of_reserved hop hrsv))

end Sys2Proof
end

section
/-! PROOFS. A response as words (30_encoding.md R78, R80). -/

namespace Sys2Proof.Machine

/-- Word R0 of a response (30_encoding.md R78). -/
theorem toNat_zero_append_code (b : Byte) : (0#24 ++ b).toNat = b.toNat := by
  rw [BitVec.toNat_append, BitVec.toNat_zero, Nat.zero_shiftLeft, Nat.zero_or]

theorem Response.words_length (r : Response) : r.words.length = 4 + r.out.length := by
  simp only [Response.words, List.length_cons]
  omega

/-- The reader takes back the four words and as many words of OUT as R3 says (30_encoding.md R80). -/
theorem responseOfWords_words_append {r : Response} (h : r.out.length < 2 ^ 32) (rest : List Word) :
    responseOfWords (r.words ++ rest) = some (r, rest) := by
  have hreserved : (0#24 ++ r.status.code).extractLsb' 8 24 = 0 := BitVec.extractLsb'_append_eq_left
  have hstatus : (0#24 ++ r.status.code).extractLsb' 0 8 = r.status.code := BitVec.extractLsb'_append_eq_right
  simp only [Response.words, List.cons_append, responseOfWords, hreserved, hstatus, statusOfCode_code, zext32_toNat h,
    if_true, List.length_append, Nat.le_add_right, List.take_left, List.drop_left]

/-- Settles O8: the length, word R0 and the reader. -/
theorem responseReadsBack : Obligations.ResponseReadsBack := by
  unfold Obligations.ResponseReadsBack
  intro r rest h
  exact ⟨r.words_length, ⟨_, rfl, toNat_zero_append_code _⟩, responseOfWords_words_append h rest⟩

end Sys2Proof.Machine
end

section
/-! PROOFS. The invariant at reset and over every step, and that a step from a state that meets it never stops
(10_state.md R33, R34, R49). -/

namespace Sys2Proof.Machine

variable {i : Instr} {s t : State}

/-! ### Updates of one unit -/

theorem State.Inv.respond (h : s.Inv) (r : Response) : (s.respond r).Inv := ⟨h.params, h.grid, h.enc, h.dec⟩

theorem State.Inv.setInputs (h : s.Inv) (l : List Input) : State.Inv { s with inputs := l } :=
  ⟨h.params, h.grid, h.enc, h.dec⟩

theorem State.Inv.setGrid {g : Grid} (h : s.Inv) (hg : Grid.Inv s.cfg g) : State.Inv { s with grid := g } :=
  ⟨h.params, hg, h.enc, h.dec⟩

theorem State.Inv.setEnc {u : Encoder} (h : s.Inv) (hu : Encoder.Inv s.cfg u) : State.Inv { s with enc := u } :=
  ⟨h.params, h.grid, hu, h.dec⟩

theorem State.Inv.setDec {u : Decoder} (h : s.Inv) (hu : Decoder.Inv s.cfg u) : State.Inv { s with dec := u } :=
  ⟨h.params, h.grid, h.enc, hu⟩

theorem RaisedOnly.inv (h : RaisedOnly s t) (hs : s.Inv) : t.Inv := by
  obtain ⟨e, info, rfl⟩ := h
  exact hs.respond _

theorem State.Inv.applyReset (h : s.Inv) : s.applyReset.Inv :=
  ⟨h.params, .atReset, .atReset h.params, .atReset h.params⟩

theorem State.Inv.resetWith {p : Params} (hp : p.legal) : (State.resetWith p).Inv :=
  ⟨hp, .atReset, .atReset hp, .atReset hp⟩

/-- Settles O11: each unit's invariant holds of its reset value. -/
theorem invAtReset : Obligations.InvAtReset := by
  unfold Obligations.InvAtReset
  exact ⟨fun _ => .resetWith, .resetWith (by decide)⟩

/-! ### The commands -/

theorem exec_gridCommand_keeps_inv (hi : isGridCommand i = true) (hs : s.Inv) (h : exec i s = .next t) : t.Inv := by
  have keep : (∃ r, t = s.respond r) → t.Inv := by
    rintro ⟨r, rfl⟩
    exact hs.respond r
  cases i with
  | gridCreate rows cols =>
    rcases execGridCreate_cases h with hr | ⟨hrows, hcols, hcap, rfl⟩
    · exact hr.inv hs
    · exact (hs.setGrid (hs.grid.create hrows hcols hcap)).respond _
  | gridClear value =>
    rcases execGridClear_cases h with hr | ⟨hv, -, rfl⟩
    · exact hr.inv hs
    · exact (hs.setGrid (hs.grid.fillCells hv _)).respond _
  | gridSet row col value =>
    rcases execGridSet_cases h with hr | ⟨hv, hin, -, rfl⟩
    · exact hr.inv hs
    · exact (hs.setGrid (hs.grid.setCell hv (Grid.idx_lt_size hin) _)).respond _
  | gridGet row col => exact keep (execGridGet_eq_respond h)
  | gridRows => exact keep (execGridRows_eq_respond h)
  | gridCols => exact keep (execGridCols_eq_respond h)
  | nop | readCsr | encStart | encPush | encFlush | encGrid | decStart | decPush | decFinish => cases hi

/-- ENC_PUSH fails the call with one of the two errors that the invariant allows (41_encoder.md R125). -/
theorem execEncPush_keeps_inv {c : Int} (hs : s.Inv) (h : execEncPush c s = .next t) : t.Inv := by
  by_cases ha : s.enc.phase = .active
  · cases hsym : isSym c with
    | false =>
      rw [execEncPush_of_not_isSym ha hsym] at h
      obtain rfl := eq_respond_of_answer h
      exact (hs.setEnc (hs.enc.fail (.inl rfl))).respond _
    | true =>
      cases hpush : s.enc.push s.cfg.dictCap (symOf c) with
      | none =>
        rw [execEncPush_of_push_none ha hsym hpush] at h
        obtain rfl := eq_respond_of_answer h
        exact (hs.setEnc (hs.enc.fail (.inr ⟨rfl, rfl⟩))).respond _
      | some pushed =>
        rw [execEncPush_of_push_some ha hsym hpush] at h
        obtain rfl := eq_respond_of_answer h
        exact (hs.setEnc (hs.enc.push hpush).1).respond _
  · have h := (exec_encCommand_of_not_active (i := .encPush c) rfl nofun ha).symm.trans h
    exact (raisedOnly_of_raise h).inv hs

theorem exec_encCommand_keeps_inv (hi : isEncCommand i = true) (hs : s.Inv) (h : exec i s = .next t) : t.Inv := by
  cases i with
  | encStart =>
    obtain rfl := eq_respond_of_answer h
    exact (hs.setEnc (hs.enc.start hs.params)).respond _
  | encPush c => exact execEncPush_keeps_inv hs h
  | encFlush =>
    rcases execEncFlush_cases h with ⟨-, hr⟩ | ⟨ha, rfl⟩
    · exact hr.inv hs
    · exact (hs.setEnc (hs.enc.finish ha)).respond _
  | encGrid =>
    rcases execEncGrid_cases h with hr | ⟨-, -, cs, -, rfl⟩
    · exact hr.inv hs
    · exact (hs.setEnc (hs.enc.pushAll cs).1).respond _
  | nop | readCsr | gridCreate | gridClear | gridGet | gridSet | gridRows | gridCols | decStart | decPush
  | decFinish => cases hi

theorem decPushFirst_keeps_inv {k : Nat} (hs : s.Inv) (h : decPushFirst k s = .next t) : t.Inv := by
  rcases Nat.lt_or_ge k 256 with hk | hk
  · rw [decPushFirst_of_seed hk] at h
    obtain rfl := eq_respond_of_answer h
    exact (hs.setDec (hs.dec.acceptFirst hk)).respond _
  · rw [decPushFirst_of_malformed hk] at h
    obtain rfl := eq_respond_of_answer h
    exact (hs.setDec (hs.dec.fail (.inl rfl))).respond _

/-- What DEC_PUSH does with a later code, from a state that meets the invariant (42_decoder.md R145, step 4): it is
malformed, or there is no room, or it has an entry and is consumed. -/
theorem decPushLater_eq (hs : s.Inv) (hseen : s.dec.seen = true) (k : Nat) :
    (s.dec.dict.next.toNat < k ∧ decPushLater k s = raiseDec .malformedCode (zext32 k) s) ∨
    (k ≤ s.dec.dict.next.toNat ∧ s.dec.dict.next = s.cfg.dictCap ∧
      decPushLater k s = raiseDec .capacityExceeded 0x2#32 s) ∨
    (k ≤ s.dec.dict.next.toNat ∧ s.dec.dict.next ≠ s.cfg.dictCap ∧
      ∃ v w, s.dec.entryOf (classify s.dec.dict.next k) k = some (v :: w) ∧
        decPushLater k s = answer { s with dec := s.dec.accept k v } (.emitted (symbolWords (v :: w)))) := by
  rcases Nat.lt_or_ge s.dec.dict.next.toNat k with hk | hk
  · exact .inl ⟨hk, decPushLater_of_malformed hk⟩
  · by_cases hfull : s.dec.dict.next = s.cfg.dictCap
    · exact .inr (.inl ⟨hk, hfull, decPushLater_of_full hk hfull⟩)
    · obtain ⟨v, w, hentry⟩ := hs.dec.entryOf_defined hseen hk
      exact .inr (.inr ⟨hk, hfull, v, w, hentry, decPushLater_of_entry hk hfull hentry⟩)

theorem decPushLater_keeps_inv {k : Nat} (hs : s.Inv) (hseen : s.dec.seen = true) (h : decPushLater k s = .next t) :
    t.Inv := by
  rcases decPushLater_eq hs hseen k with ⟨-, heq⟩ | ⟨-, -, heq⟩ | ⟨hk, hroom, v, w, -, heq⟩
  · obtain rfl := eq_respond_of_answer (heq.symm.trans h)
    exact (hs.setDec (hs.dec.fail (.inl rfl))).respond _
  · obtain rfl := eq_respond_of_answer (heq.symm.trans h)
    exact (hs.setDec (hs.dec.fail (.inr (.inr ⟨rfl, rfl⟩)))).respond _
  · obtain rfl := eq_respond_of_answer (heq.symm.trans h)
    exact (hs.setDec (hs.dec.accept hseen hk hroom v)).respond _

/-- DEC_PUSH and DEC_FINISH fail the call with one of the errors that the invariant allows (42_decoder.md R145,
R146). -/
theorem exec_decCommand_keeps_inv (hi : isDecCommand i = true) (hs : s.Inv) (h : exec i s = .next t) : t.Inv := by
  by_cases hstart : i = .decStart
  · subst hstart
    obtain rfl := eq_respond_of_answer h
    exact (hs.setDec (hs.dec.start hs.params)).respond _
  by_cases ha : s.dec.phase = .active
  · cases i with
    | decStart => exact absurd rfl hstart
    | decPush k =>
      cases hseen : s.dec.seen with
      | false => exact decPushFirst_keeps_inv hs ((execDecPush_of_not_seen ha hseen).symm.trans h)
      | true => exact decPushLater_keeps_inv hs hseen ((execDecPush_of_seen ha hseen).symm.trans h)
    | decFinish =>
      cases hseen : s.dec.seen with
      | false =>
        obtain rfl := eq_respond_of_answer ((execDecFinish_of_not_seen ha hseen).symm.trans h)
        exact (hs.setDec (hs.dec.fail (.inr (.inl ⟨rfl, rfl⟩)))).respond _
      | true =>
        obtain rfl := eq_respond_of_answer ((execDecFinish_of_seen ha hseen).symm.trans h)
        exact (hs.setDec (hs.dec.finish ha)).respond _
    | nop | readCsr | gridCreate | gridClear | gridGet | gridSet | gridRows | gridCols | encStart | encPush | encFlush
    | encGrid => cases hi
  · rw [exec_decCommand_of_not_active hi hstart ha] at h
    exact (raisedOnly_of_raise h).inv hs

theorem exec_keeps_inv (hs : s.Inv) (h : exec i s = .next t) : t.Inv := by
  cases i with
  | nop | readCsr =>
    obtain ⟨r, rfl⟩ := exec_controlCommand_eq rfl rfl rfl h
    exact hs.respond r
  | gridCreate | gridClear | gridGet | gridSet | gridRows | gridCols => exact exec_gridCommand_keeps_inv rfl hs h
  | encStart | encPush | encFlush | encGrid => exact exec_encCommand_keeps_inv rfl hs h
  | decStart | decPush | decFinish => exact exec_decCommand_keeps_inv rfl hs h

/-- Settles O12: by the cases of a step, and for an instruction by what it does to its own unit. -/
theorem stepKeepsInv : Obligations.StepKeepsInv := by
  unfold Obligations.StepKeepsInv
  intro s t hs ht
  rcases step_cases s with ⟨-, hstep⟩ | ⟨rest, -, hstep⟩ | ⟨c, rest, why, -, -, hstep⟩ | ⟨c, rest, i, -, -, hstep⟩
  · rw [hstep] at ht
    cases ht
    exact hs
  · rw [hstep] at ht
    cases ht
    exact (hs.setInputs rest).applyReset
  · rw [hstep] at ht
    exact (raisedOnly_of_raise ht).inv (hs.setInputs rest)
  · rw [hstep] at ht
    exact exec_keeps_inv (hs.setInputs rest) ht

/-! ### No command stops -/

/-- GRID_GET reads a cell of the grid, which the invariant says is written (10_state.md R49). -/
theorem execGridGet_answers (hs : s.Inv) (row col : Int) : ∃ t, execGridGet row col s = .next t := by
  cases hv : s.grid.valid with
  | false => exact ⟨_, exec_gridCommand_of_no_grid (i := .gridGet row col) rfl nofun hv⟩
  | true =>
    cases hin : s.grid.inBounds row col with
    | false => exact ⟨_, execGridGet_of_not_inBounds hv hin⟩
    | true =>
      obtain ⟨v, hcell⟩ := Option.isSome_iff_exists.mp (hs.grid.written _ (Grid.idx_lt_size hin))
      exact ⟨_, execGridGet_of_inBounds hv hin hcell⟩

theorem execEncGrid_answers (hs : s.Inv) : ∃ t, execEncGrid s = .next t := by
  by_cases ha : s.enc.phase = .active
  · cases hv : s.grid.valid with
    | false => exact ⟨_, execEncGrid_of_no_grid ha hv⟩
    | true =>
      obtain ⟨cs, hcs⟩ := hs.grid.symbols_defined
      exact ⟨_, execEncGrid_of_symbols ha hv hcs⟩
  · exact ⟨_, exec_encCommand_of_not_active (i := .encGrid) rfl nofun ha⟩

theorem decPushFirst_answers (k : Nat) (s : State) : ∃ t, decPushFirst k s = .next t := by
  rcases Nat.lt_or_ge k 256 with hk | hk
  · exact ⟨_, decPushFirst_of_seed hk⟩
  · exact ⟨_, decPushFirst_of_malformed hk⟩

/-- DEC_PUSH reads the string of a code of its dictionary, which the invariant says is defined (10_state.md R49). -/
theorem execDecPush_answers (hs : s.Inv) (k : Nat) : ∃ t, execDecPush k s = .next t := by
  by_cases ha : s.dec.phase = .active
  · cases hseen : s.dec.seen with
    | false =>
      rw [execDecPush_of_not_seen ha hseen]
      exact decPushFirst_answers k s
    | true =>
      rw [execDecPush_of_seen ha hseen]
      rcases decPushLater_eq hs hseen k with ⟨-, heq⟩ | ⟨-, -, heq⟩ | ⟨-, -, v, w, -, heq⟩
      · exact ⟨_, heq⟩
      · exact ⟨_, heq⟩
      · exact ⟨_, heq⟩
  · exact ⟨_, exec_decCommand_of_not_active (i := .decPush k) rfl nofun ha⟩

/-- Every instruction answers a next state. Only the three commands above read something that may be undefined. -/
theorem exec_answers (hs : s.Inv) (i : Instr) : ∃ t, exec i s = .next t := by
  cases i with
  | gridGet row col => exact execGridGet_answers hs row col
  | encGrid => exact execEncGrid_answers hs
  | decPush k => exact execDecPush_answers hs k
  | nop | encStart | decStart => exact ⟨_, rfl⟩
  | readCsr n =>
    simp only [exec, execReadCsr]
    cases csrOfNumber n <;> exact ⟨_, rfl⟩
  | encPush c =>
    simp only [exec, execEncPush]
    split_ifs
    · exact ⟨_, rfl⟩
    · exact ⟨_, rfl⟩
    · cases s.enc.push s.cfg.dictCap (symOf c) <;> exact ⟨_, rfl⟩
  | gridCreate | gridClear | gridSet | gridRows | gridCols | encFlush | decFinish =>
    simp only [exec, execGridCreate, execGridClear, execGridSet, execGridRows, execGridCols, execEncFlush,
      execDecFinish]
    split_ifs <;> exact ⟨_, rfl⟩

/-- Settles O13: by the cases of a step; an instruction answers because the invariant defines what it reads. -/
theorem stepNeverStops : Obligations.StepNeverStops := by
  unfold Obligations.StepNeverStops
  intro s hs
  rcases step_cases s with ⟨-, hstep⟩ | ⟨rest, -, hstep⟩ | ⟨c, rest, why, -, -, hstep⟩ | ⟨c, rest, i, -, -, hstep⟩
  · exact ⟨_, hstep⟩
  · exact ⟨_, hstep⟩
  · exact ⟨_, hstep⟩
  · rw [hstep]
    exact exec_answers (hs.setInputs rest) i

/-! ### What a step takes and answers -/

/-- Settles O9: `step_of_decode_ok`, for a command that decodes. -/
theorem stepRunsDecoded : Obligations.StepRunsDecoded := by
  unfold Obligations.StepRunsDecoded
  exact fun _ _ _ _ => step_of_decode_ok

theorem step_of_no_input (h : s.inputs = []) : step s = .next s := by
  simp only [step, State.take, h]

/-- Settles O15: `step_of_no_input`, where there is nothing to take. -/
theorem nothingHappensUnasked : Obligations.NothingHappensUnasked := by
  unfold Obligations.NothingHappensUnasked
  exact fun _ => step_of_no_input

/-- Settles O14: an illegal command word and an instruction give one response and leave the parameters and the inputs
that were not taken; a reset gives none. -/
theorem oneResponsePerCommand : Obligations.OneResponsePerCommand := by
  unfold Obligations.OneResponsePerCommand
  constructor
  · intro s t c rest hin ht
    have hone : GivesOneResponse (step s) { s with inputs := rest } := by
      cases hdec : decode c with
      | error why =>
        rw [step_of_decode_error hin hdec]
        exact answer_givesOneResponse _ rfl rfl rfl
      | ok i =>
        rw [step_of_decode_ok hin hdec]
        exact exec_givesOneResponse i _
    obtain ⟨hcfg, hinputs, hrsps⟩ := hone t ht
    exact ⟨hinputs, hcfg, hrsps⟩
  · intro s t rest hin ht
    rw [step_of_reset hin] at ht
    cases ht
    exact ⟨rfl, rfl, rfl⟩

end Sys2Proof.Machine
end

section
/-! PROOFS. The row-major index, GRID_CREATE, DEC_START, and which commands change a flag (40_grid.md R100, R103;
42_decoder.md R144; 10_state.md R36). -/

namespace Sys2Proof.Machine

variable {s : State} {rows cols : Int}

/-! ### The row-major index -/

/-- A pair in bounds is a pair of numbers below ROWS and COLS (40_grid.md R101). -/
theorem Grid.exists_natCast_of_inBounds {g : Grid} {row col : Int} (h : g.inBounds row col = true) :
    ∃ r c : Nat, row = r ∧ col = c ∧ c < g.cols.toNat := by
  obtain ⟨hr, -, hc, hlt⟩ := (g.inBounds_iff row col).mp h
  exact ⟨row.toNat, col.toNat, by omega, by omega, by omega⟩

/-- Settles O26: the row and the column of an index are its quotient and remainder by COLS. -/
theorem rowMajorIndexIsBijective : Obligations.RowMajorIndexIsBijective := by
  unfold Obligations.RowMajorIndexIsBijective
  refine fun g => ⟨fun row col => Grid.idx_lt_size, fun row col row' col' h h' heq => ?_, fun i hi => ?_⟩
  · obtain ⟨r, c, rfl, rfl, hc⟩ := Grid.exists_natCast_of_inBounds h
    obtain ⟨r', c', rfl, rfl, hc'⟩ := Grid.exists_natCast_of_inBounds h'
    rw [Grid.idx_natCast, Grid.idx_natCast] at heq
    have hcol : c = c' := by
      rw [← Nat.mul_add_mod_of_lt hc, heq, Nat.mul_add_mod_of_lt hc']
    subst hcol
    have hrow : r = r' := Nat.eq_of_mul_eq_mul_right (by omega) (Nat.add_right_cancel heq)
    exact ⟨congrArg _ hrow, rfl⟩
  · have hpos : 0 < g.cols.toNat := Nat.pos_of_mul_pos_left (Nat.zero_lt_of_lt hi)
    refine ⟨(i / g.cols.toNat : Nat), (i % g.cols.toNat : Nat),
      Grid.inBounds_natCast (Nat.div_lt_of_lt_mul (Nat.mul_comm .. ▸ hi)) (Nat.mod_lt i hpos), ?_⟩
    rw [Grid.idx_natCast, Nat.mul_comm]
    exact Nat.div_add_mod i g.cols.toNat

/-! ### GRID_CREATE -/

theorem execGridCreate_of_not_pos (h : rows ≤ 0 ∨ cols ≤ 0) :
    execGridCreate rows cols s = raise .invalidDimension 0x0#32 s := if_pos h

theorem execGridCreate_of_too_large (hr : 0 < rows) (hc : 0 < cols) (h : s.cfg.gridCap.toNat < rows * cols) :
    execGridCreate rows cols s = raise .capacityExceeded 0x0#32 s :=
  (if_neg (by omega)).trans (if_pos h)

theorem execGridCreate_of_legal (hr : 0 < rows) (hc : 0 < cols) (h : rows * cols ≤ s.cfg.gridCap.toNat) :
    execGridCreate rows cols s = answer { s with grid := s.grid.create rows cols } .done :=
  (if_neg (by omega)).trans (if_neg (not_lt.mpr h))

/-- Settles O21: the two checks in order, the shape of the new grid, and what a cell reads after the fill. -/
theorem gridCreateEffect : Obligations.GridCreateEffect := by
  unfold Obligations.GridCreateEffect
  refine ⟨fun c hw => decode_of_w0 (op := 0x10#8) hw rfl,
    fun rows cols s => ⟨fun hbad => ?_, fun hr hc hbig => ?_, fun hr hc hcap => ?_⟩⟩
  · exact onlyRaises_of_eq_raise (execGridCreate_of_not_pos hbad)
  · exact onlyRaises_of_eq_raise (execGridCreate_of_too_large hr hc hbig)
  · obtain ⟨hrows, hcols, hsize⟩ := Grid.create_shape (g := s.grid) hr hc hcap
    refine ⟨_, answers_of_eq_answer (execGridCreate_of_legal hr hc hcap), rfl, hrows, hcols, fun i => ?_⟩
    rw [← hsize]
    simp only [Nat.cast_lt]
    exact Grid.cell_fillCells _ _ i

/-! ### DEC_START -/

/-- Settles O36: the selection word, and the unit that START leaves. -/
theorem decStartEffect : Obligations.DecStartEffect := by
  unfold Obligations.DecStartEffect
  exact ⟨fun c hw => decode_of_w0 (op := 0x30#8) hw rfl, fun s => answers_of_eq_answer rfl⟩

/-! ### Flags -/

/-- Settles O42: GRID_CREATE alone changes the shape of the grid, and a command of another unit leaves a codec unit. -/
theorem flagsWrittenByNamedCommands : Obligations.FlagsWrittenByNamedCommands := by
  unfold Obligations.FlagsWrittenByNamedCommands
  intro i s t h
  refine ⟨fun hne => ?_, fun hne => ?_, fun hne => ?_⟩
  · rcases exec_grid_shape h with ⟨hvalid, -⟩ | ⟨rows, cols, hi, -⟩
    · exact absurd hvalid hne
    · exact ⟨rows, cols, hi⟩
  · by_contra hi
    simp [exec_enc_of_not_encCommand (Bool.eq_false_iff.mpr hi) h] at hne
  · by_contra hi
    simp [exec_dec_of_not_decCommand (Bool.eq_false_iff.mpr hi) h] at hne

end Sys2Proof.Machine
end

section
/-! PROOFS. The strings of codes (10_state.md R28, R34, R35). -/

namespace Sys2Proof.Machine

variable {p : Params} {d : Dict} {n : Nat} {w : List Byte}

/-- The string of a code that is no seed is the string of its stored code and then its symbol. -/
theorem Dict.Inv.str_of_stored (h : Dict.Inv p d) (h1 : 256 ≤ n) (h2 : n < d.next.toNat) :
    ∃ e w, d.entry n = some e ∧ e.pre.toNat < n ∧ w ≠ [] ∧ d.str e.pre.toNat = some w ∧
      d.str n = some (w ++ [e.sym]) := by
  obtain ⟨e, he, hlt⟩ := h.stored n h1 h2
  obtain ⟨v, w, hw, -⟩ := h.str_defined (Nat.lt_trans hlt h2)
  refine ⟨e, v :: w, he, hlt, List.cons_ne_nil v w, hw, ?_⟩
  rw [Dict.str_entry h.descends he, hw]
  rfl

theorem Dict.Inv.str_of_next_le (h : Dict.Inv p d) (hn : d.next.toNat ≤ n) : d.str n = none :=
  d.str_none (Nat.not_lt.mpr (Nat.le_trans h.low hn)) (Dict.entry_of_le hn)

theorem Dict.Inv.lt_of_str (h : Dict.Inv p d) (hw : d.str n = some w) : n < d.next.toNat := by
  by_contra hn
  rw [h.str_of_next_le (Nat.le_of_not_lt hn)] at hw
  cases hw

/-- An insertion gives the code `U.NEXT` the string of its pair, and changes the string of no other code. -/
theorem Dict.Inv.str_insert (h : Dict.Inv p d) (hroom : d.next ≠ p.dictCap) {pre : Word}
    (hpre : pre.toNat < d.next.toNat) (hw : d.str pre.toNat = some w) (c : Byte) (n : Nat) :
    (d.insert pre c).str n = if n = d.next.toNat then some (w ++ [c]) else d.str n := by
  have hlt := h.next_lt hroom
  rcases Nat.lt_trichotomy n d.next.toNat with hn | rfl | hn
  · rw [if_neg (Nat.ne_of_lt hn), Dict.str_insert_of_lt h.descends h.low hlt pre c hn]
  · rw [if_pos rfl, h.str_insert_next hroom hpre hw]
  · rw [if_neg (Nat.ne_of_gt hn), h.str_of_next_le (Nat.le_of_lt hn)]
    exact (h.insert hroom hpre c).str_of_next_le ((Dict.insert_next_toNat hlt pre c).trans_le hn)

/-- Settles O33: the equations of `str_U` and `first_U` for the codes that the invariant says are stored. -/
theorem stringsOfCodes : Obligations.StringsOfCodes := by
  unfold Obligations.StringsOfCodes
  refine fun p d h => ⟨fun n => d.str_seed, fun n h1 h2 => ?_, fun n => h.str_of_next_le, fun n hn => ?_⟩
  · obtain ⟨e, w, he, -, hne, hw, hstr⟩ := h.str_of_stored h1 h2
    refine ⟨e, w, Dict.entry_eq_read h1 h2 ▸ he, hw, hstr, ?_⟩
    have := List.length_pos_iff.mpr hne
    rw [List.length_append, List.length_singleton]
    omega
  · obtain ⟨v, w, hw, hf⟩ := h.str_defined hn
    exact ⟨v :: w, v, hw, rfl, hf⟩

/-- The string of a seed has one symbol, and that of a stored code has more. -/
theorem Dict.Inv.str_seed_ne_stored (h : Dict.Inv p d) {m : Nat} (hm : m < 256) (h1 : 256 ≤ n)
    (h2 : n < d.next.toNat) : d.str m ≠ d.str n := by
  obtain ⟨e, w, -, -, hne, -, hstr⟩ := h.str_of_stored h1 h2
  rw [d.str_seed hm, hstr]
  intro heq
  exact hne (by simpa using congrArg List.length (Option.some_inj.mp heq))

theorem seed_injective {m n : Nat} (hm : m < 256) (hn : n < 256) (h : [BitVec.ofNat 8 m] = [BitVec.ofNat 8 n]) :
    m = n := by
  have := congrArg BitVec.toNat (List.singleton_inj.mp h)
  rw [BitVec.toNat_ofNat, BitVec.toNat_ofNat] at this
  omega

/-- Where pairs are distinct, two codes with one string are equal: both are seeds with one symbol, or both are stored
with the same last symbol and, by induction, the same pair. -/
theorem Dict.Inv.str_injective (h : Dict.Inv p d) (hd : d.PairsDistinct) {m : Nat} (hm : d.str m = some w)
    (hn : d.str n = some w) : m = n := by
  induction m using Nat.strong_induction_on generalizing n w with
  | _ m ih =>
    have hm' := h.lt_of_str hm
    have hn' := h.lt_of_str hn
    rcases Nat.lt_or_ge m 256 with hm0 | hm0 <;> rcases Nat.lt_or_ge n 256 with hn0 | hn0
    · rw [d.str_seed hm0] at hm
      rw [d.str_seed hn0, ← hm] at hn
      exact (seed_injective hn0 hm0 (Option.some_inj.mp hn)).symm
    · exact absurd (hm.trans hn.symm) (h.str_seed_ne_stored hm0 hn0 hn')
    · exact absurd (hn.trans hm.symm) (h.str_seed_ne_stored hn0 hm0 hm')
    · obtain ⟨e, w1, he, hlt, -, hw1, hstr⟩ := h.str_of_stored hm0 hm'
      obtain ⟨e', w2, he', -, -, hw2, hstr'⟩ := h.str_of_stored hn0 hn'
      obtain ⟨rfl, hsym⟩ : w1 = w2 ∧ [e.sym] = [e'.sym] :=
        List.append_inj' (Option.some_inj.mp (hstr.symm.trans (hm.trans (hn.symm.trans hstr')))) rfl
      have hpre : e.pre = e'.pre := BitVec.eq_of_toNat_eq (ih e.pre.toNat hlt hw1 hw2)
      have hpair : e = e' := congrArg₂ Entry.mk hpre (List.singleton_inj.mp hsym)
      exact hd m n e he (hpair ▸ he')

/-- Settles O34: `Dict.Inv.str_injective` for the encoder's dictionary. -/
theorem encoderStringsDistinct : Obligations.EncoderStringsDistinct := by
  unfold Obligations.EncoderStringsDistinct
  intro s hs m n w _ _ hm hn
  exact hs.enc.dict.str_injective hs.enc.distinct hm hn

end Sys2Proof.Machine
end

section
/-! PROOFS. The fields of a response (30_encoding.md R76, 60_exceptions.md R172), and the length of OUT. -/

namespace Sys2Proof.Machine

variable {i : Instr} {s t u : State} {r : Response} {e : Status} {info : Word}

/-! ### The fields of a response -/

/-- What the fields of a response of the instruction `i` hold (30_encoding.md R76). -/
structure FieldsHold (i : Instr) (r : Response) : Prop where
  info : r.status = .ok → r.info = 0
  result_of_error : r.status ≠ .ok → r.result = 0
  result_of_not_query : isQuery i = false → r.result = 0
  out_of_not_canEmit : canEmit i = false → r.out = []
  out_of_error : r.status ≠ .ok → i ≠ .encGrid → r.out = []

theorem FieldsHold.error (he : e ≠ .ok) : FieldsHold i (.error e info) :=
  ⟨fun h => absurd h he, fun _ => rfl, fun _ => rfl, fun _ => rfl, fun _ _ => rfl⟩

theorem FieldsHold.done : FieldsHold i .done := ⟨fun _ => rfl, fun _ => rfl, fun _ => rfl, fun _ => rfl, fun _ _ => rfl⟩

theorem FieldsHold.value (hq : isQuery i = true) (w : Word) : FieldsHold i (.value w) :=
  ⟨fun _ => rfl, fun h => absurd rfl h, fun h => absurd h (by simp [hq]), fun _ => rfl, fun _ _ => rfl⟩

theorem FieldsHold.emitted (hc : canEmit i = true) (ws : List Word) : FieldsHold i (.emitted ws) :=
  ⟨fun _ => rfl, fun _ => rfl, fun _ => rfl, fun h => absurd h (by simp [hc]), fun h => absurd rfl h⟩

/-- ENC_GRID alone may fail with words emitted (41_encoder.md R127). -/
theorem FieldsHold.pushes (ps : Pushes) : FieldsHold .encGrid ps.response := by
  cases hc : ps.complete with
  | true =>
    rw [Pushes.response_of_complete hc]
    exact .emitted rfl _
  | false =>
    rw [Pushes.response_of_stopped hc]
    exact ⟨nofun, fun _ => rfl, fun _ => rfl, nofun, fun _ h => absurd rfl h⟩

/-- If the outcome is a next state, it has one response more than `s`, which meets `P`. -/
def RespondsWith (P : Response → Prop) (o : Outcome) (s : State) : Prop :=
  ∀ t, o = .next t → ∃ r, t.rsps = s.rsps ++ [r] ∧ P r

theorem RespondsWith.answer {P : Response → Prop} (hu : u.rsps = s.rsps) (hP : P r) :
    RespondsWith P (answer u r) s := by
  intro t ht
  rw [eq_respond_of_answer ht]
  exact ⟨r, by rw [State.respond_rsps, hu], hP⟩

theorem RespondsWith.fault {P : Response → Prop} {f : Fault} : RespondsWith P (.fault f) s := by
  intro t ht
  cases ht

theorem exec_gridCommand_fields (hi : isGridCommand i = true) (s : State) :
    RespondsWith (FieldsHold i) (exec i s) s := by
  cases i with
  | gridGet row col =>
    simp only [exec, execGridGet]
    split_ifs
    · exact .answer rfl (.error (by decide))
    · exact .answer rfl (.error (by decide))
    · cases s.grid.cell (s.grid.idx row col) with
      | none => exact .fault
      | some v => exact .answer rfl (.value rfl _)
  | gridRows | gridCols =>
    simp only [exec, execGridRows, execGridCols]
    split_ifs
    · exact .answer rfl (.error (by decide))
    · exact .answer rfl (.value rfl _)
  | gridCreate | gridClear =>
    simp only [exec, execGridCreate, execGridClear]
    split_ifs
    · exact .answer rfl (.error (by decide))
    · exact .answer rfl (.error (by decide))
    · exact .answer rfl .done
  | gridSet row col value =>
    simp only [exec, execGridSet]
    split_ifs
    · exact .answer rfl (.error (by decide))
    · exact .answer rfl (.error (by decide))
    · exact .answer rfl (.error (by decide))
    · exact .answer rfl .done
  | nop | readCsr | encStart | encPush | encFlush | encGrid | decStart | decPush | decFinish => cases hi

theorem exec_encCommand_fields (hi : isEncCommand i = true) (s : State) :
    RespondsWith (FieldsHold i) (exec i s) s := by
  cases i with
  | encStart => exact .answer rfl .done
  | encPush c =>
    simp only [exec, execEncPush]
    split_ifs
    · exact .answer rfl (.error (by decide))
    · exact .answer rfl (.error (by decide))
    · cases s.enc.push s.cfg.dictCap (symOf c) with
      | none => exact .answer rfl (.error (by decide))
      | some pushed => exact .answer rfl (.emitted rfl _)
  | encFlush =>
    simp only [exec, execEncFlush]
    split_ifs
    · exact .answer rfl (.error (by decide))
    · exact .answer rfl (.emitted rfl _)
  | encGrid =>
    simp only [exec, execEncGrid]
    split_ifs
    · exact .answer rfl (.error (by decide))
    · exact .answer rfl (.error (by decide))
    · cases s.grid.symbols with
      | none => exact .fault
      | some cs => exact .answer rfl (.pushes _)
  | nop | readCsr | gridCreate | gridClear | gridGet | gridSet | gridRows | gridCols | decStart | decPush
  | decFinish => cases hi

theorem decPushLater_fields (k : Nat) (s : State) :
    RespondsWith (FieldsHold (.decPush k)) (decPushLater k s) s := by
  simp only [decPushLater]
  split_ifs
  · exact .answer rfl (.error (by decide))
  · exact .answer rfl (.error (by decide))
  · rcases s.dec.entryOf (classify s.dec.dict.next k) k with _ | _ | ⟨v, w⟩
    · exact .fault
    · exact .fault
    · exact .answer rfl (.emitted rfl _)

theorem exec_decCommand_fields (hi : isDecCommand i = true) (s : State) :
    RespondsWith (FieldsHold i) (exec i s) s := by
  cases i with
  | decStart => exact .answer rfl .done
  | decPush k =>
    simp only [exec, execDecPush, decPushFirst]
    split_ifs
    · exact .answer rfl (.error (by decide))
    · cases classifyFirst k with
      | known => exact .answer rfl (.emitted rfl _)
      | sentinel | malformed => exact .answer rfl (.error (by decide))
    · exact decPushLater_fields k s
  | decFinish =>
    simp only [exec, execDecFinish]
    split_ifs
    · exact .answer rfl (.error (by decide))
    · exact .answer rfl (.error (by decide))
    · exact .answer rfl .done
  | nop | readCsr | gridCreate | gridClear | gridGet | gridSet | gridRows | gridCols | encStart | encPush | encFlush
  | encGrid => cases hi

theorem exec_fields (i : Instr) (s : State) : RespondsWith (FieldsHold i) (exec i s) s := by
  cases i with
  | nop => exact .answer rfl .done
  | readCsr n =>
    simp only [exec, execReadCsr]
    cases csrOfNumber n with
    | none => exact .answer rfl (.error (by decide))
    | some r => exact .answer rfl (.value rfl _)
  | gridCreate | gridClear | gridGet | gridSet | gridRows | gridCols => exact exec_gridCommand_fields rfl s
  | encStart | encPush | encFlush | encGrid => exact exec_encCommand_fields rfl s
  | decStart | decPush | decFinish => exact exec_decCommand_fields rfl s

/-- The response that an instruction gave has the fields of the instruction. -/
theorem exec_response_fields (h : exec i s = .next t) (hr : t.rsps = s.rsps ++ [r]) : FieldsHold i r := by
  obtain ⟨r', hr', hfields⟩ := exec_fields i s t h
  rw [hr'] at hr
  exact List.singleton_inj.mp (List.append_cancel_left hr) ▸ hfields

/-- Settles O16: an illegal command word answers with an error, and an instruction with its own fields. -/
theorem responseFields : Obligations.ResponseFields := by
  unfold Obligations.ResponseFields
  intro s t c rest hin ht
  cases hdec : decode c with
  | error why =>
    rw [step_of_decode_error hin hdec] at ht
    obtain rfl := eq_respond_of_answer ht
    exact ⟨_, rfl, nofun, fun _ => rfl, fun _ => rfl, fun _ => rfl, fun _ _ => rfl⟩
  | ok i =>
    rw [step_of_decode_ok hin hdec] at ht
    obtain ⟨r, hr, hfields⟩ := exec_fields i { s with inputs := rest } t ht
    exact ⟨r, hr, hfields.info, hfields.result_of_error,
      fun hq => hfields.result_of_not_query (hq i rfl), fun hc => hfields.out_of_not_canEmit (hc i rfl),
      fun he hg => hfields.out_of_error he fun hi => hg (congrArg _ hi)⟩

/-! ### E.NEXT and the codes emitted -/

theorem exec_cfg (h : exec i s = .next t) : t.cfg = s.cfg := (exec_givesOneResponse i s t h).1

theorem Pushes.response_out (ps : Pushes) : ps.response.out = ps.out := by
  unfold Pushes.response
  split_ifs <;> rfl

/-- A command that raises an error, and no more, emits nothing. -/
theorem RaisedOnly.out_eq_nil (h : RaisedOnly s t) (hr : t.rsps = s.rsps ++ [r]) : r.out = [] := by
  obtain ⟨e, info, ht⟩ := h
  obtain rfl := response_unique ht rfl hr
  rfl

section
variable (hs : s.Inv) (hr : t.rsps = s.rsps ++ [r])
include hs hr

theorem execEncPush_next {c : Int} (h : execEncPush c s = .next t) :
    t.enc.dict.next.toNat = s.enc.dict.next.toNat + r.out.length := by
  rcases execEncPush_cases h with ⟨-, hraised⟩ | ⟨-, e, info, ht⟩ | ⟨-, -, u, out, hpush, ht⟩
  · rw [hraised.out_eq_nil hr, hraised.enc_eq]
    rfl
  · obtain rfl := response_unique ht rfl hr
    subst ht
    rfl
  · obtain rfl := response_unique ht rfl hr
    subst ht
    exact (hs.enc.push hpush).2.2

theorem execEncGrid_next (h : execEncGrid s = .next t) :
    t.enc.dict.next.toNat = s.enc.dict.next.toNat + r.out.length := by
  rcases execEncGrid_cases h with hraised | ⟨-, -, cs, -, ht⟩
  · rw [hraised.out_eq_nil hr, hraised.enc_eq]
    rfl
  · rw [← response_unique ht rfl hr, Pushes.response_out, ht]
    exact (hs.enc.pushAll cs).2.1

end

/-- ENC_FLUSH keeps the dictionary (41_encoder.md R126). -/
theorem execEncFlush_dict (h : execEncFlush s = .next t) : t.enc.dict = s.enc.dict := by
  rcases execEncFlush_cases h with ⟨-, hraised⟩ | ⟨-, rfl⟩
  · rw [hraised.enc_eq]
  · rfl

/-- Settles O35: by the encoder command; the bound is part of the invariant. -/
theorem encNextCountsEmissions : Obligations.EncNextCountsEmissions := by
  unfold Obligations.EncNextCountsEmissions
  intro i s t r hs h hr
  refine ⟨exec_cfg h ▸ (exec_keeps_inv hs h).enc.dict.high, ?_, ?_, fun hstart hgrid hpush => ?_⟩
  · rintro rfl
    obtain rfl := eq_respond_of_answer h
    rfl
  · rintro (rfl | ⟨c, rfl⟩)
    · exact execEncGrid_next hs hr h
    · exact execEncPush_next hs hr h
  · cases i with
    | encStart => exact absurd rfl hstart
    | encGrid => exact absurd rfl hgrid
    | encPush c => exact absurd rfl (hpush c)
    | encFlush => exact execEncFlush_dict h
    | nop | readCsr | gridCreate | gridClear | gridGet | gridSet | gridRows | gridCols | decStart | decPush
    | decFinish => rw [exec_enc_of_not_encCommand rfl h]

/-! ### The length of OUT -/

/-- The string of a stored code `n` has at most `n` − 254 symbols: each code adds one to a string of a smaller code. -/
theorem Dict.Inv.str_length_le {p : Params} {d : Dict} (h : Dict.Inv p d) {n : Nat} {w : List Byte}
    (hw : d.str n = some w) : w.length ≤ 1 ∨ w.length + 254 ≤ n := by
  induction n using Nat.strong_induction_on generalizing w with
  | _ n ih =>
    rcases Nat.lt_or_ge n 256 with hn | hn
    · rw [d.str_seed hn] at hw
      cases hw
      exact .inl (Nat.le_refl 1)
    · obtain ⟨e, w', -, hlt, -, hw', hstr⟩ := h.str_of_stored hn (h.lt_of_str hw)
      obtain rfl := Option.some_inj.mp (hstr.symm.trans hw)
      have := ih e.pre.toNat hlt hw'
      rw [List.length_append, List.length_singleton]
      omega

/-- The entry of a later code that is consumed has at most `DICT_CAP` − 255 symbols. -/
theorem Decoder.Inv.entryOf_length_le {p : Params} {u : Decoder} (h : Decoder.Inv p u) (hseen : u.seen = true)
    (hroom : u.dict.next ≠ p.dictCap) {k : Nat} (hk : classify u.dict.next k ≠ .malformed) {w : List Byte}
    (hw : u.entryOf (classify u.dict.next k) k = some w) : w.length ≤ p.dictCap.toNat - 255 := by
  have hlow : 256 ≤ u.dict.next.toNat := h.dict.low
  have hlt := h.dict.next_lt hroom
  have hle : k ≤ u.dict.next.toNat := Nat.le_of_not_lt ((classify_eq_malformed_iff _ _).not.mp hk)
  rcases Nat.lt_or_eq_of_le hle with hk | hk
  · rw [classify_known hk] at hw
    have := h.dict.str_length_le (show u.dict.str k = some w from hw)
    omega
  · obtain ⟨v, w', hw', hf⟩ := h.dict.str_defined (h.wcode_lt hseen)
    rw [classify_sentinel hk] at hw
    simp only [Decoder.entryOf, hw', hf, Option.some.injEq] at hw
    have := h.dict.str_length_le hw'
    have := h.wcode_lt hseen
    rw [← hw, List.length_append, List.length_singleton]
    omega

section
variable (hs : s.Inv) (hr : t.rsps = s.rsps ++ [r])
include hr

theorem execEncPush_out_length {c : Int} (h : execEncPush c s = .next t) : r.out.length ≤ 1 := by
  rcases execEncPush_cases h with ⟨-, hraised⟩ | ⟨-, e, info, ht⟩ | ⟨-, -, u, out, hpush, ht⟩
  · rw [hraised.out_eq_nil hr]
    exact Nat.zero_le 1
  · obtain rfl := response_unique ht rfl hr
    exact Nat.zero_le 1
  · obtain rfl := response_unique ht rfl hr
    show out.length ≤ 1
    rcases Encoder.push_cases hpush with ⟨-, -, rfl⟩ | ⟨n, -, -, -, rfl⟩ | ⟨-, -, -, -, rfl⟩ <;> simp

theorem execEncFlush_out_length (h : execEncFlush s = .next t) : r.out.length ≤ 1 := by
  rcases execEncFlush_cases h with ⟨-, hraised⟩ | ⟨-, ht⟩
  · rw [hraised.out_eq_nil hr]
    exact Nat.zero_le 1
  · obtain rfl := response_unique ht rfl hr
    show s.enc.pending.length ≤ 1
    cases hv : s.enc.wvalid <;> simp [Encoder.pending, hv]

include hs

theorem execEncGrid_out_length (h : execEncGrid s = .next t) : r.out.length ≤ s.cfg.gridCap.toNat := by
  rcases execEncGrid_cases h with hraised | ⟨-, hv, cs, hcs, ht⟩
  · rw [hraised.out_eq_nil hr]
    exact Nat.zero_le _
  · rw [← response_unique ht rfl hr, Pushes.response_out]
    calc (s.enc.pushAll s.cfg.dictCap cs).out.length ≤ cs.length := (hs.enc.pushAll cs).2.2
      _ = s.grid.size := (Grid.symbols_spec hcs).1
      _ ≤ s.cfg.gridCap.toNat := hs.grid.size_le hv

theorem execDecPush_out_length {k : Nat} (h : execDecPush k s = .next t) :
    r.out.length ≤ s.cfg.dictCap.toNat - 255 := by
  have hcap := hs.params.1
  rcases execDecPush_cases h with ⟨-, hraised⟩ | ⟨-, e, info, ht⟩ | ⟨-, -, -, ht⟩ |
    ⟨-, hseen, hk, hroom, v, w, hentry, ht⟩
  · rw [hraised.out_eq_nil hr]
    exact Nat.zero_le _
  · obtain rfl := response_unique ht rfl hr
    exact Nat.zero_le _
  · obtain rfl := response_unique ht rfl hr
    show 1 ≤ _
    omega
  · obtain rfl := response_unique ht rfl hr
    exact (List.length_map _).trans_le (hs.dec.entryOf_length_le hseen hroom hk hentry)

end

/-- Settles O39: the bound of each command that emits, all of which fit a word; the others emit nothing. -/
theorem outLengthBounded : Obligations.OutLengthBounded := by
  unfold Obligations.OutLengthBounded
  intro i s t r hs h hr
  refine ⟨?_, ?_, ?_, ?_⟩
  · rintro ⟨k, rfl⟩
    exact execDecPush_out_length hs hr h
  · rintro rfl
    exact execEncGrid_out_length hs hr h
  · rintro (⟨c, rfl⟩ | rfl)
    · exact execEncPush_out_length hr h
    · exact execEncFlush_out_length hr h
  · have hdict := s.cfg.dictCap.isLt
    have hgrid := s.cfg.gridCap.isLt
    cases hemit : canEmit i with
    | false =>
      rw [(exec_response_fields h hr).out_of_not_canEmit hemit]
      decide
    | true =>
      cases i with
      | encPush c => exact Nat.lt_of_le_of_lt (execEncPush_out_length hr h) (by decide)
      | encFlush => exact Nat.lt_of_le_of_lt (execEncFlush_out_length hr h) (by decide)
      | encGrid => exact Nat.lt_of_le_of_lt (execEncGrid_out_length hs hr h) hgrid
      | decPush k =>
        have := execDecPush_out_length hs hr h
        omega
      | nop | readCsr | gridCreate | gridClear | gridGet | gridSet | gridRows | gridCols | encStart | decStart
      | decFinish => cases hemit

end Sys2Proof.Machine
end

section
/-! PROOFS. What a command reads: an encoder command and a decoder command can be exchanged (20_memory.md R62), and a
read can be done again (20_memory.md R58). -/

namespace Sys2Proof.Machine

variable {i j : Instr} {s s' t u : State} {r : Response}

/-! ### The commands of one codec unit

A decoder command reads the parameters and its unit, and an encoder command the grid also: each is run on a state that
holds only those, and what it answers is put back. -/

/-- What a decoder command reads of a state. -/
def State.decOnly (s : State) : State := ⟨s.cfg, .atReset, .atReset, s.dec, [], []⟩

/-- `s` after a decoder command that left `t` from `s.decOnly`. -/
def State.putDec (s t : State) : State := { s with dec := t.dec, rsps := s.rsps ++ t.rsps }

/-- The outcome of a decoder command on `s.decOnly`, put back into `s`. -/
def State.outcomeOfDec (s : State) : Outcome → Outcome
  | .next t => .next (s.putDec t)
  | .fault f => .fault f
  | .refused f => .refused f

/-- What an encoder command reads of a state. -/
def State.encOnly (s : State) : State := ⟨s.cfg, s.grid, s.enc, .atReset, [], []⟩

/-- `s` after an encoder command that left `t` from `s.encOnly`. -/
def State.putEnc (s t : State) : State := { s with enc := t.enc, rsps := s.rsps ++ t.rsps }

/-- The outcome of an encoder command on `s.encOnly`, put back into `s`. -/
def State.outcomeOfEnc (s : State) : Outcome → Outcome
  | .next t => .next (s.putEnc t)
  | .fault f => .fault f
  | .refused f => .refused f

@[simp] theorem State.decOnly_cfg (s : State) : s.decOnly.cfg = s.cfg := rfl
@[simp] theorem State.decOnly_dec (s : State) : s.decOnly.dec = s.dec := rfl
@[simp] theorem State.encOnly_cfg (s : State) : s.encOnly.cfg = s.cfg := rfl
@[simp] theorem State.encOnly_grid (s : State) : s.encOnly.grid = s.grid := rfl
@[simp] theorem State.encOnly_enc (s : State) : s.encOnly.enc = s.enc := rfl

theorem decPushFirst_decOnly (k : Nat) (s : State) :
    decPushFirst k s = s.outcomeOfDec (decPushFirst k s.decOnly) := by
  unfold decPushFirst
  cases classifyFirst k <;> rfl

theorem decPushLater_decOnly (k : Nat) (s : State) :
    decPushLater k s = s.outcomeOfDec (decPushLater k s.decOnly) := by
  simp only [decPushLater, apply_ite s.outcomeOfDec]
  simp only [State.decOnly_dec, State.decOnly_cfg]
  rcases s.dec.entryOf (classify s.dec.dict.next k) k with _ | _ | ⟨v, w⟩ <;> rfl

/-- A decoder command reads no more than `decOnly` holds. -/
theorem exec_decOnly (hi : isDecCommand i = true) (s : State) :
    exec i s = s.outcomeOfDec (exec i s.decOnly) := by
  cases i with
  | decStart => rfl
  | decPush k =>
    simp only [exec, execDecPush, apply_ite s.outcomeOfDec, ← decPushFirst_decOnly, ← decPushLater_decOnly]
    rfl
  | decFinish =>
    simp only [exec, execDecFinish, apply_ite s.outcomeOfDec]
    rfl
  | nop | readCsr | gridCreate | gridClear | gridGet | gridSet | gridRows | gridCols | encStart | encPush | encFlush
  | encGrid => cases hi

/-- An encoder command reads no more than `encOnly` holds. -/
theorem exec_encOnly (hi : isEncCommand i = true) (s : State) :
    exec i s = s.outcomeOfEnc (exec i s.encOnly) := by
  cases i with
  | encStart => rfl
  | encPush c =>
    simp only [exec, execEncPush, apply_ite s.outcomeOfEnc]
    simp only [State.encOnly_enc, State.encOnly_cfg]
    cases s.enc.push s.cfg.dictCap (symOf c) <;> rfl
  | encFlush =>
    simp only [exec, execEncFlush, apply_ite s.outcomeOfEnc]
    rfl
  | encGrid =>
    simp only [exec, execEncGrid, apply_ite s.outcomeOfEnc]
    simp only [State.encOnly_grid]
    cases s.grid.symbols <;> rfl
  | nop | readCsr | gridCreate | gridClear | gridGet | gridSet | gridRows | gridCols | decStart | decPush
  | decFinish => cases hi

/-- A decoder command answers alike in two states with the same parameters and the same decoder. -/
theorem exec_decCommand_congr (hi : isDecCommand i = true) {d : Decoder}
    (h : exec i s = .next (({ s with dec := d }).respond r)) (hcfg : s'.cfg = s.cfg) (hdec : s'.dec = s.dec) :
    exec i s' = .next (({ s' with dec := d }).respond r) := by
  have hread : s'.decOnly = s.decOnly := by rw [State.decOnly, State.decOnly, hcfg, hdec]
  rw [exec_decOnly hi] at h ⊢
  rw [hread]
  cases hx : exec i s.decOnly with
  | next x =>
    rw [hx] at h
    have hx' : s.putDec x = ({ s with dec := d }).respond r := Host.Outcome.next.inj h
    have hd : x.dec = d := congrArg State.dec hx'
    have hr : x.rsps = [r] := List.append_cancel_left (congrArg State.rsps hx')
    rw [State.outcomeOfDec, State.putDec, hd, hr]
    rfl
  | fault f | refused f =>
    rw [hx] at h
    cases h

/-- An encoder command answers alike in two states with the same parameters, the same grid and the same encoder. -/
theorem exec_encCommand_congr (hi : isEncCommand i = true) {d : Encoder}
    (h : exec i s = .next (({ s with enc := d }).respond r)) (hcfg : s'.cfg = s.cfg) (hgrid : s'.grid = s.grid)
    (henc : s'.enc = s.enc) :
    exec i s' = .next (({ s' with enc := d }).respond r) := by
  have hread : s'.encOnly = s.encOnly := by rw [State.encOnly, State.encOnly, hcfg, hgrid, henc]
  rw [exec_encOnly hi] at h ⊢
  rw [hread]
  cases hx : exec i s.encOnly with
  | next x =>
    rw [hx] at h
    have hx' : s.putEnc x = ({ s with enc := d }).respond r := Host.Outcome.next.inj h
    have hd : x.enc = d := congrArg State.enc hx'
    have hr : x.rsps = [r] := List.append_cancel_left (congrArg State.rsps hx')
    rw [State.outcomeOfEnc, State.putEnc, hd, hr]
    rfl
  | fault f | refused f =>
    rw [hx] at h
    cases h

/-- Settles O41: each of the two commands answers alike before and after the other, which writes nothing it reads. -/
theorem codecCallsInterleave : Obligations.CodecCallsInterleave := by
  unfold Obligations.CodecCallsInterleave
  intro i j s t u r r' hi hj hst htu hr hr'
  obtain ⟨e, r₁, rfl⟩ := exec_encCommand_eq hi hst
  obtain rfl := response_unique (u := { s with enc := e }) rfl rfl hr
  obtain ⟨d, r₂, rfl⟩ := exec_decCommand_eq hj htu
  obtain rfl := response_unique rfl rfl hr'
  have hj' : exec j s = .next (({ s with dec := d }).respond r₂) := exec_decCommand_congr hj htu rfl rfl
  exact ⟨_, _, hj', exec_encCommand_congr hi hst rfl rfl rfl, rfl, rfl, rfl, rfl, rfl, rfl, rfl, rfl⟩

/-! ### Reading again -/

/-- The state with no response given yet. -/
def State.unanswered (s : State) : State := { s with rsps := [] }

/-- `t` with its responses after those of `s`. -/
def State.answerOnto (s t : State) : State := { t with rsps := s.rsps ++ t.rsps }

/-- The outcome of a command on `s.unanswered`, with its response after those of `s`. -/
def State.outcomeAnswered (s : State) : Outcome → Outcome
  | .next t => .next (s.answerOnto t)
  | .fault f => .fault f
  | .refused f => .refused f

@[simp] theorem State.unanswered_cfg (s : State) : s.unanswered.cfg = s.cfg := rfl
@[simp] theorem State.unanswered_grid (s : State) : s.unanswered.grid = s.grid := rfl

/-- The commands that a program may do again (20_memory.md R58): the queries, GRID_SET and GRID_CLEAR. -/
def isRepeatable : Instr → Bool
  | .gridGet _ _ | .gridRows | .gridCols | .readCsr _ | .gridSet _ _ _ | .gridClear _ => true
  | _ => false

/-- Such a command does not read the responses given before. -/
theorem exec_unanswered (hi : isRepeatable i = true) (s : State) :
    exec i s = s.outcomeAnswered (exec i s.unanswered) := by
  cases i with
  | readCsr n =>
    simp only [exec, execReadCsr]
    cases csrOfNumber n with
    | none => rfl
    | some c => cases c <;> rfl
  | gridGet row col =>
    simp only [exec, execGridGet, apply_ite s.outcomeAnswered]
    simp only [State.unanswered_grid]
    cases s.grid.cell (s.grid.idx row col) <;> rfl
  | gridClear | gridSet | gridRows | gridCols =>
    simp only [exec, execGridClear, execGridSet, execGridRows, execGridCols,
      apply_ite s.outcomeAnswered]
    rfl
  | nop | gridCreate | encStart | encPush | encFlush | encGrid | decStart | decPush | decFinish => cases hi

/-- Such a command answers alike after another response. -/
theorem exec_respond (hi : isRepeatable i = true) (h : exec i s = .next (u.respond r)) (hu : u.rsps = s.rsps)
    (r' : Response) : exec i (s.respond r') = .next ((u.respond r').respond r) := by
  rw [exec_unanswered hi] at h ⊢
  have hread : (s.respond r').unanswered = s.unanswered := rfl
  rw [hread]
  cases hx : exec i s.unanswered with
  | next x =>
    rw [hx] at h
    have hx' : s.answerOnto x = u.respond r := Host.Outcome.next.inj h
    have hr : x.rsps = [r] := by
      have := congrArg State.rsps hx'
      rw [State.respond_rsps, hu] at this
      exact List.append_cancel_left this
    have hunits : x = { u with rsps := [r] } := hr ▸ congrArg (fun y : State => { y with rsps := x.rsps }) hx'
    subst hunits
    show Host.Outcome.next { u with rsps := s.rsps ++ [r'] ++ [r] } = _
    rw [← hu]
    rfl
  | fault f | refused f =>
    rw [hx] at h
    cases h

theorem exec_query_eq_respond (hi : isQuery i = true) (h : exec i s = .next t) : ∃ r, t = s.respond r := by
  cases i with
  | readCsr n => exact execReadCsr_eq_respond h
  | gridGet row col => exact execGridGet_eq_respond h
  | gridRows => exact execGridRows_eq_respond h
  | gridCols => exact execGridCols_eq_respond h
  | nop | gridCreate | gridClear | gridSet | encStart | encPush | encFlush | encGrid | decStart | decPush
  | decFinish => cases hi

theorem isRepeatable_of_isQuery (hi : isQuery i = true) : isRepeatable i = true := by
  cases i with
  | readCsr | gridGet | gridRows | gridCols => rfl
  | nop | gridCreate | gridClear | gridSet | encStart | encPush | encFlush | encGrid | decStart | decPush
  | decFinish => cases hi

/-- The grids agree in their shape and in every cell. -/
def Grid.SameCells (g g' : Grid) : Prop := g.SameShape g' ∧ ∀ n, g'.cell n = g.cell n

/-- Doing GRID_SET or GRID_CLEAR again gives the same response and leaves the same cells. -/
def RepeatsOn (i : Instr) (t : State) (r : Response) : Prop :=
  ∃ u, exec i t = .next u ∧ u.rsps = t.rsps ++ [r] ∧ t.grid.SameCells u.grid

/-- A command that raised an error raises it again. -/
theorem RaisedOnly.repeatsOn (hi : isRepeatable i = true) (h : exec i s = .next t) (hraised : RaisedOnly s t)
    (hr : t.rsps = s.rsps ++ [r]) : RepeatsOn i t r := by
  obtain ⟨e, info, rfl⟩ := hraised
  obtain rfl := response_unique rfl rfl hr
  exact ⟨_, exec_respond hi h rfl _, rfl, ⟨rfl, rfl, rfl⟩, fun _ => rfl⟩

theorem execGridSet_repeatsOn {row col value : Int} (h : execGridSet row col value s = .next t)
    (hr : t.rsps = s.rsps ++ [r]) : RepeatsOn (.gridSet row col value) t r := by
  rcases execGridSet_cases h with hraised | ⟨hv, hin, hsym, rfl⟩
  · exact hraised.repeatsOn rfl h hr
  · obtain rfl := response_unique rfl rfl hr
    refine ⟨_, execGridSet_of_isSym hv hin hsym, rfl, ⟨rfl, rfl, rfl⟩, fun n => ?_⟩
    show ((s.grid.setCell _ _).setCell (s.grid.idx row col) (symOf value)).cell n = _
    rw [Grid.cell_setCell]
    split_ifs with hn
    · exact ((Grid.cell_setCell ..).trans (if_pos hn)).symm
    · rfl

theorem execGridClear_repeatsOn {value : Int} (h : execGridClear value s = .next t) (hr : t.rsps = s.rsps ++ [r]) :
    RepeatsOn (.gridClear value) t r := by
  rcases execGridClear_cases h with hraised | ⟨hv, hsym, rfl⟩
  · exact hraised.repeatsOn rfl h hr
  · obtain rfl := response_unique rfl rfl hr
    refine ⟨_, execGridClear_of_isSym hv hsym, rfl, ⟨rfl, rfl, rfl⟩, fun n => ?_⟩
    show ((s.grid.fillCells _).fillCells (symOf value)).cell n = _
    rw [Grid.cell_fillCells]
    split_ifs with hn
    · exact ((s.grid.cell_fillCells (symOf value) n).trans (if_pos hn)).symm
    · rfl

/-- Settles O45: a query only gives a response and does not read those given before; GRID_SET and GRID_CLEAR write the
same cells again. -/
theorem readsChangeNothing : Obligations.ReadsChangeNothing := by
  unfold Obligations.ReadsChangeNothing
  intro i s t r h hr
  refine ⟨fun hi => ?_, ?_⟩
  · obtain ⟨r', rfl⟩ := exec_query_eq_respond hi h
    obtain rfl := response_unique rfl rfl hr
    refine ⟨rfl, (exec_respond (isRepeatable_of_isQuery hi) h rfl r').trans ?_⟩
    simp only [State.respond, List.append_assoc, List.singleton_append]
  · have shape : RepeatsOn i t r → ∃ u, exec i t = .next u ∧ u.rsps = t.rsps ++ [r] ∧ u.grid.valid = t.grid.valid ∧
        u.grid.rows = t.grid.rows ∧ u.grid.cols = t.grid.cols ∧ ∀ n, u.grid.cell n = t.grid.cell n :=
      fun ⟨u, hu, hru, ⟨hv, hrows, hcols⟩, hcells⟩ => ⟨u, hu, hru, hv, hrows, hcols, hcells⟩
    rintro (⟨row, col, v, rfl⟩ | ⟨v, rfl⟩)
    · exact shape (execGridSet_repeatsOn h hr)
    · exact shape (execGridClear_repeatsOn h hr)

end Sys2Proof.Machine
end

section
/-! PROOFS. Stored contents outside the grid and the dictionaries are never observed (10_state.md R23, R27, R49). -/

namespace Sys2Proof.Machine

/-! ### Dictionaries -/

section
variable {p : Params} {d d' : Dict}

theorem Dict.SameVisible.str_eq (h : d.SameVisible d') (hd : Dict.Inv p d) (n : Nat) : d'.str n = d.str n :=
  Dict.str_congr hd.descends fun m _ => h.2 m

theorem Dict.SameVisible.first_eq (h : d.SameVisible d') (hd : Dict.Inv p d) (n : Nat) : d'.first n = d.first n :=
  Dict.firstUpTo_congr hd.descends n (fun m _ => h.2 m) _ _ (Nat.lt_succ_self n) (Nat.lt_succ_self n)

/-- A match is an entry, and where pairs are distinct there is one at most. -/
theorem Dict.SameVisible.find_eq (h : d.SameVisible d') (hd : Table.wf d.entries) (hd' : Table.wf d'.entries)
    (hp' : d'.PairsDistinct) (w : Word) (c : Byte) : d'.find w c = d.find w c := by
  cases hf : d.find w c with
  | some n => exact Dict.find_of_entry hd' hp' ((h.2 n).trans (Dict.find_some hd hf))
  | none =>
    cases hf' : d'.find w c with
    | none => rfl
    | some n => exact absurd ((h.2 n).symm.trans (Dict.find_some hd' hf')) (Dict.find_none hf n)

theorem Dict.SameVisible.insert (h : d.SameVisible d') (hd : Dict.Inv p d) (hroom : d.next ≠ p.dictCap) (w : Word)
    (c : Byte) : (d.insert w c).SameVisible (d'.insert w c) := by
  have hlt := hd.next_lt hroom
  refine ⟨congrArg (· + 1) h.1, fun n => ?_⟩
  rw [Dict.entry_insert hd.low hlt, Dict.entry_insert (h.1 ▸ hd.low) (h.1 ▸ hlt), h.1, h.2]

theorem Dict.entry_fresh (d : Dict) (n : Nat) : d.fresh.entry n = none := by
  rcases Nat.lt_or_ge n 256 with hn | hn
  · exact Dict.entry_of_lt hn
  · exact Dict.entry_of_le hn

theorem Dict.SameVisible.fresh (d d' : Dict) : d.fresh.SameVisible d'.fresh :=
  ⟨rfl, fun n => (d'.entry_fresh n).trans (d.entry_fresh n).symm⟩

end

/-! ### The encoder -/

/-- Two encoders that meet the invariant and differ at most in stale entries. -/
structure Encoder.Alike (p : Params) (u u' : Encoder) : Prop where
  inv : Encoder.Inv p u
  inv' : Encoder.Inv p u'
  regs : u' = { u with dict := u'.dict }
  dict : Dict.SameVisible u.dict u'.dict

namespace Encoder.Alike

variable {p : Params} {u u' v : Encoder} {c : Byte} {out : List Word}

theorem phase_eq (h : Alike p u u') : u'.phase = u.phase := (congrArg Encoder.phase h.regs :)
theorem wvalid_eq (h : Alike p u u') : u'.wvalid = u.wvalid := (congrArg Encoder.wvalid h.regs :)
theorem wcode_eq (h : Alike p u u') : u'.wcode = u.wcode := (congrArg Encoder.wcode h.regs :)
theorem err_eq (h : Alike p u u') : u'.err = u.err := (congrArg Encoder.err h.regs :)
theorem errInfo_eq (h : Alike p u u') : u'.errInfo = u.errInfo := (congrArg Encoder.errInfo h.regs :)

theorem find_eq (h : Alike p u u') (c : Byte) : u'.dict.find u'.wcode c = u.dict.find u.wcode c := by
  rw [h.wcode_eq]
  exact h.dict.find_eq h.inv.dict.canonical h.inv'.dict.canonical h.inv'.distinct _ _

theorem start (hp : p.legal) (h : Encoder.Inv p u) (h' : Encoder.Inv p u') : Alike p u.start u'.start :=
  ⟨h.start hp, h'.start hp, rfl, .fresh _ _⟩

theorem fail (h : Alike p u u') {e : Status} {info : Word}
    (he : e = .outOfRange ∨ (e = .capacityExceeded ∧ info = 1)) : Alike p (u.fail e info) (u'.fail e info) :=
  ⟨h.inv.fail he, h.inv'.fail he, by rw [h.regs]; rfl, h.dict⟩

theorem finish (h : Alike p u u') (ha : u.phase = .active) : Alike p u.finish u'.finish :=
  ⟨h.inv.finish ha, h.inv'.finish (h.phase_eq.trans ha), by rw [h.regs]; rfl, h.dict⟩

theorem push_none (h : Alike p u u') (hp : u.push p.dictCap c = none) : u'.push p.dictCap c = none := by
  obtain ⟨hv, hf, hfull⟩ := (Encoder.push_eq_none_iff _ _ _).mp hp
  exact (Encoder.push_eq_none_iff _ _ _).mpr
    ⟨h.wvalid_eq.trans hv, (h.find_eq c).trans hf, h.dict.1.trans hfull⟩

/-- A push does the same in both, in each of its three cases. -/
theorem push_some (h : Alike p u u') (hp : u.push p.dictCap c = some (v, out)) :
    ∃ v', u'.push p.dictCap c = some (v', out) ∧ Alike p v v' := by
  have close : ∀ {v' : Encoder}, u'.push p.dictCap c = some (v', out) → v' = { v with dict := v'.dict } →
      v.dict.SameVisible v'.dict → ∃ v', u'.push p.dictCap c = some (v', out) ∧ Alike p v v' :=
    fun hp' hregs hdict => ⟨_, hp', (h.inv.push hp).1, (h.inv'.push hp').1, hregs, hdict⟩
  rcases Encoder.push_cases hp with ⟨hv, rfl, rfl⟩ | ⟨n, hv, hf, rfl, rfl⟩ | ⟨hv, hf, hroom, rfl, rfl⟩
  · exact close (Encoder.push_first (h.wvalid_eq.trans hv)) (by rw [h.regs]) h.dict
  · exact close (Encoder.push_match (h.wvalid_eq.trans hv) ((h.find_eq c).trans hf)) (by rw [h.regs]) h.dict
  · have hp' := Encoder.push_emit (h.wvalid_eq.trans hv) ((h.find_eq c).trans hf) (h.dict.1 ▸ hroom)
    rw [h.wcode_eq] at hp'
    exact close hp' (by rw [h.regs]) (h.dict.insert h.inv.dict hroom _ _)

theorem pushAll (h : Alike p u u') (cs : List Byte) :
    Alike p (u.pushAll p.dictCap cs).enc (u'.pushAll p.dictCap cs).enc ∧
      (u'.pushAll p.dictCap cs).response = (u.pushAll p.dictCap cs).response := by
  suffices hall : Alike p (u.pushAll p.dictCap cs).enc (u'.pushAll p.dictCap cs).enc ∧
      (u'.pushAll p.dictCap cs).out = (u.pushAll p.dictCap cs).out ∧
      (u'.pushAll p.dictCap cs).complete = (u.pushAll p.dictCap cs).complete by
    obtain ⟨halike, hout, hcomplete⟩ := hall
    exact ⟨halike, by rw [Pushes.response, Pushes.response, hout, hcomplete]⟩
  induction cs generalizing u u' with
  | nil => exact ⟨h, rfl, rfl⟩
  | cons c cs ih =>
    cases hp : u.push p.dictCap c with
    | none =>
      rw [Encoder.pushAll_cons_none cs hp, Encoder.pushAll_cons_none cs (h.push_none hp)]
      exact ⟨h.fail (.inr ⟨rfl, rfl⟩), rfl, rfl⟩
    | some pushed =>
      obtain ⟨v', hp', halike⟩ := h.push_some hp
      rw [Encoder.pushAll_cons_some cs hp, Encoder.pushAll_cons_some cs hp']
      obtain ⟨hrest, hout, hcomplete⟩ := ih halike
      exact ⟨hrest, congrArg (pushed.2 ++ ·) hout, hcomplete⟩

end Encoder.Alike

/-- The outcomes from `s` and `s'` write the encoder only, give the same response, and leave encoders that differ at
most in stale entries. -/
def EncAnswersAlike (s s' : State) (o o' : Outcome) : Prop :=
  ∃ u u' r, o = answer { s with enc := u } r ∧ o' = answer { s' with enc := u' } r ∧ Encoder.Alike s.cfg u u'

section
variable {s s' : State} (h : Encoder.Alike s.cfg s.enc s'.enc)
include h

theorem execEncPush_alike (hcap : s'.cfg.dictCap = s.cfg.dictCap) (c : Int) :
    EncAnswersAlike s s' (execEncPush c s) (execEncPush c s') := by
  simp only [execEncPush, h.phase_eq, hcap]
  split_ifs
  · exact ⟨_, _, _, rfl, rfl, h⟩
  · exact ⟨_, _, _, rfl, rfl, h.fail (.inl rfl)⟩
  · cases hp : s.enc.push s.cfg.dictCap (symOf c) with
    | none =>
      rw [h.push_none hp]
      exact ⟨_, _, _, rfl, rfl, h.fail (.inr ⟨rfl, rfl⟩)⟩
    | some pushed =>
      obtain ⟨v, hp', halike⟩ := h.push_some hp
      rw [hp']
      exact ⟨_, _, _, rfl, rfl, halike⟩

theorem execEncFlush_alike : EncAnswersAlike s s' (execEncFlush s) (execEncFlush s') := by
  have hpending : s'.enc.pending = s.enc.pending := by
    rw [Encoder.pending, Encoder.pending, h.wvalid_eq, h.wcode_eq]
  simp only [execEncFlush, h.phase_eq, hpending]
  split_ifs with ha
  · exact ⟨_, _, _, rfl, rfl, h⟩
  · exact ⟨_, _, _, rfl, rfl, h.finish (not_not.mp ha)⟩

end

/-! ### The grid -/

namespace Grid.SameVisible

variable {g g' : Grid}

theorem valid_eq (h : g.SameVisible g') : g'.valid = g.valid := h.1
theorem rows_eq (h : g.SameVisible g') : g'.rows = g.rows := h.2.1
theorem cols_eq (h : g.SameVisible g') : g'.cols = g.cols := h.2.2.1
theorem cell_eq (h : g.SameVisible g') {i : Nat} (hi : i < g.size) : g'.cell i = g.cell i := h.2.2.2 i hi

theorem size_eq (h : g.SameVisible g') : g'.size = g.size := by
  rw [Grid.size, Grid.size, h.rows_eq, h.cols_eq]

theorem inBounds_eq (h : g.SameVisible g') (row col : Int) : g'.inBounds row col = g.inBounds row col := by
  rw [Grid.inBounds, Grid.inBounds, h.rows_eq, h.cols_eq]

theorem idx_eq (h : g.SameVisible g') (row col : Int) : g'.idx row col = g.idx row col := by
  rw [Grid.idx, Grid.idx, h.cols_eq]

theorem fillCells (h : g.SameVisible g') (v : Byte) : (g.fillCells v).SameVisible (g'.fillCells v) := by
  refine ⟨h.valid_eq, h.rows_eq, h.cols_eq, fun i hi => ?_⟩
  rw [Grid.fillCells_size] at hi
  rw [Grid.cell_fillCells, Grid.cell_fillCells, h.size_eq, if_pos hi, if_pos hi]

/-- GRID_CREATE writes every cell of the new grid, so what the old one held does not matter (40_grid.md R103). -/
theorem create (g g' : Grid) (rows cols : Int) : (g.create rows cols).SameVisible (g'.create rows cols) := by
  refine ⟨rfl, rfl, rfl, fun i hi => ?_⟩
  rw [Grid.create, Grid.create, Grid.cell_fillCells, Grid.cell_fillCells]
  exact (if_pos hi).trans (if_pos hi).symm

theorem setCell (h : g.SameVisible g') (i : Nat) (v : Byte) : (g.setCell i v).SameVisible (g'.setCell i v) := by
  refine ⟨h.valid_eq, h.rows_eq, h.cols_eq, fun k hk => ?_⟩
  rw [Grid.cell_setCell, Grid.cell_setCell, h.cell_eq hk]

theorem symbols_eq (h : g.SameVisible g') {cs : List Byte} (hcs : g.symbols = some cs) : g'.symbols = some cs := by
  refine (Table.readAll_eq_some_iff ..).mpr ?_
  rw [h.size_eq, ← (Table.readAll_eq_some_iff ..).mp hcs]
  exact List.map_congr_left fun i hi => h.cell_eq (List.mem_range.mp hi)

end Grid.SameVisible

/-! ### States -/

namespace State.SameVisible

variable {s s' : State}

theorem enc_alike (h : s.SameVisible s') (hs : s.Inv) (hs' : s'.Inv) : Encoder.Alike s.cfg s.enc s'.enc :=
  ⟨hs.enc, h.cfg ▸ hs'.enc, h.enc, h.encDict⟩

theorem gridCap_eq (h : s.SameVisible s') : s'.cfg.gridCap = s.cfg.gridCap := by rw [h.cfg]
theorem dictCap_eq (h : s.SameVisible s') : s'.cfg.dictCap = s.cfg.dictCap := by rw [h.cfg]
theorem dec_phase (h : s.SameVisible s') : s'.dec.phase = s.dec.phase := (congrArg Decoder.phase h.dec :)
theorem dec_seen (h : s.SameVisible s') : s'.dec.seen = s.dec.seen := (congrArg Decoder.seen h.dec :)
theorem dec_wcode (h : s.SameVisible s') : s'.dec.wcode = s.dec.wcode := (congrArg Decoder.wcode h.dec :)

/-- The registers that a CSR shows are visible (10_state.md R38). -/
theorem csrValue_eq (h : s.SameVisible s') (c : Csr) : csrValue s' c = csrValue s c := by
  cases c with
  | id => rfl
  | dictCap => exact h.dictCap_eq
  | gridCap => exact h.gridCap_eq
  | encStatus | encWcode | encErrInfo =>
    rw [csrValue, h.enc]
    rfl
  | encNext => exact h.encDict.1
  | decStatus | decWcode | decErrInfo =>
    rw [csrValue, h.dec]
    rfl
  | decNext => exact h.decDict.1
  | gridStatus => exact congrArg gridStatusWord h.grid.valid_eq
  | gridRows => exact h.grid.rows_eq
  | gridCols => exact h.grid.cols_eq

theorem respond (h : s.SameVisible s') (r : Response) : (s.respond r).SameVisible (s'.respond r) :=
  { h with rsps := congrArg (· ++ [r]) h.rsps }

theorem setInputs (h : s.SameVisible s') (l : List Input) :
    State.SameVisible { s with inputs := l } { s' with inputs := l } :=
  { h with inputs := rfl }

theorem setGrid (h : s.SameVisible s') {g g' : Grid} (hg : g.SameVisible g') :
    State.SameVisible { s with grid := g } { s' with grid := g' } :=
  { h with grid := hg }

theorem setEnc (h : s.SameVisible s') {u u' : Encoder} (hu : Encoder.Alike s.cfg u u') :
    State.SameVisible { s with enc := u } { s' with enc := u' } :=
  { h with enc := hu.regs, encDict := hu.dict }

theorem setDec (h : s.SameVisible s') {u u' : Decoder} (hu : u' = { u with dict := u'.dict })
    (hd : u.dict.SameVisible u'.dict) : State.SameVisible { s with dec := u } { s' with dec := u' } :=
  { h with dec := hu, decDict := hd }

theorem applyReset (h : s.SameVisible s') : s.applyReset.SameVisible s'.applyReset :=
  ⟨h.cfg, h.inputs, h.rsps, ⟨rfl, rfl, rfl, fun _ _ => rfl⟩, rfl, ⟨rfl, fun _ => rfl⟩, rfl, ⟨rfl, fun _ => rfl⟩⟩

theorem failDec (h : s.SameVisible s') (e : Status) (info : Word) :
    State.SameVisible { s with dec := s.dec.fail e info } { s' with dec := s'.dec.fail e info } :=
  h.setDec (by rw [h.dec]; rfl) h.decDict

end State.SameVisible

/-- Both outcomes are next states, and these differ at most in stale contents. -/
def BothNext (o o' : Outcome) : Prop := ∃ t t', o = .next t ∧ o' = .next t' ∧ t.SameVisible t'

theorem BothNext.answer {u u' : State} (h : u.SameVisible u') (r : Response) : BothNext (answer u r) (answer u' r) :=
  ⟨_, _, rfl, rfl, h.respond r⟩

theorem State.SameVisible.bothNext_of_encAnswersAlike {s s' : State} {o o' : Outcome} (h : s.SameVisible s')
    (ho : EncAnswersAlike s s' o o') : BothNext o o' := by
  obtain ⟨u, u', r, rfl, rfl, halike⟩ := ho
  exact .answer (h.setEnc halike) r

/-! ### The commands -/

section
variable {i : Instr} {s s' : State} (h : s.SameVisible s') (hs : s.Inv) (hs' : s'.Inv)
include h

theorem decPushFirst_bothNext (k : Nat) : BothNext (decPushFirst k s) (decPushFirst k s') := by
  rcases Nat.lt_or_ge k 256 with hk | hk
  · rw [decPushFirst_of_seed hk, decPushFirst_of_seed hk]
    refine .answer (h.setDec ?_ ?_) _
    · rw [h.dec]
    · exact h.decDict
  · rw [decPushFirst_of_malformed hk, decPushFirst_of_malformed hk]
    exact .answer (h.failDec ..) _

include hs

theorem exec_gridCommand_bothNext (hi : isGridCommand i = true) : BothNext (exec i s) (exec i s') := by
  cases i with
  | gridCreate rows cols =>
    simp only [exec, execGridCreate, h.gridCap_eq]
    split_ifs
    · exact .answer h _
    · exact .answer h _
    · exact .answer (h.setGrid (.create ..)) _
  | gridClear value =>
    simp only [exec, execGridClear, h.grid.valid_eq]
    split_ifs
    · exact .answer h _
    · exact .answer h _
    · exact .answer (h.setGrid (h.grid.fillCells _)) _
  | gridGet row col =>
    simp only [exec, execGridGet, h.grid.valid_eq, h.grid.inBounds_eq, h.grid.idx_eq]
    split_ifs with hv hin
    · exact .answer h _
    · exact .answer h _
    · have hlt := Grid.idx_lt_size (Bool.not_eq_false _ ▸ hin)
      obtain ⟨v, hcell⟩ := Option.isSome_iff_exists.mp (hs.grid.written _ hlt)
      rw [h.grid.cell_eq hlt, hcell]
      exact .answer h _
  | gridSet row col value =>
    simp only [exec, execGridSet, h.grid.valid_eq, h.grid.inBounds_eq, h.grid.idx_eq]
    split_ifs
    · exact .answer h _
    · exact .answer h _
    · exact .answer h _
    · exact .answer (h.setGrid (h.grid.setCell ..)) _
  | gridRows =>
    simp only [exec, execGridRows, h.grid.valid_eq, h.grid.rows_eq]
    split_ifs
    · exact .answer h _
    · exact .answer h _
  | gridCols =>
    simp only [exec, execGridCols, h.grid.valid_eq, h.grid.cols_eq]
    split_ifs
    · exact .answer h _
    · exact .answer h _
  | nop | readCsr | encStart | encPush | encFlush | encGrid | decStart | decPush | decFinish => cases hi

/-- A later code has the same entry in both (42_decoder.md R145). -/
theorem decPushLater_bothNext (hseen : s.dec.seen = true) (k : Nat) :
    BothNext (decPushLater k s) (decPushLater k s') := by
  have hnext := h.decDict.1
  rcases decPushLater_eq hs hseen k with ⟨hk, heq⟩ | ⟨hk, hfull, heq⟩ | ⟨hk, hroom, v, w, hentry, heq⟩
  · rw [heq, decPushLater_of_malformed (hnext ▸ hk)]
    exact .answer (h.failDec ..) _
  · rw [heq, decPushLater_of_full (hnext ▸ hk) (by rw [hnext, hfull, h.cfg])]
    exact .answer (h.failDec ..) _
  · have hentry' : s'.dec.entryOf (classify s'.dec.dict.next k) k = some (v :: w) := by
      rw [← hentry, hnext]
      simp only [Decoder.entryOf, h.dec_wcode, h.decDict.str_eq hs.dec.dict, h.decDict.first_eq hs.dec.dict]
    rw [heq, decPushLater_of_entry (hnext ▸ hk) (by rwa [hnext, h.cfg]) hentry']
    refine .answer (h.setDec ?_ ?_) _
    · rw [h.dec]
      rfl
    · show (s.dec.dict.insert s.dec.wcode v).SameVisible (s'.dec.dict.insert s'.dec.wcode v)
      rw [h.dec_wcode]
      exact h.decDict.insert hs.dec.dict hroom _ _

theorem exec_decCommand_bothNext (hi : isDecCommand i = true) : BothNext (exec i s) (exec i s') := by
  cases i with
  | decStart => exact .answer (h.setDec (by rfl) (.fresh ..)) _
  | decPush k =>
    simp only [exec, execDecPush, h.dec_phase, h.dec_seen]
    split_ifs with ha hseen
    · exact .answer h _
    · exact decPushFirst_bothNext h k
    · exact decPushLater_bothNext h hs (Bool.not_eq_false _ ▸ hseen) k
  | decFinish =>
    simp only [exec, execDecFinish, h.dec_phase, h.dec_seen]
    split_ifs
    · exact .answer h _
    · exact .answer (h.failDec ..) _
    · refine .answer (h.setDec ?_ ?_) _
      · rw [h.dec]
        rfl
      · exact h.decDict
  | nop | readCsr | gridCreate | gridClear | gridGet | gridSet | gridRows | gridCols | encStart | encPush | encFlush
  | encGrid => cases hi

include hs'

theorem exec_encCommand_bothNext (hi : isEncCommand i = true) : BothNext (exec i s) (exec i s') := by
  have henc := h.enc_alike hs hs'
  cases i with
  | encStart => exact .answer (h.setEnc (.start hs.params henc.inv henc.inv')) _
  | encPush c => exact h.bothNext_of_encAnswersAlike (execEncPush_alike henc h.dictCap_eq c)
  | encFlush => exact h.bothNext_of_encAnswersAlike (execEncFlush_alike henc)
  | encGrid =>
    obtain ⟨cs, hcs⟩ := hs.grid.symbols_defined
    obtain ⟨halike, hresponse⟩ := henc.pushAll cs
    simp only [exec, execEncGrid, henc.phase_eq, h.grid.valid_eq, hcs, h.grid.symbols_eq hcs, h.dictCap_eq,
      hresponse]
    split_ifs
    · exact .answer h _
    · exact .answer h _
    · exact .answer (h.setEnc halike) _
  | nop | readCsr | gridCreate | gridClear | gridGet | gridSet | gridRows | gridCols | decStart | decPush
  | decFinish => cases hi

theorem exec_bothNext (i : Instr) : BothNext (exec i s) (exec i s') := by
  cases i with
  | nop => exact .answer h _
  | readCsr n =>
    simp only [exec, execReadCsr, h.csrValue_eq]
    cases csrOfNumber n with
    | none => exact .answer h _
    | some c => exact .answer h _
  | gridCreate | gridClear | gridGet | gridSet | gridRows | gridCols => exact exec_gridCommand_bothNext h hs rfl
  | encStart | encPush | encFlush | encGrid => exact exec_encCommand_bothNext h hs hs' rfl
  | decStart | decPush | decFinish => exact exec_decCommand_bothNext h hs rfl

/-- Two states that differ at most in stale contents take the same step. -/
theorem step_bothNext : BothNext (step s) (step s') := by
  rcases step_cases s with ⟨hin, hstep⟩ | ⟨rest, hin, hstep⟩ | ⟨c, rest, why, hin, hdec, hstep⟩ |
    ⟨c, rest, i, hin, hdec, hstep⟩
  · exact ⟨_, _, hstep, step_of_no_input (h.inputs.trans hin), h⟩
  · exact ⟨_, _, hstep, step_of_reset (h.inputs.trans hin), (h.setInputs rest).applyReset⟩
  · rw [hstep, step_of_decode_error (h.inputs.trans hin) hdec]
    exact .answer (h.setInputs rest) _
  · rw [hstep, step_of_decode_ok (h.inputs.trans hin) hdec]
    exact exec_bothNext (h.setInputs rest) (hs.setInputs rest) (hs'.setInputs rest) i

end

/-- Settles O28: what a step reads is visible, by the command. -/
theorem staleContentsNeverObserved : Obligations.StaleContentsNeverObserved := by
  unfold Obligations.StaleContentsNeverObserved
  intro s s' t hs hs' h ht
  obtain ⟨t₁, t', ht₁, ht', hsame⟩ := step_bothNext h hs hs'
  rw [ht] at ht₁
  cases ht₁
  exact ⟨t', ht', hsame⟩

end Sys2Proof.Machine
end

section
/-! SUPPORT. Runs: one run after another, the first command of a run, and that a run is unique and keeps the
invariant. -/

namespace Sys2Proof.Machine

variable {s t u : State} {i j : Instr} {is js : List Instr} {r : Response} {rs rs' : List Response}

/-! ### Inputs sent later -/

/-- A step takes the oldest input, and any sent later stay (20_memory.md R61). -/
theorem step_withInputs_append {x : Input} {rest : List Input} (hin : s.inputs = x :: rest) (h : step s = .next t)
    (l : List Input) :
    t.inputs = rest ∧ step (s.withInputs (x :: rest ++ l)) = .next (t.withInputs (rest ++ l)) := by
  cases x with
  | reset =>
    rw [step_of_reset hin] at h
    cases h
    exact ⟨rfl, step_of_reset rfl⟩
  | command c =>
    cases hdec : decode c with
    | error why =>
      rw [step_of_decode_error hin hdec] at h
      obtain rfl := eq_respond_of_answer h
      exact ⟨rfl, step_of_decode_error rfl hdec⟩
    | ok i =>
      rw [step_of_decode_ok hin hdec] at h
      have hexec := exec_withInputs (rest ++ l) i { s with inputs := rest }
      rw [h] at hexec
      exact ⟨(exec_givesOneResponse i _ t h).2.1, (step_of_decode_ok rfl hdec).trans hexec⟩

theorem runSteps_withInputs_append {k : Nat} (h : runSteps k s = .next t) (hk : k ≤ s.inputs.length)
    (l : List Input) : runSteps k (s.withInputs (s.inputs ++ l)) = .next (t.withInputs (t.inputs ++ l)) := by
  induction k generalizing s with
  | zero =>
    cases h
    rfl
  | succ k ih =>
    obtain ⟨x, rest, hin⟩ := List.exists_cons_of_length_pos (Nat.lt_of_lt_of_le (Nat.succ_pos k) hk)
    rw [runSteps] at h ⊢
    cases hs : step s with
    | next u =>
      rw [hs] at h
      obtain ⟨hu, hstep⟩ := step_withInputs_append hin hs l
      have hlen : k ≤ u.inputs.length := by
        rw [hin] at hk
        exact hu ▸ Nat.le_of_succ_le_succ hk
      rw [hin, hstep, ← hu]
      exact ih h hlen
    | fault f | refused f =>
      rw [hs] at h
      cases h

/-! ### Runs of a sequence -/

/-- A run of one sequence and then of another is a run of both. -/
theorem RunsTo.append (h : RunsTo s is t rs) (h' : RunsTo t js u rs') : RunsTo s (is ++ js) u (rs ++ rs') := by
  obtain ⟨hrun, hin, hrsps, hlen⟩ := h
  obtain ⟨hrun', hin', hrsps', hlen'⟩ := h'
  have hfirst := runSteps_withInputs_append hrun (by simp [State.send]) (js.map fun j => .command (encode j))
  rw [hin] at hfirst
  have hsend : ({ s with inputs := [] }).send (is ++ js) =
      (({ s with inputs := [] }).send is).withInputs
        ((({ s with inputs := [] }).send is).inputs ++ js.map fun j => Input.command (encode j)) := by
    simp only [State.send, State.withInputs, List.map_append, List.nil_append]
  refine ⟨?_, hin', ?_, ?_⟩
  · rw [List.length_append, hsend, runSteps_add hfirst]
    exact hrun'
  · rw [hrsps', hrsps, List.append_assoc]
  · rw [List.length_append, List.length_append, hlen, hlen']

/-- A run is the command that its first word decodes to and then the run of the others. -/
theorem RunsTo.cons_decoded (hdec : decode (encode i) = .ok j) (hex : exec j s = .next u)
    (hr : u.rsps = s.rsps ++ [r]) (h : RunsTo u is t rs) : RunsTo s (i :: is) t (r :: rs) := by
  obtain ⟨hrun, hin, hrsps, hlen⟩ := h
  have hfirst := runSteps_command_next hdec hex (is.map fun j => .command (encode j)) is.length
  refine ⟨hfirst.trans hrun, hin, ?_, congrArg (· + 1) hlen⟩
  rw [hrsps, hr, List.append_assoc, List.singleton_append]

theorem RunsTo.single (hdec : decode (encode i) = .ok j) (hex : exec j s = .next (u.respond r))
    (hu : u.rsps = s.rsps) : RunsTo s [i] ((u.respond r).withInputs []) [r] :=
  .cons_decoded hdec hex (by rw [State.respond_rsps, hu]) (.nil _)

theorem RunsTo.unique {t' : State} (h : RunsTo s is t rs) (h' : RunsTo s is t' rs') : t' = t ∧ rs' = rs := by
  obtain ⟨hrun, -, hrsps, -⟩ := h
  obtain ⟨hrun', -, hrsps', -⟩ := h'
  rw [hrun] at hrun'
  cases hrun'
  exact ⟨rfl, List.append_cancel_left (hrsps'.symm.trans hrsps)⟩

theorem RunsTo.length_eq (h : RunsTo s is t rs) : rs.length = is.length := by
  obtain ⟨-, -, -, hlen⟩ := h
  exact hlen

theorem runSteps_keeps_inv {k : Nat} (hs : s.Inv) (h : runSteps k s = .next t) : t.Inv := by
  induction k generalizing s with
  | zero =>
    cases h
    exact hs
  | succ k ih =>
    rw [runSteps] at h
    cases hstep : step s with
    | next u =>
      rw [hstep] at h
      exact ih (stepKeepsInv s u hs hstep) h
    | fault f | refused f =>
      rw [hstep] at h
      cases h

theorem RunsTo.inv (hs : s.Inv) (h : RunsTo s is t rs) : t.Inv := by
  obtain ⟨hrun, -⟩ := h
  exact runSteps_keeps_inv (hs.setInputs _) hrun

/-- Commands that raise one error while the codec units are as in `s`, each answer it in a run. -/
theorem runsTo_of_raise {e : Status} {info : Word}
    (h : ∀ i ∈ is, ∃ j, decode (encode i) = .ok j ∧
      ∀ s' : State, s'.enc = s.enc → s'.dec = s.dec → exec j s' = raise e info s') :
    ∃ t, RunsTo s is t (List.replicate is.length (.error e info)) ∧ t.enc = s.enc ∧ t.dec = s.dec := by
  induction is generalizing s with
  | nil => exact ⟨_, .nil s, rfl, rfl⟩
  | cons i is ih =>
    obtain ⟨j, hdec, hj⟩ := h i List.mem_cons_self
    obtain ⟨t, hrun, henc, hdecoder⟩ :=
      ih (s := s.respond (.error e info)) fun i' hi' => h i' (List.mem_cons_of_mem i hi')
    exact ⟨t, .cons_decoded hdec (hj s rfl rfl) rfl hrun, henc, hdecoder⟩

/-! ### Outputs of a run -/

theorem outOfAll_append (rs rs' : List Response) : outOfAll (rs ++ rs') = outOfAll rs ++ outOfAll rs' :=
  List.flatMap_append

theorem allOk_append (rs rs' : List Response) : allOk (rs ++ rs') = (allOk rs && allOk rs') := List.all_append

end Sys2Proof.Machine
end

section
/-! PROOFS. The reference function `compress`: its invariant over the symbols read so far, and its properties
(41_encoder.md R120, R129, R130). -/

namespace Sys2Proof.Machine

variable {x : List Byte} {st : CompressState} {c : Byte}

/-- The dictionary of `compress` after an insertion. -/
theorem lookup_cons_insert {dict : List (List Byte × Nat)} {w : List Byte} {n : Nat} (w' : List Byte) :
    ((w, n) :: dict).lookup w' = if w' = w then some n else dict.lookup w' := by
  rw [List.lookup_cons]
  by_cases h : w' = w
  · simp [h]
  · simp [h, beq_eq_false_iff_ne.mpr h]

/-- A list of seeds holds each single symbol at its value. -/
theorem lookup_map_seed {l : List Nat} (hl : ∀ v ∈ l, v < 256) (w : List Byte) (n : Nat) :
    (l.map fun v => ([BitVec.ofNat 8 v], v)).lookup w = some n ↔ n ∈ l ∧ w = [BitVec.ofNat 8 n] := by
  induction l with
  | nil => simp
  | cons v l ih =>
    obtain ⟨hv, hl⟩ := List.forall_mem_cons.mp hl
    rw [List.map_cons, lookup_cons_insert, List.mem_cons]
    split_ifs with hw
    · subst hw
      constructor
      · rintro ⟨⟩
        exact ⟨.inl rfl, rfl⟩
      · rintro ⟨rfl | hn, heq⟩
        · rfl
        · exact congrArg some (seed_injective hv (hl n hn) heq)
    · rw [ih hl]
      constructor
      · exact fun ⟨hn, heq⟩ => ⟨.inr hn, heq⟩
      · rintro ⟨rfl | hn, heq⟩
        · exact absurd heq hw
        · exact ⟨hn, heq⟩

theorem lookup_compressInit (w : List Byte) (n : Nat) :
    compressInit.dict.lookup w = some n ↔ n < 256 ∧ w = [BitVec.ofNat 8 n] := by
  rw [← List.mem_range]
  exact lookup_map_seed (fun v => List.mem_range.mp) w n

/-! ### The invariant -/

/-- The state of `compress` after the symbols `x`. -/
structure CompressInv (x : List Byte) (st : CompressState) : Prop where
  next : st.next = 256 + st.out.length
  below : ∀ w n, st.dict.lookup w = some n → n < st.next
  seeds : ∀ v : Byte, st.dict.lookup [v] = some v.toNat
  working : st.w ≠ [] → ∃ n, st.dict.lookup st.w = some n
  length : st.out.length + st.w.length ≤ x.length
  started : x ≠ [] → st.w ≠ []
  codes : ∀ i k, st.out[i]? = some k → k < 256 + i

theorem CompressInv.init : CompressInv [] compressInit where
  next := rfl
  below w n h := ((lookup_compressInit w n).mp h).1
  seeds v := (lookup_compressInit [v] v.toNat).mpr ⟨v.isLt, by rw [BitVec.ofNat_toNat, BitVec.setWidth_eq]⟩
  working h := absurd rfl h
  length := Nat.le_refl 0
  started h := absurd rfl h
  codes i k h := by simp [compressInit] at h

theorem compressStep_of_some {n : Nat} (h : st.dict.lookup (st.w ++ [c]) = some n) :
    compressStep st c = { st with w := st.w ++ [c] } := by
  rw [compressStep, h]

theorem compressStep_of_none {k : Nat} (h : st.dict.lookup (st.w ++ [c]) = none) (hk : st.dict.lookup st.w = some k) :
    compressStep st c = ⟨(st.w ++ [c], st.next) :: st.dict, st.next + 1, [c], st.out ++ [k]⟩ := by
  rw [compressStep, h, CompressState.emitW, hk]
  rfl

/-- Where a step inserts, the working string has a code. -/
theorem CompressInv.lookup_working (h : CompressInv x st) (hno : st.dict.lookup (st.w ++ [c]) = none) :
    st.w ≠ [] ∧ ∃ k, st.dict.lookup st.w = some k := by
  have hne : st.w ≠ [] := by
    intro hw
    rw [hw, List.nil_append, h.seeds c] at hno
    cases hno
  exact ⟨hne, h.working hne⟩

theorem CompressInv.step (h : CompressInv x st) (c : Byte) : CompressInv (x ++ [c]) (compressStep st c) := by
  have hlen := h.length
  cases hl : st.dict.lookup (st.w ++ [c]) with
  | some n =>
    rw [compressStep_of_some hl]
    exact
      { next := h.next
        below := h.below
        seeds := h.seeds
        working := fun _ => ⟨n, hl⟩
        length := by
          simp only [List.length_append, List.length_singleton]
          omega
        started := fun _ => by simp
        codes := h.codes }
  | none =>
    obtain ⟨hne, k, hk⟩ := h.lookup_working hl
    have hpos := List.length_pos_iff.mpr hne
    rw [compressStep_of_none hl hk]
    have hnot : ∀ v : Byte, [v] ≠ st.w ++ [c] := fun v heq => by
      rw [← heq, h.seeds v] at hl
      cases hl
    exact
      { next := by rw [h.next, List.length_append, List.length_singleton, Nat.add_assoc]
        below := by
          intro w n hw
          rw [lookup_cons_insert] at hw
          split_ifs at hw
          · cases hw
            exact Nat.lt_succ_self _
          · exact Nat.lt_succ_of_lt (h.below w n hw)
        seeds := fun v => by rw [lookup_cons_insert, if_neg (hnot v), h.seeds]
        working := fun _ => ⟨c.toNat, by rw [lookup_cons_insert, if_neg (hnot c), h.seeds]⟩
        length := by
          simp only [List.length_append, List.length_singleton]
          omega
        started := fun _ => List.cons_ne_nil c []
        codes := by
          intro i k' hi
          have hbelow := h.below _ _ hk
          rw [h.next] at hbelow
          rw [List.getElem?_append] at hi
          split_ifs at hi with hlt
          · exact h.codes i k' hi
          · have hki := List.mem_of_getElem? hi
            rw [List.mem_singleton] at hki
            omega }

/-- The state of `compress` after the symbols, before its last code. -/
def compressRead (x : List Byte) : CompressState := x.foldl compressStep compressInit

theorem CompressInv.foldl {y : List Byte} (h : CompressInv y st) (x : List Byte) :
    CompressInv (y ++ x) (x.foldl compressStep st) := by
  induction x generalizing y st with
  | nil => rwa [List.append_nil]
  | cons c x ih =>
    have := ih (h.step c)
    rwa [List.append_assoc] at this

theorem compressRead_inv (x : List Byte) : CompressInv x (compressRead x) := CompressInv.init.foldl x

/-! ### The codes -/

theorem compress_nil : compress [] = [] := rfl

/-- After its codes so far, `compress` ends with the code of its working string. -/
theorem compress_eq (hx : x ≠ []) :
    ∃ k, (compressRead x).dict.lookup (compressRead x).w = some k ∧ compress x = (compressRead x).out ++ [k] := by
  have h := compressRead_inv x
  obtain ⟨k, hk⟩ := h.working (h.started hx)
  refine ⟨k, hk, ?_⟩
  rw [compress, ← compressRead, if_neg (h.started hx), CompressState.emitW, hk]
  rfl

theorem insertions_eq (x : List Byte) : insertions x = (compressRead x).out.length := by
  by_cases hx : x = []
  · subst hx
    rfl
  · obtain ⟨k, -, hc⟩ := compress_eq hx
    rw [insertions, hc, List.length_append, List.length_singleton, Nat.add_sub_cancel]

/-- Settles O49: by the invariant, with the last code at its end. -/
theorem compressProperties : Obligations.CompressProperties := by
  unfold Obligations.CompressProperties
  refine ⟨compress_nil, fun x => ?_⟩
  by_cases hx : x = []
  · subst hx
    exact ⟨fun h => absurd rfl h, Nat.le_refl 0, fun i k hi => by simp [compress_nil] at hi⟩
  · have h := compressRead_inv x
    obtain ⟨k, hk, hc⟩ := compress_eq hx
    have hlen : (compress x).length = (compressRead x).out.length + 1 := by
      rw [hc, List.length_append, List.length_singleton]
    have hpos := List.length_pos_iff.mpr (h.started hx)
    have hle := h.length
    refine ⟨fun _ => by omega, by omega, fun i k' hi => ?_⟩
    rw [hc, List.getElem?_append] at hi
    split_ifs at hi with hlt
    · exact h.codes i k' hi
    · have hbelow := h.below _ _ hk
      have hki := List.mem_of_getElem? hi
      rw [h.next] at hbelow
      rw [List.mem_singleton] at hki
      omega

end Sys2Proof.Machine
end

section
/-! PROOFS. A `compress` call of the block and the reference function (41_encoder.md R120, R128 to R131). -/

namespace Sys2Proof.Machine

/-! ### The simulation -/

/-- The encoder `u` is where the reference function is in the state `st`: the same number of codes, each code with the
string that the reference function has it for, and the working code of the working string. -/
structure Encoder.Simulates (u : Encoder) (st : CompressState) : Prop where
  next : u.dict.next.toNat = st.next
  lookup : ∀ w n, st.dict.lookup w = some n ↔ u.dict.str n = some w
  working : if u.wvalid then u.dict.str u.wcode.toNat = some st.w else st.w = []

section
variable {p : Params} {u u' : Encoder} {st : CompressState} {x : List Byte} {c : Byte} {out : List Word}

theorem Encoder.Simulates.start (hp : p.legal) (h : Encoder.Inv p u) : u.start.Simulates compressInit where
  next := rfl
  lookup w n := by
    have hd := (h.start hp).dict
    rw [lookup_compressInit]
    constructor
    · rintro ⟨hn, rfl⟩
      exact Dict.str_seed _ hn
    · intro hw
      have hn : n < 256 := hd.lt_of_str hw
      rw [Dict.str_seed _ hn] at hw
      exact ⟨hn, (Option.some_inj.mp hw).symm⟩
  working := rfl

theorem Encoder.Simulates.str_working (h : u.Simulates st) (hv : u.wvalid = true) :
    u.dict.str u.wcode.toNat = some st.w := by
  have := h.working
  rwa [if_pos hv] at this

/-- The match of the working code and a symbol is the code that the reference function has for the longer string: a
stored code's string is that of its pair, and no two codes have one string. -/
theorem Encoder.Simulates.lookup_eq_find (h : u.Simulates st) (hu : Encoder.Inv p u) (hv : u.wvalid = true) (c : Byte) :
    st.dict.lookup (st.w ++ [c]) = u.dict.find u.wcode c := by
  have hstr := h.str_working hv
  have hd := hu.dict
  cases hf : u.dict.find u.wcode c with
  | some n =>
    have hentry := Dict.find_some hd.canonical hf
    rw [h.lookup, Dict.str_entry hd.descends hentry, hstr]
    rfl
  | none =>
    cases hl : st.dict.lookup (st.w ++ [c]) with
    | none => rfl
    | some n =>
      have hn := (h.lookup _ _).mp hl
      obtain ⟨v, w, hw, -⟩ := hd.str_defined (hu.wcode_lt hv)
      have hlong : 256 ≤ n := by
        by_contra hlt
        rw [Dict.str_seed _ (Nat.lt_of_not_le hlt)] at hn
        rw [Option.some_inj.mp (hstr.symm.trans hw)] at hn
        simpa using congrArg List.length (Option.some_inj.mp hn)
      obtain ⟨e, w', hentry, -, -, hpre, hsplit⟩ := hd.str_of_stored hlong (hd.lt_of_str hn)
      obtain ⟨rfl, hsym⟩ := List.append_inj' (Option.some_inj.mp (hsplit.symm.trans hn)) rfl
      have hcode : e.pre = u.wcode := BitVec.eq_of_toNat_eq (hd.str_injective hu.distinct hpre hstr)
      obtain rfl : e = ⟨u.wcode, c⟩ := by rw [← hcode, ← List.singleton_inj.mp hsym]
      exact absurd hentry (Dict.find_none hf n)

/-- A push that completes takes the encoder where a step takes the reference function, and emits the codes that the step
adds. -/
theorem Encoder.Simulates.push (h : u.Simulates st) (hu : Encoder.Inv p u) (hst : CompressInv x st)
    (hp : u.push p.dictCap c = some (u', out)) :
    u'.Simulates (compressStep st c) ∧ (compressStep st c).out = st.out ++ out.map BitVec.toNat := by
  have hc : (zext32 c.toNat).toNat = c.toNat := zext32_toNat (by have := c.isLt; omega)
  have hseed : ∀ d : Dict, d.str (zext32 c.toNat).toNat = some [c] := fun d => by
    rw [hc, Dict.str_seed d c.isLt, BitVec.ofNat_toNat, BitVec.setWidth_eq]
  rcases Encoder.push_cases hp with ⟨hv, rfl, rfl⟩ | ⟨n, hv, hf, rfl, rfl⟩ | ⟨hv, hf, hroom, rfl, rfl⟩
  · have hw : st.w = [] := by
      have := h.working
      rwa [hv] at this
    have hl : st.dict.lookup (st.w ++ [c]) = some c.toNat := by rw [hw, List.nil_append, hst.seeds]
    rw [compressStep_of_some hl]
    exact ⟨⟨h.next, h.lookup, by rw [hw]; exact hseed _⟩, (List.append_nil _).symm⟩
  · have hl := (h.lookup_eq_find hu hv c).trans hf
    have hn : (zext32 n).toNat = n := by
      have := (Dict.entry_eq_some_iff _ _ _).mp (Dict.find_some hu.dict.canonical hf)
      exact zext32_toNat (Nat.lt_trans this.2.1 u.dict.next.isLt)
    rw [compressStep_of_some hl]
    refine ⟨⟨h.next, h.lookup, ?_⟩, (List.append_nil _).symm⟩
    show if u.wvalid = true then u.dict.str (zext32 n).toNat = _ else _
    rw [if_pos hv, hn]
    exact (h.lookup _ _).mp hl
  · have hd := hu.dict
    have hlt := hd.next_lt hroom
    have hl := (h.lookup_eq_find hu hv c).trans hf
    have hk : st.dict.lookup st.w = some u.wcode.toNat := (h.lookup _ _).mpr (h.str_working hv)
    rw [compressStep_of_none hl hk]
    refine ⟨⟨(Dict.insert_next_toNat hlt _ _).trans (congrArg (· + 1) h.next), fun w n => ?_, ?_⟩, rfl⟩
    · show _ ↔ (u.dict.insert u.wcode c).str n = some w
      rw [lookup_cons_insert, hd.str_insert hroom (hu.wcode_lt hv) (h.str_working hv), ← h.next]
      split_ifs with hw hn hn
      · simp [hw, hn]
      · refine ⟨fun heq => absurd (Option.some_inj.mp heq).symm hn, fun hstr => ?_⟩
        rw [hw, ← h.lookup, hl] at hstr
        cases hstr
      · rw [h.lookup, hn, hd.str_of_next_le (Nat.le_refl _), Option.some_inj]
        exact ⟨nofun, fun heq => absurd heq.symm hw⟩
      · exact h.lookup w n
    · show if u.wvalid = true then (u.dict.insert u.wcode c).str (zext32 c.toNat).toNat = _ else _
      rw [if_pos hv]
      exact hseed _

/-- A push that finds the dictionary full is a step that inserts. -/
theorem Encoder.Simulates.push_none (h : u.Simulates st) (hu : Encoder.Inv p u) (hst : CompressInv x st)
    (hp : u.push p.dictCap c = none) :
    st.out.length = p.dictCap.toNat - 256 ∧ ∃ k, (compressStep st c).out = st.out ++ [k] := by
  obtain ⟨hv, hf, hfull⟩ := (Encoder.push_eq_none_iff _ _ _).mp hp
  have hl := (h.lookup_eq_find hu hv c).trans hf
  obtain ⟨-, k, hk⟩ := hst.lookup_working hl
  refine ⟨?_, k, by rw [compressStep_of_none hl hk]⟩
  rw [← hfull, h.next, hst.next, Nat.add_sub_cancel_left]

theorem compressStep_out (st : CompressState) (c : Byte) : ∃ ks, (compressStep st c).out = st.out ++ ks := by
  rw [compressStep]
  split
  · exact ⟨[], (List.append_nil _).symm⟩
  · exact ⟨_, rfl⟩

/-- The codes so far stay the first ones. -/
theorem foldl_compressStep_out (st : CompressState) (cs : List Byte) :
    ∃ ks, (cs.foldl compressStep st).out = st.out ++ ks := by
  induction cs generalizing st with
  | nil => exact ⟨[], (List.append_nil _).symm⟩
  | cons c cs ih =>
    obtain ⟨ks, hks⟩ := compressStep_out st c
    obtain ⟨ks', hks'⟩ := ih (compressStep st c)
    exact ⟨ks ++ ks', by rw [List.foldl_cons, hks', hks, List.append_assoc]⟩

/-- How the pushes of `cs` and the reference function end: with the same codes while the dictionary has room, and not
complete where it has none. -/
structure PushesFollow (p : Params) (out : List Nat) (ps : Pushes) (st : CompressState) : Prop where
  codes : out ++ ps.out.map BitVec.toNat = st.out.take (p.dictCap.toNat - 256)
  fits : st.out.length ≤ p.dictCap.toNat - 256 → ps.complete = true ∧ ps.enc.Simulates st
  full : p.dictCap.toNat - 256 < st.out.length → ps.complete = false

theorem Encoder.Simulates.pushAll (h : u.Simulates st) (hu : Encoder.Inv p u) (hst : CompressInv x st)
    (cs : List Byte) : PushesFollow p st.out (u.pushAll p.dictCap cs) (cs.foldl compressStep st) := by
  have hroom : st.out.length ≤ p.dictCap.toNat - 256 := by
    have := hu.dict.high
    rw [h.next, hst.next] at this
    omega
  induction cs generalizing u st x with
  | nil =>
    exact ⟨(List.append_nil _).trans (List.take_of_length_le hroom).symm, fun _ => ⟨rfl, h⟩,
      fun hlt => absurd hroom (Nat.not_le.mpr hlt)⟩
  | cons c cs ih =>
    cases hp : u.push p.dictCap c with
    | none =>
      obtain ⟨hlen, k, hk⟩ := h.push_none hu hst hp
      obtain ⟨ks, hks⟩ := foldl_compressStep_out (compressStep st c) cs
      rw [hk, List.append_assoc] at hks
      rw [Encoder.pushAll_cons_none cs hp]
      refine ⟨?_, fun hle => ?_, fun _ => rfl⟩
      · rw [List.foldl_cons, hks, ← hlen, List.take_left]
        exact List.append_nil _
      · rw [List.foldl_cons, hks, ← hlen, List.length_append, List.singleton_append, List.length_cons] at hle
        omega
    | some pushed =>
      obtain ⟨u', out⟩ := pushed
      obtain ⟨hsim, hout⟩ := h.push hu hst hp
      have hinv := (hu.push hp).1
      have hroom' : (compressStep st c).out.length ≤ p.dictCap.toNat - 256 := by
        have := hinv.dict.high
        rw [hsim.next, (hst.step c).next] at this
        omega
      obtain ⟨hcodes, hfits, hfull⟩ := ih hsim hinv (hst.step c) hroom'
      rw [Encoder.pushAll_cons_some cs hp]
      refine ⟨?_, hfits, hfull⟩
      rw [List.foldl_cons, ← hcodes, hout, List.map_append, List.append_assoc]

end

/-! ### A call -/

variable {s : State} {x : List Byte}

/-- The commands of a call before its ENC_FLUSH. -/
theorem compress_expand (x : List Byte) :
    (Pseudo.compress (x.map fun b => (b.toNat : Int))).expand = (.encStart :: pushCommands x) ++ [.encFlush] := by
  simp [Pseudo.expand, pushCommands, Function.comp_def]

/-- The pushes of a fresh call. -/
def State.freshPushes (s : State) (x : List Byte) : Pushes := s.enc.start.pushAll s.cfg.dictCap x

theorem freshPushes_inv (hs : s.Inv) (x : List Byte) : Encoder.Inv s.cfg (s.freshPushes x).enc :=
  ((hs.enc.start hs.params).pushAll x).1

theorem freshPushes_follow (hs : s.Inv) (x : List Byte) : PushesFollow s.cfg [] (s.freshPushes x) (compressRead x) :=
  (Encoder.Simulates.start hs.params hs.enc).pushAll (hs.enc.start hs.params) .init x

/-- ENC_START and the pushes leave the unit that the pushes of a fresh call leave, and emit the same codes. -/
theorem runsTo_start_pushes (s : State) (x : List Byte) :
    ∃ rs, RunsTo s (.encStart :: pushCommands x) (s.afterPushes (s.freshPushes x).enc rs) rs ∧
      outOfAll rs = (s.freshPushes x).out ∧ allOk rs = (s.freshPushes x).complete := by
  obtain ⟨rs, hrun, hout, hok⟩ := runsTo_pushCommands (s := ({ s with enc := s.enc.start }).respond .done) rfl x
  rw [State.respond_afterPushes] at hrun
  exact ⟨.done :: rs, .cons (decode_encode rfl) rfl rfl hrun, hout, hok⟩

theorem freshPushes_active (h : (s.freshPushes x).complete = true) : (s.freshPushes x).enc.phase = .active := by
  rcases Encoder.pushAll_ends s.cfg.dictCap s.enc.start x with ⟨-, hphase, -⟩ | ⟨hstop, -⟩
  · exact hphase
  · rw [State.freshPushes, hstop] at h
    cases h

theorem freshPushes_failed (h : (s.freshPushes x).complete = false) :
    (s.freshPushes x).enc.phase = .faulted ∧ (s.freshPushes x).enc.err = .capacityExceeded ∧
      (s.freshPushes x).enc.errInfo = 1 := by
  rcases Encoder.pushAll_ends s.cfg.dictCap s.enc.start x with ⟨hcomplete, -⟩ | ⟨-, hend⟩
  · rw [State.freshPushes, hcomplete] at h
    cases h
  · exact hend

/-- Where the pushes complete, ENC_FLUSH emits the working code and ends the call. -/
theorem runsTo_compress_of_complete (h : (s.freshPushes x).complete = true) :
    ∃ t rs, RunsTo s (Pseudo.compress (x.map fun b => (b.toNat : Int))).expand t rs ∧ allOk rs = true ∧
      outOfAll rs = (s.freshPushes x).out ++ (s.freshPushes x).enc.pending ∧
      t.enc = (s.freshPushes x).enc.finish ∧ t.cfg = s.cfg ∧ t.grid = s.grid ∧ t.dec = s.dec := by
  obtain ⟨rs, hrun, hout, hok⟩ := runsTo_start_pushes s x
  have hflush : exec .encFlush (s.afterPushes (s.freshPushes x).enc rs) = _ :=
    execEncFlush_of_active (freshPushes_active h)
  rw [compress_expand]
  refine ⟨_, _, hrun.append (.single (decode_encode rfl) hflush rfl), ?_, ?_, rfl, rfl, rfl, rfl⟩
  · rw [allOk_append, hok, h]
    rfl
  · rw [outOfAll_append, hout]
    exact congrArg _ (List.append_nil _)

/-- Where the pushes stop, ENC_FLUSH raises an error and the call has failed. -/
theorem runsTo_compress_of_stopped (h : (s.freshPushes x).complete = false) :
    ∃ t rs, RunsTo s (Pseudo.compress (x.map fun b => (b.toNat : Int))).expand t rs ∧ allOk rs = false ∧
      outOfAll rs = (s.freshPushes x).out ∧ t.enc = (s.freshPushes x).enc := by
  obtain ⟨rs, hrun, hout, hok⟩ := runsTo_start_pushes s x
  have hidle : (s.afterPushes (s.freshPushes x).enc rs).enc.phase ≠ .active := by
    show (s.freshPushes x).enc.phase ≠ .active
    simp [(freshPushes_failed h).1]
  have hflush := exec_encCommand_of_not_active (i := .encFlush) rfl nofun hidle
  rw [compress_expand]
  refine ⟨_, _, hrun.append (.single (decode_encode rfl) hflush rfl), ?_, ?_, rfl⟩
  · rw [allOk_append, hok, h]
    rfl
  · rw [outOfAll_append, hout]
    exact List.append_nil _

/-- What ENC_FLUSH emits after the codes of the pushes makes them the codes of the reference function. -/
theorem codes_with_pending {u : Encoder} (h : u.Simulates (compressRead x)) :
    (compressRead x).out ++ u.pending.map BitVec.toNat = compress x := by
  have hinv := compressRead_inv x
  by_cases hx : x = []
  · subst hx
    have hv : u.wvalid = false := by
      by_contra hv
      have hstr := h.str_working (Bool.not_eq_false _ ▸ hv)
      have := (lookup_compressInit _ _).mp ((h.lookup _ _).mpr hstr)
      exact absurd this.2 (by simp [compressRead, compressInit])
    rw [Encoder.pending, hv]
    rfl
  · obtain ⟨k, hk, hc⟩ := compress_eq hx
    have hv : u.wvalid = true := by
      by_contra hv
      have hw := h.working
      rw [if_neg hv] at hw
      exact hinv.started hx hw
    have hcode := (h.lookup _ _).mpr (h.str_working hv)
    rw [hk, Option.some_inj] at hcode
    rw [Encoder.pending, if_pos hv, hc, hcode]
    rfl

/-- A call whose insertions fit: it ends well with the codes of the reference function, and the encoder it leaves has
the dictionary of the reference function. -/
theorem runsTo_compress_of_fits (hs : s.Inv) (h : insertions x ≤ s.cfg.dictCap.toNat - 256) :
    ∃ t rs, RunsTo s (Pseudo.compress (x.map fun b => (b.toNat : Int))).expand t rs ∧ allOk rs = true ∧
      (outOfAll rs).map BitVec.toNat = compress x ∧ t.enc = (s.freshPushes x).enc.finish ∧ t.cfg = s.cfg ∧
      t.grid = s.grid ∧ t.dec = s.dec ∧ (s.freshPushes x).enc.Simulates (compressRead x) := by
  obtain ⟨hcodes, hfits, -⟩ := freshPushes_follow hs x
  rw [insertions_eq] at h
  obtain ⟨hcomplete, hsim⟩ := hfits h
  obtain ⟨t, rs, hrun, hok, hout, henc, hcfg, hgrid, hdec⟩ := runsTo_compress_of_complete hcomplete
  refine ⟨t, rs, hrun, hok, ?_, henc, hcfg, hgrid, hdec, hsim⟩
  rw [hout, List.map_append, ← codes_with_pending hsim, ← List.take_of_length_le h, ← hcodes, List.nil_append]

/-- Settles O46: the pushes follow the reference function, and ENC_FLUSH adds its last code. -/
theorem compressMatchesReference : Obligations.CompressMatchesReference := by
  unfold Obligations.CompressMatchesReference
  intro s x hs h
  obtain ⟨t, rs, hrun, hok, hcodes, henc, -, hgrid, hdec, hsim⟩ := runsTo_compress_of_fits hs h
  refine ⟨t, rs, hrun, hok, hcodes, by rw [henc]; rfl, ?_, hgrid, hdec⟩
  rw [henc, insertions_eq, ← (compressRead_inv x).next]
  exact hsim.next

/-- Settles O47: the pushes stop where the dictionary is full, with the codes the reference function has by then. -/
theorem compressFailsAtCapacity : Obligations.CompressFailsAtCapacity := by
  unfold Obligations.CompressFailsAtCapacity
  intro s x hs h
  obtain ⟨hcodes, -, hfull⟩ := freshPushes_follow hs x
  rw [insertions_eq] at h
  obtain ⟨t, rs, hrun, hok, hout, henc⟩ := runsTo_compress_of_stopped (hfull h)
  refine ⟨t, rs, hrun, hok, ?_, henc ▸ freshPushes_failed (hfull h)⟩
  have hx : x ≠ [] := by
    rintro rfl
    exact absurd h (Nat.not_lt_zero _)
  obtain ⟨k, -, hc⟩ := compress_eq hx
  rw [hout, hc, List.take_append_of_le_length (Nat.le_of_lt h), ← hcodes, List.nil_append]

/-! ### A value that is no symbol -/

/-- ENC_PUSH of any integer is sent as an ENC_PUSH of its low 32 bits (log 9). -/
theorem decode_encode_encPush_any (v : Int) : decode (encode (.encPush v)) = .ok (.encPush (sint32 (word32 v))) :=
  decode_select (op := 0x21#8) rfl

/-- After a failed call, pushes and ENC_FLUSH raise `SequenceError(2)`. -/
theorem runsTo_encCommands_of_not_active (h : s.enc.phase ≠ .active) (y : List Int) :
    ∃ t, RunsTo s (y.map .encPush ++ [.encFlush]) t
        (List.replicate (y.length + 1) (.error .sequenceError 2)) ∧ t.enc = s.enc := by
  have hlen : (y.map Instr.encPush ++ [Instr.encFlush]).length = y.length + 1 := by simp
  obtain ⟨t, hrun, henc, -⟩ := runsTo_of_raise (s := s) (is := y.map Instr.encPush ++ [.encFlush]) (e := .sequenceError)
    (info := 2) fun i hi => by
      rcases List.mem_append.mp hi with hi | hi
      · obtain ⟨v, -, rfl⟩ := List.mem_map.mp hi
        exact ⟨_, decode_encode_encPush_any v,
          fun s' he _ => exec_encCommand_of_not_active rfl nofun (by rwa [he])⟩
      · rw [List.mem_singleton.mp hi]
        exact ⟨_, decode_encode rfl, fun s' he _ => exec_encCommand_of_not_active rfl nofun (by rwa [he])⟩
  exact ⟨t, hlen ▸ hrun, henc⟩

/-- Settles O48: the symbols before are pushed, the value fails the call, and what follows it finds the call failed. -/
theorem compressRejectsNonSymbol : Obligations.CompressRejectsNonSymbol := by
  unfold Obligations.CompressRejectsNonSymbol
  intro s x v y hs hfit hbad hwf
  obtain ⟨-, hfits, -⟩ := freshPushes_follow hs x
  obtain ⟨hcomplete, -⟩ := hfits (insertions_eq x ▸ hfit)
  obtain ⟨rs, hrun, -, hok⟩ := runsTo_start_pushes s x
  have hfail : exec (.encPush v) (s.afterPushes (s.freshPushes x).enc rs) = _ :=
    execEncPush_of_not_isSym (freshPushes_active hcomplete) ((isSym_eq_false_iff v).mpr hbad)
  obtain ⟨t, hrest, henc⟩ := runsTo_encCommands_of_not_active
    (s := ({ s.afterPushes (s.freshPushes x).enc rs with
      enc := (s.freshPushes x).enc.fail .outOfRange (word32 v) }).respond (.error .outOfRange (word32 v)))
    (by simp) y
  have hexpand : (Pseudo.compress ((x.map fun b => (b.toNat : Int)) ++ v :: y)).expand =
      (.encStart :: pushCommands x) ++ .encPush v :: (y.map .encPush ++ [.encFlush]) := by
    simp [Pseudo.expand, pushCommands, Function.comp_def]
  rw [hexpand]
  refine ⟨t, _, rs, _, hrun.append (.cons (decode_encode hwf) hfail rfl hrest), by rw [List.append_assoc]; rfl, ?_, ?_,
    fun r hr => List.eq_of_mem_replicate hr, by rw [henc]; rfl, by rw [henc]; rfl, by rw [henc]; rfl⟩
  · rw [hok, hcomplete]
  · rw [hrun.length_eq]
    simp [pushCommands]

/-! ### Earlier calls -/

theorem Encoder.Inv.of_dictCap {p p' : Params} {u : Encoder} (hcap : p'.dictCap = p.dictCap) (h : Encoder.Inv p' u) :
    Encoder.Inv p u :=
  ⟨⟨h.dict.low, hcap ▸ h.dict.high, h.dict.canonical, hcap ▸ h.dict.bounded, h.dict.stored⟩, h.distinct, h.code,
    h.error⟩

/-- The pushes of any integers and ENC_FLUSH give the same responses from encoders that differ at most in stale
entries. -/
theorem runsTo_alike {s s' : State} (hcap : s'.cfg.dictCap = s.cfg.dictCap) (h : Encoder.Alike s.cfg s.enc s'.enc)
    (x : List Int) :
    ∃ t t' rs, RunsTo s (x.map .encPush ++ [.encFlush]) t rs ∧ RunsTo s' (x.map .encPush ++ [.encFlush]) t' rs ∧
      Encoder.Alike s.cfg t.enc t'.enc := by
  induction x generalizing s s' with
  | nil =>
    obtain ⟨u, u', r, hex, hex', halike⟩ := execEncFlush_alike h
    exact ⟨_, _, _, .single (decode_encode rfl) hex rfl, .single (decode_encode rfl) hex' rfl, halike⟩
  | cons v x ih =>
    obtain ⟨u, u', r, hex, hex', halike⟩ := execEncPush_alike h hcap (sint32 (word32 v))
    obtain ⟨t, t', rs, hrun, hrun', halike'⟩ :=
      ih (s := ({ s with enc := u }).respond r) (s' := ({ s' with enc := u' }).respond r) hcap halike
    have hdec := decode_encode_encPush_any v
    exact ⟨t, t', r :: rs, .cons_decoded hdec hex rfl hrun, .cons_decoded hdec hex' rfl hrun', halike'⟩

/-- Settles O50: ENC_START leaves encoders that differ at most in stale entries, and a run is unique. -/
theorem encoderForgetsThePast : Obligations.EncoderForgetsThePast := by
  unfold Obligations.EncoderForgetsThePast
  intro s s' t t' x rs rs' hs hs' hcap hrun hrun'
  obtain ⟨u, u', rs₀, hu, hu', halike⟩ := runsTo_alike (s := ({ s with enc := s.enc.start }).respond .done)
    (s' := ({ s' with enc := s'.enc.start }).respond .done) hcap
    (.start hs.params hs.enc (hs'.enc.of_dictCap hcap)) x
  obtain ⟨rfl, rfl⟩ := (RunsTo.cons (decode_encode rfl) rfl rfl hu).unique hrun
  obtain ⟨rfl, rfl⟩ := (RunsTo.cons (decode_encode rfl) rfl rfl hu').unique hrun'
  exact ⟨rfl, halike.phase_eq, halike.wvalid_eq, halike.wcode_eq, halike.dict.1, halike.err_eq, halike.errInfo_eq⟩

end Sys2Proof.Machine
end

section
/-! PROOFS. A `decompress` call of the block and the reference function (42_decoder.md R140, R147, R148). -/

namespace Sys2Proof.Machine

/-! ### The reference function as a fold -/

/-- The state of `decompress` after its first code. -/
def decompressStart (k : Nat) : DecompressState := ⟨decompressSeeds, 256, [BitVec.ofNat 8 k], [BitVec.ofNat 8 k]⟩

/-- The dictionary of `decompress` after an insertion. -/
theorem lookup_cons_insertCode {dict : List (Nat × List Byte)} {n : Nat} {w : List Byte} (m : Nat) :
    ((n, w) :: dict).lookup m = if m = n then some w else dict.lookup m := by
  rw [List.lookup_cons]
  by_cases h : m = n
  · simp [h]
  · simp [h, beq_eq_false_iff_ne.mpr h]

theorem lookup_decompressSeeds (n : Nat) :
    decompressSeeds.lookup n = if n < 256 then some [BitVec.ofNat 8 n] else none := by
  have hmap : ∀ l : List Nat, (l.map fun v => (v, [BitVec.ofNat 8 v])).lookup n =
      if n ∈ l then some [BitVec.ofNat 8 n] else none := by
    intro l
    induction l with
    | nil => rfl
    | cons v l ih =>
      rw [List.map_cons, lookup_cons_insertCode, ih]
      by_cases h : n = v <;> simp [h]
  have := hmap (List.range 256)
  simp only [List.mem_range] at this
  exact this

theorem decompressRest_eq (st : DecompressState) (ks : List Nat) :
    decompressRest st ks = (ks.foldlM decompressStep st).map DecompressState.result := by
  induction ks generalizing st with
  | nil => rfl
  | cons k ks ih =>
    rw [decompressRest, List.foldlM_cons]
    cases decompressStep st k with
    | error e => rfl
    | ok st' => exact ih st'

theorem decompress_cons_of_malformed {k : Nat} (h : 256 ≤ k) (ks : List Nat) :
    decompress (k :: ks) = .error (.malformedCode k) := if_pos h

theorem decompress_cons_of_seed {k : Nat} (h : k < 256) (ks : List Nat) :
    decompress (k :: ks) = (ks.foldlM decompressStep (decompressStart k)).map DecompressState.result := by
  rw [← decompressRest_eq]
  exact if_neg (Nat.not_le.mpr h)

theorem decompress_cons_ok {k : Nat} {ks : List Nat} {x : List Byte} (h : decompress (k :: ks) = .ok x) :
    k < 256 ∧ ∃ st, ks.foldlM decompressStep (decompressStart k) = .ok st ∧ st.result = x := by
  rcases Nat.lt_or_ge k 256 with hk | hk
  · rw [decompress_cons_of_seed hk] at h
    cases hfold : ks.foldlM decompressStep (decompressStart k) with
    | error e =>
      rw [hfold] at h
      cases h
    | ok st =>
      rw [hfold] at h
      cases h
      exact ⟨hk, st, rfl, rfl⟩
  · rw [decompress_cons_of_malformed hk] at h
    cases h

theorem decompressStep_of_some {st : DecompressState} {k : Nat} {entry : List Byte}
    (h : st.dict.lookup k = some entry) : decompressStep st k = .ok (decompressStep.next st entry) := by
  rw [decompressStep, h]

theorem decompressStep_of_next {st : DecompressState} {k : Nat} (h : st.dict.lookup k = none) (hk : k = st.next) :
    decompressStep st k = .ok (decompressStep.next st (st.w ++ st.w.take 1)) := by
  rw [decompressStep, h]
  exact if_pos hk

theorem decompressStep_of_malformed {st : DecompressState} {k : Nat} (h : st.dict.lookup k = none) (hk : k ≠ st.next) :
    decompressStep st k = .error (.malformedCode k) := by
  rw [decompressStep, h]
  exact if_neg hk

/-! ### The simulation -/

/-- The decoder `u` is where the reference function is in the state `st`: the same number of codes with the same
strings, and the working code of the previous string. -/
structure Decoder.Simulates (u : Decoder) (st : DecompressState) : Prop where
  next : u.dict.next.toNat = st.next
  lookup : ∀ n, st.dict.lookup n = u.dict.str n
  working : u.dict.str u.wcode.toNat = some st.w

section
variable {p : Params} {u : Decoder} {st st' : DecompressState} {k : Nat}

theorem Decoder.Simulates.start (hp : p.legal) (h : Decoder.Inv p u) (hk : k < 256) :
    Decoder.Simulates { u.start with seen := true, wcode := zext32 k } (decompressStart k) where
  next := rfl
  lookup n := by
    show decompressSeeds.lookup n = u.dict.fresh.str n
    rw [lookup_decompressSeeds]
    split_ifs with hn
    · exact (Dict.str_seed _ hn).symm
    · exact ((h.start hp).dict.str_of_next_le (Nat.le_of_not_lt hn)).symm
  working := by
    show u.dict.fresh.str (zext32 k).toNat = _
    rw [zext32_toNat (by omega), Dict.str_seed _ hk]
    rfl

/-- A later code that the reference function takes is known or the sentinel, and the block has the same entry for it. -/
theorem Decoder.Simulates.entryOf_of_ok (h : u.Simulates st) (hu : Decoder.Inv p u) (hseen : u.seen = true)
    (hk : decompressStep st k = .ok st') :
    k ≤ u.dict.next.toNat ∧ ∃ v w, u.entryOf (classify u.dict.next k) k = some (v :: w) ∧
      st' = decompressStep.next st (v :: w) := by
  rcases Nat.lt_trichotomy k u.dict.next.toNat with hlt | heq | hlt
  · obtain ⟨v, w, hstr, -⟩ := hu.dict.str_defined hlt
    rw [decompressStep_of_some ((h.lookup k).trans hstr)] at hk
    cases hk
    exact ⟨hlt.le, v, w, by rw [classify_known hlt]; exact hstr, rfl⟩
  · obtain ⟨v, w, hstr, hfirst⟩ := hu.dict.str_defined (hu.wcode_lt hseen)
    have hw : st.w = v :: w := Option.some_inj.mp (h.working.symm.trans hstr)
    rw [decompressStep_of_next ((h.lookup k).trans (hu.dict.str_of_next_le heq.ge)) (heq.trans h.next), hw] at hk
    cases hk
    refine ⟨heq.le, v, w ++ [v], ?_, rfl⟩
    simp only [classify_sentinel heq, Decoder.entryOf, hstr, hfirst, List.cons_append]
  · rw [decompressStep_of_malformed ((h.lookup k).trans (hu.dict.str_of_next_le hlt.le))
      (fun heq => Nat.ne_of_gt hlt (heq.trans h.next.symm))] at hk
    cases hk

theorem Decoder.Simulates.malformed_of_error (h : u.Simulates st) (hu : Decoder.Inv p u) {e : DecompressError}
    (hk : decompressStep st k = .error e) : u.dict.next.toNat < k ∧ e = .malformedCode k := by
  cases hl : st.dict.lookup k with
  | some entry =>
    rw [decompressStep_of_some hl] at hk
    cases hk
  | none =>
    by_cases heq : k = st.next
    · rw [decompressStep_of_next hl heq] at hk
      cases hk
    · rw [decompressStep_of_malformed hl heq] at hk
      cases hk
      refine ⟨Nat.lt_of_not_le fun hle => ?_, rfl⟩
      obtain ⟨v, w, hstr, -⟩ := hu.dict.str_defined (Nat.lt_of_le_of_ne hle fun hn => heq (hn.trans h.next))
      rw [h.lookup, hstr] at hl
      cases hl

/-- Consuming the code takes the decoder where the step takes the reference function. The sentinel's string is that of
the entry inserted, whose symbol is the first of the previous string. -/
theorem Decoder.Simulates.accept (h : u.Simulates st) (hu : Decoder.Inv p u) (hseen : u.seen = true)
    (hroom : u.dict.next ≠ p.dictCap) {v : Byte} {w : List Byte}
    (hentry : u.entryOf (classify u.dict.next k) k = some (v :: w)) (hk : k ≤ u.dict.next.toNat) :
    (u.accept k v).Simulates (decompressStep.next st (v :: w)) := by
  have hcode := hu.wcode_lt hseen
  have hstr := hu.dict.str_insert hroom hcode h.working v
  refine ⟨(Dict.insert_next_toNat (hu.dict.next_lt hroom) _ _).trans (congrArg (· + 1) h.next), fun n => ?_, ?_⟩
  · show ((st.next, st.w ++ [v]) :: st.dict).lookup n = (u.dict.insert u.wcode v).str n
    rw [lookup_cons_insertCode, hstr, h.next, h.lookup]
  · show (u.dict.insert u.wcode v).str (zext32 k).toNat = some (v :: w)
    rw [zext32_toNat (Nat.lt_of_le_of_lt hk u.dict.next.isLt), hstr]
    split_ifs with hn
    · obtain ⟨v', w', hw', hfirst⟩ := hu.dict.str_defined hcode
      simp only [classify_sentinel hn, Decoder.entryOf, hw', hfirst, List.cons_append, Option.some_inj,
        List.cons.injEq] at hentry
      obtain ⟨rfl, rfl⟩ := hentry
      rw [← Option.some_inj.mp (hw'.symm.trans h.working)]
      rfl
    · rw [classify_known (Nat.lt_of_le_of_ne hk hn)] at hentry
      exact hentry

end

/-! ### A run of codes -/

theorem decode_encode_decPush {k : Nat} (h : k < 2 ^ 32) : decode (encode (.decPush k)) = .ok (.decPush k) :=
  decode_encode (decide_eq_true h)

/-- A call of the decoder that has seen a code, where the reference function is in the state `st`. -/
structure DecodingAt (s : State) (st : DecompressState) : Prop where
  active : s.dec.phase = .active
  seen : s.dec.seen = true
  simulates : s.dec.Simulates st

variable {s : State} {st st' : DecompressState} {k : Nat} {ks : List Nat}

/-- A code that the reference function takes is taken by the block, which emits what the step adds to the result. -/
theorem DecodingAt.push (h : DecodingAt s st) (hs : s.Inv) (hroom : s.dec.dict.next ≠ s.cfg.dictCap)
    (hk : decompressStep st k = .ok st') :
    ∃ d r, exec (.decPush k) s = .next (({ s with dec := d }).respond r) ∧ r.status = .ok ∧
      symbolWords st'.result = symbolWords st.result ++ r.out ∧ d.dict.next.toNat = s.dec.dict.next.toNat + 1 ∧
      DecodingAt (({ s with dec := d }).respond r) st' := by
  obtain ⟨hle, v, w, hentry, rfl⟩ := h.simulates.entryOf_of_ok hs.dec h.seen hk
  have hex : exec (.decPush k) s = _ :=
    (execDecPush_of_seen h.active h.seen).trans (decPushLater_of_entry hle hroom hentry)
  exact ⟨_, _, hex, rfl, List.map_append, Dict.insert_next_toNat (hs.dec.dict.next_lt hroom) _ _,
    h.active, h.seen, h.simulates.accept hs.dec h.seen hroom hentry hle⟩

/-- While there is room, the codes that the reference function takes are taken, and their strings emitted. -/
theorem DecodingAt.runsTo_pushes (h : DecodingAt s st) (hs : s.Inv) (hks : ∀ c ∈ ks, c < 2 ^ 32)
    (hroom : s.dec.dict.next.toNat + ks.length ≤ s.cfg.dictCap.toNat) (hfold : ks.foldlM decompressStep st = .ok st') :
    ∃ t rs, RunsTo s (ks.map .decPush) t rs ∧ allOk rs = true ∧
      symbolWords st'.result = symbolWords st.result ++ outOfAll rs ∧ DecodingAt t st' ∧ t.enc = s.enc := by
  induction ks generalizing s st with
  | nil =>
    cases hfold
    exact ⟨_, _, .nil s, rfl, (List.append_nil _).symm, ⟨h.active, h.seen, h.simulates⟩, rfl⟩
  | cons k ks ih =>
    obtain ⟨hk, hks⟩ := List.forall_mem_cons.mp hks
    rw [List.length_cons] at hroom
    rw [List.foldlM_cons] at hfold
    cases hstep : decompressStep st k with
    | error e =>
      rw [hstep] at hfold
      cases hfold
    | ok st₁ =>
      rw [hstep] at hfold
      have hne : s.dec.dict.next ≠ s.cfg.dictCap := fun heq => by
        rw [heq] at hroom
        omega
      obtain ⟨d, r, hex, hok, hout, hnext, hat⟩ := h.push hs hne hstep
      obtain ⟨t, rs, hrun, hoks, houts, hend, henc⟩ := ih hat (exec_keeps_inv hs hex) hks
        (by show d.dict.next.toNat + ks.length ≤ s.cfg.dictCap.toNat; omega) hfold
      refine ⟨t, r :: rs, .cons (decode_encode_decPush hk) hex rfl hrun, ?_, ?_, hend, henc⟩
      · simp only [allOk, List.all_cons, hok] at hoks ⊢
        exact hoks
      · rw [houts, hout, List.append_assoc]
        rfl

/-! ### A failed call -/

/-- After a failed call, pushes and DEC_FINISH raise `SequenceError(3)`. -/
theorem runsTo_decCommands_of_not_active (h : s.dec.phase ≠ .active) (hks : ∀ c ∈ ks, c < 2 ^ 32) :
    ∃ t, RunsTo s (ks.map .decPush ++ [.decFinish]) t
        (List.replicate (ks.length + 1) (.error .sequenceError 3)) ∧ t.dec = s.dec := by
  have hlen : (ks.map Instr.decPush ++ [Instr.decFinish]).length = ks.length + 1 := by simp
  obtain ⟨t, hrun, -, hdec⟩ := runsTo_of_raise (s := s) (is := ks.map Instr.decPush ++ [.decFinish])
    (e := .sequenceError) (info := 3) fun i hi => by
      rcases List.mem_append.mp hi with hi | hi
      · obtain ⟨c, hc, rfl⟩ := List.mem_map.mp hi
        exact ⟨_, decode_encode_decPush (hks c hc),
          fun s' _ hd => exec_decCommand_of_not_active rfl nofun (by rwa [hd])⟩
      · rw [List.mem_singleton.mp hi]
        exact ⟨_, decode_encode rfl, fun s' _ hd => exec_decCommand_of_not_active rfl nofun (by rwa [hd])⟩
  exact ⟨t, hlen ▸ hrun, hdec⟩

/-- What is around the error of a run of the codes `ks` and DEC_FINISH whose first malformed code is `c`: the responses
`before` it are OK and those `after` it are `SequenceError(3)`, and `t` is left with the failed call. -/
structure FailsAtMalformed (t : State) (ks : List Nat) (c : Nat) (before after : List Response) : Prop where
  ok : allOk before = true
  code : ks[before.length]? = some c
  rest : ∀ r ∈ after, r = ⟨.sequenceError, 3, 0, []⟩
  ends : after ≠ []
  dec : t.dec.phase = .faulted ∧ t.dec.err = .malformedCode ∧ t.dec.errInfo = BitVec.ofNat 32 c

/-- The code that fails the call, and the commands after it. -/
theorem runsTo_of_malformed (hk : k < 2 ^ 32) (hks : ∀ c ∈ ks, c < 2 ^ 32)
    (hex : exec (.decPush k) s = raiseDec .malformedCode (zext32 k) s) :
    ∃ t after, RunsTo s ((k :: ks).map .decPush ++ [.decFinish]) t (.error .malformedCode (zext32 k) :: after) ∧
      FailsAtMalformed t (k :: ks) k [] after := by
  obtain ⟨t, hrun, hdec⟩ := runsTo_decCommands_of_not_active (ks := ks)
    (s := ({ s with dec := s.dec.fail .malformedCode (zext32 k) }).respond (.error .malformedCode (zext32 k)))
    (by simp) hks
  refine ⟨t, _, .cons (decode_encode_decPush hk) hex rfl hrun, rfl, rfl, fun r hr => List.eq_of_mem_replicate hr,
    by simp, ?_⟩
  rw [hdec]
  exact ⟨rfl, rfl, rfl⟩

theorem FailsAtMalformed.cons {t : State} {c : Nat} {before after : List Response} {r : Response}
    (h : FailsAtMalformed t ks c before after) (hr : r.status = .ok) :
    FailsAtMalformed t (k :: ks) c (r :: before) after :=
  ⟨by simpa [allOk, hr] using h.ok, h.code, h.rest, h.ends, h.dec⟩

/-- Where the reference function fails, so does the block, at the same code. -/
theorem DecodingAt.runsTo_malformed (h : DecodingAt s st) (hs : s.Inv) (hks : ∀ c ∈ ks, c < 2 ^ 32)
    (hroom : s.dec.dict.next.toNat + ks.length ≤ s.cfg.dictCap.toNat) {e : DecompressError}
    (hfold : ks.foldlM decompressStep st = .error e) :
    ∃ c t before after, e = .malformedCode c ∧
      RunsTo s (ks.map .decPush ++ [.decFinish]) t (before ++ .error .malformedCode (zext32 c) :: after) ∧
      FailsAtMalformed t ks c before after := by
  induction ks generalizing s st with
  | nil => cases hfold
  | cons k ks ih =>
    obtain ⟨hk, hks⟩ := List.forall_mem_cons.mp hks
    rw [List.length_cons] at hroom
    rw [List.foldlM_cons] at hfold
    cases hstep : decompressStep st k with
    | error e' =>
      rw [hstep] at hfold
      cases hfold
      obtain ⟨hlt, rfl⟩ := h.simulates.malformed_of_error hs.dec hstep
      have hex := (execDecPush_of_seen (k := k) h.active h.seen).trans (decPushLater_of_malformed hlt)
      obtain ⟨t, after, hrun, hfails⟩ := runsTo_of_malformed hk hks hex
      exact ⟨k, t, [], after, rfl, hrun, hfails⟩
    | ok st₁ =>
      rw [hstep] at hfold
      have hne : s.dec.dict.next ≠ s.cfg.dictCap := fun heq => by
        rw [heq] at hroom
        omega
      obtain ⟨d, r, hex, hok, -, hnext, hat⟩ := h.push hs hne hstep
      obtain ⟨c, t, before, after, he, hrun, hfails⟩ := ih hat (exec_keeps_inv hs hex) hks
        (by show d.dict.next.toNat + ks.length ≤ s.cfg.dictCap.toNat; omega) hfold
      exact ⟨c, t, r :: before, after, he, .cons (decode_encode_decPush hk) hex rfl hrun, hfails.cons hok⟩

/-! ### A call -/

/-- `s` after the DEC_START of a call. -/
def State.decStarted (s : State) : State := ({ s with dec := s.dec.start }).respond .done

/-- `s` after the DEC_START of a call and its first code. -/
def State.decFirst (s : State) (k : Nat) : State :=
  ({ s.decStarted with dec := { s.dec.start with seen := true, wcode := zext32 k } }).respond (.emitted [zext32 k])

theorem exec_decStart (s : State) : exec .decStart s = .next s.decStarted := rfl

theorem exec_decPush_first (hk : k < 256) (s : State) : exec (.decPush k) s.decStarted = .next (s.decFirst k) :=
  (execDecPush_of_not_seen rfl rfl).trans (decPushFirst_of_seed hk)

theorem State.Inv.decFirst (hs : s.Inv) (hk : k < 256) : (s.decFirst k).Inv :=
  exec_keeps_inv (exec_keeps_inv hs (exec_decStart s)) (exec_decPush_first hk s)

theorem decodingAt_decFirst (hs : s.Inv) (hk : k < 256) : DecodingAt (s.decFirst k) (decompressStart k) :=
  ⟨rfl, rfl, .start hs.params hs.dec hk⟩

/-- A run from after the first code is the rest of a call. -/
theorem RunsTo.decompress {t : State} {rs : List Response} (hk : k < 256)
    (h : RunsTo (s.decFirst k) (ks.map .decPush ++ [.decFinish]) t rs) :
    RunsTo s (Pseudo.decompress (k :: ks)).expand t (.done :: .emitted [zext32 k] :: rs) :=
  .cons (decode_encode rfl) (exec_decStart s) rfl
    (.cons (decode_encode_decPush (by omega)) (exec_decPush_first hk s) rfl h)

/-- DEC_FINISH ends a call that has seen a code. -/
theorem DecodingAt.runsTo_finish (h : DecodingAt s st) : ∃ t, RunsTo s [.decFinish] t [.done] ∧
    t.dec = s.dec.finish ∧ t.enc = s.enc :=
  ⟨_, .single (decode_encode rfl) (execDecFinish_of_seen h.active h.seen) rfl, rfl, rfl⟩

/-- A call whose codes the reference function takes and that fits the dictionary: it ends well with the result of the
reference function, and the decoder it leaves has the dictionary of the reference function. -/
theorem runsTo_decompress_of_ok (hs : s.Inv) (hk : k < 256) (hks : ∀ c ∈ ks, c < 2 ^ 32)
    (hfit : ks.length ≤ s.cfg.dictCap.toNat - 256)
    (hfold : ks.foldlM decompressStep (decompressStart k) = .ok st') :
    ∃ t rs, RunsTo s (Pseudo.decompress (k :: ks)).expand t rs ∧ allOk rs = true ∧
      outOfAll rs = symbolWords st'.result ∧ t.dec.phase = .idle ∧ t.enc = s.enc ∧ t.dec.dict.next.toNat = st'.next ∧
      ∀ n, st'.dict.lookup n = t.dec.dict.str n := by
  have hcap := hs.params.1
  obtain ⟨t, rs, hrun, hok, hout, hat, henc⟩ := (decodingAt_decFirst hs hk).runsTo_pushes (hs.decFirst hk) hks
    (by show 256 + ks.length ≤ s.cfg.dictCap.toNat; omega) hfold
  obtain ⟨t', hfinish, hdec, henc'⟩ := hat.runsTo_finish
  refine ⟨t', _, (hrun.append hfinish).decompress hk, ?_, ?_, by rw [hdec]; rfl, henc'.trans henc, ?_, fun n => ?_⟩
  · have : allOk (rs ++ [.done]) = true := by
      rw [allOk_append, hok]
      rfl
    exact this
  · have hfirst : symbolWords (decompressStart k).result = [zext32 k] := by
      show [zext32 (BitVec.ofNat 8 k).toNat] = _
      rw [BitVec.toNat_ofNat, Nat.mod_eq_of_lt (show k < 2 ^ 8 by omega)]
    rw [hout, hfirst]
    show [zext32 k] ++ outOfAll (rs ++ [.done]) = _
    rw [outOfAll_append]
    exact congrArg ([zext32 k] ++ ·) (List.append_nil _)
  · rw [hdec]
    exact hat.simulates.next
  · rw [hdec]
    exact hat.simulates.lookup n

/-- A call whose first malformed code is `c`. -/
theorem runsTo_decompress_of_error {e : DecompressError} (hs : s.Inv) (hks : ∀ c ∈ k :: ks, c < 2 ^ 32)
    (hfit : ks.length ≤ s.cfg.dictCap.toNat - 256) (herr : decompress (k :: ks) = .error e) :
    ∃ c t before after, e = .malformedCode c ∧ RunsTo s (Pseudo.decompress (k :: ks)).expand t
        (.done :: before ++ .error .malformedCode (zext32 c) :: after) ∧
      FailsAtMalformed t (k :: ks) c before after := by
  have hcap := hs.params.1
  obtain ⟨hk32, hks⟩ := List.forall_mem_cons.mp hks
  rcases Nat.lt_or_ge k 256 with hk | hk
  · rw [decompress_cons_of_seed hk] at herr
    cases hfold : ks.foldlM decompressStep (decompressStart k) with
    | ok st =>
      rw [hfold] at herr
      cases herr
    | error e' =>
      rw [hfold] at herr
      cases herr
      obtain ⟨c, t, before, after, rfl, hrun, hfails⟩ := (decodingAt_decFirst hs hk).runsTo_malformed
        (hs.decFirst hk) hks (by show 256 + ks.length ≤ s.cfg.dictCap.toNat; omega) hfold
      exact ⟨c, t, .emitted [zext32 k] :: before, after, rfl, hrun.decompress hk, hfails.cons rfl⟩
  · rw [decompress_cons_of_malformed hk] at herr
    cases herr
    have hex : exec (.decPush k) s.decStarted = _ :=
      (execDecPush_of_not_seen rfl rfl).trans (decPushFirst_of_malformed hk)
    obtain ⟨t, after, hrun, hfails⟩ := runsTo_of_malformed hk32 hks hex
    exact ⟨k, t, [], after, rfl, .cons (decode_encode rfl) (exec_decStart s) rfl hrun, hfails⟩

/-- A call without codes fails at DEC_FINISH. -/
theorem runsTo_decompress_nil (s : State) :
    ∃ t, RunsTo s (Pseudo.decompress []).expand t [.done, .error .emptyInput 0] := by
  have hex : exec .decFinish s.decStarted = _ := execDecFinish_of_not_seen rfl rfl
  exact ⟨_, .cons (decode_encode rfl) (exec_decStart s) rfl (.single (decode_encode rfl) hex rfl)⟩

/-- Settles O51: by how the reference function ends. -/
theorem decompressMatchesReference : Obligations.DecompressMatchesReference := by
  unfold Obligations.DecompressMatchesReference
  intro s k hs hk hfit
  cases k with
  | nil =>
    obtain ⟨t, hrun⟩ := runsTo_decompress_nil s
    exact ⟨t, _, hrun, nofun, fun _ => rfl, nofun⟩
  | cons k ks =>
    have hfit : ks.length ≤ s.cfg.dictCap.toNat - 256 := hfit
    cases hd : decompress (k :: ks) with
    | error e =>
      obtain ⟨c, t, before, after, rfl, hrun, hfails⟩ := runsTo_decompress_of_error hs hk hfit hd
      refine ⟨t, _, hrun, nofun, nofun, fun c' hc' => ?_⟩
      cases hc'
      exact ⟨.done :: before, after, hfails.ok, Nat.succ_le_succ (Nat.zero_le _), hfails.code,
        by rw [List.append_assoc]; rfl, hfails.rest, hfails.ends, hfails.dec⟩
    | ok x =>
      obtain ⟨hseed, st, hfold, rfl⟩ := decompress_cons_ok hd
      obtain ⟨t, rs, hrun, hok, hout, hphase, -⟩ :=
        runsTo_decompress_of_ok hs hseed (List.forall_mem_cons.mp hk).2 hfit hfold
      refine ⟨t, rs, hrun, fun x hx => ?_, nofun, nofun⟩
      cases hx
      exact ⟨hok, hout.trans (symbolWords_eq _), hphase⟩

end Sys2Proof.Machine
end

section
/-! PROOFS. The round trip, on the reference functions and on the block (42_decoder.md R149, 10_state.md R37). -/

namespace Sys2Proof.Machine

variable {x : List Byte} {cst : CompressState} {dst : DecompressState} {c : Byte} {k : Nat}

/-! ### `decompress` one step behind `compress`

While `compress` reads the symbols of a code, `decompress` has taken the codes given so far. It lacks one entry, the
last that `compress` inserted, whose string ends with the first symbol of the code to come. With that code it has them
all. -/

/-- `decompress` has taken every code of the symbols `x`: the dictionaries are the same, and so are the strings. -/
structure InStep (x : List Byte) (cst : CompressState) (dst : DecompressState) : Prop where
  next : dst.next = cst.next
  lookup : ∀ n w, cst.dict.lookup w = some n ↔ dst.dict.lookup n = some w
  working : dst.w = cst.w
  result : dst.result = x

/-- `decompress` has taken every code but that of the working string, which is not yet given. -/
structure OneBehind (x : List Byte) (cst : CompressState) (dst : DecompressState) : Prop where
  next : dst.next + 1 = cst.next
  lookup : ∀ n w, cst.dict.lookup w = some n ↔
    if n = dst.next then w = dst.w ++ cst.w.take 1 else dst.dict.lookup n = some w
  unknown : dst.dict.lookup dst.next = none
  started : dst.w ≠ []
  working : cst.w ≠ []
  result : dst.result ++ cst.w = x

theorem InStep.unknown (h : InStep x cst dst) (hc : CompressInv x cst) : dst.dict.lookup dst.next = none := by
  cases hl : dst.dict.lookup dst.next with
  | none => rfl
  | some w =>
    have := hc.below w dst.next ((h.lookup _ _).mpr hl)
    rw [h.next] at this
    exact absurd this (Nat.lt_irrefl _)

/-- Reading a symbol that extends the working string. -/
theorem OneBehind.extend (h : OneBehind x cst dst) (c : Byte) :
    OneBehind (x ++ [c]) { cst with w := cst.w ++ [c] } dst where
  next := h.next
  lookup n w := by
    show cst.dict.lookup w = some n ↔ if n = dst.next then w = dst.w ++ (cst.w ++ [c]).take 1 else _
    rw [List.take_append_of_le_length (List.length_pos_iff.mpr h.working)]
    exact h.lookup n w
  unknown := h.unknown
  started := h.started
  working := by simp
  result := by rw [← h.result, List.append_assoc]

/-- The code of the working string gives its string. If it is the entry that `decompress` lacks, the working string is
the previous one followed by a symbol, which is then the first of both. -/
theorem OneBehind.decompressStep_eq (h : OneBehind x cst dst) (hk : cst.dict.lookup cst.w = some k) :
    decompressStep dst k = .ok (decompressStep.next dst cst.w) := by
  have hk := (h.lookup k cst.w).mp hk
  split_ifs at hk with heq
  · have hfirst : dst.w.take 1 = cst.w.take 1 := by
      rw [hk, List.take_append_of_le_length (List.length_pos_iff.mpr h.started)]
    rw [decompressStep_of_next (heq ▸ h.unknown) heq, hfirst, ← hk]
  · exact decompressStep_of_some hk

theorem OneBehind.inStep (h : OneBehind x cst dst) : InStep x cst (decompressStep.next dst cst.w) where
  next := h.next
  lookup n w := by
    rw [h.lookup]
    show _ ↔ ((dst.next, dst.w ++ cst.w.take 1) :: dst.dict).lookup n = some w
    rw [lookup_cons_insertCode]
    split_ifs
    · rw [Option.some_inj, eq_comm]
    · rfl
  working := rfl
  result := h.result

/-- Inserting an entry and going on with its last symbol. -/
theorem InStep.insert (h : InStep x cst dst) (hc : CompressInv x cst) (hw : cst.w ≠ [])
    (hno : cst.dict.lookup (cst.w ++ [c]) = none) (out : List Nat) :
    OneBehind (x ++ [c]) ⟨(cst.w ++ [c], cst.next) :: cst.dict, cst.next + 1, [c], out⟩ dst where
  next := congrArg (· + 1) h.next
  lookup n w := by
    show ((cst.w ++ [c], cst.next) :: cst.dict).lookup w = some n ↔ if n = dst.next then w = dst.w ++ [c] else _
    rw [lookup_cons_insert, h.next, h.working]
    split_ifs with hw hn hn
    · simp [hw, hn]
    · refine ⟨fun heq => absurd (Option.some_inj.mp heq).symm hn, fun hl => ?_⟩
      rw [hw, ← h.lookup, hno] at hl
      cases hl
    · refine ⟨fun hl => absurd (hc.below w n hl) (by omega), fun heq => absurd heq hw⟩
    · exact h.lookup n w
  unknown := h.unknown hc
  started := h.working ▸ hw
  working := List.cons_ne_nil c []
  result := by rw [h.result]

/-! ### From the first code on -/

/-- `decompress` takes the codes `ks` and is then in the state `dst`. -/
def Decompresses (ks : List Nat) (dst : DecompressState) : Prop :=
  ∃ k0 rest, ks = k0 :: rest ∧ k0 < 256 ∧ rest.foldlM decompressStep (decompressStart k0) = .ok dst

theorem Decompresses.append {ks : List Nat} {dst' : DecompressState} (h : Decompresses ks dst)
    (hk : decompressStep dst k = .ok dst') : Decompresses (ks ++ [k]) dst' := by
  obtain ⟨k0, rest, rfl, hk0, hfold⟩ := h
  refine ⟨k0, rest ++ [k], rfl, hk0, ?_⟩
  rw [List.foldlM_append, hfold]
  show [k].foldlM decompressStep dst = Except.ok dst'
  rw [List.foldlM_cons, hk]
  rfl

/-- The first code is a seed, whose string is all that was read. -/
theorem inStep_decompressStart (hdict : cst.dict = compressInit.dict) (hnext : cst.next = 256)
    (hw : cst.w = [BitVec.ofNat 8 k]) (hx : cst.w = x) : InStep x cst (decompressStart k) where
  next := hnext.symm
  lookup n w := by
    show _ ↔ decompressSeeds.lookup n = some w
    rw [hdict, lookup_compressInit, lookup_decompressSeeds]
    split_ifs with hn
    · simp only [hn, true_and, Option.some_inj, eq_comm]
    · simp [hn]
  working := hw.symm
  result := hw.symm.trans hx

/-- Before its first code `compress` has the seeds only and everything in its working string; after it, `decompress` is
one code behind. -/
def RoundTripInv (x : List Byte) (cst : CompressState) : Prop :=
  (cst.out = [] ∧ cst.dict = compressInit.dict ∧ cst.w = x) ∨
  ∃ dst, Decompresses cst.out dst ∧ OneBehind x cst dst

/-- With the code of the working string, `decompress` is in step. -/
theorem RoundTripInv.inStep (h : RoundTripInv x cst) (hc : CompressInv x cst) (hk : cst.dict.lookup cst.w = some k) :
    ∃ dst, Decompresses (cst.out ++ [k]) dst ∧ InStep x cst dst := by
  rcases h with ⟨hout, hdict, hx⟩ | ⟨dst, hdec, hbehind⟩
  · have hnext := hc.next
    rw [hout] at hnext ⊢
    rw [hdict] at hk
    obtain ⟨hlt, hw⟩ := (lookup_compressInit _ _).mp hk
    exact ⟨_, ⟨k, [], rfl, hlt, rfl⟩, inStep_decompressStart hdict hnext hw hx⟩
  · exact ⟨_, hdec.append (hbehind.decompressStep_eq hk), hbehind.inStep⟩

theorem RoundTripInv.step (h : RoundTripInv x cst) (hc : CompressInv x cst) (c : Byte) :
    RoundTripInv (x ++ [c]) (compressStep cst c) := by
  cases hl : cst.dict.lookup (cst.w ++ [c]) with
  | some n =>
    rw [compressStep_of_some hl]
    rcases h with ⟨hout, hdict, rfl⟩ | ⟨dst, hdec, hbehind⟩
    · exact .inl ⟨hout, hdict, rfl⟩
    · exact .inr ⟨dst, hdec, hbehind.extend c⟩
  | none =>
    obtain ⟨hne, k, hk⟩ := hc.lookup_working hl
    obtain ⟨dst, hdec, hstep⟩ := h.inStep hc hk
    rw [compressStep_of_none hl hk]
    exact .inr ⟨dst, hdec, hstep.insert hc hne hl _⟩

theorem RoundTripInv.foldl {y : List Byte} (h : RoundTripInv y cst) (hc : CompressInv y cst) (x : List Byte) :
    RoundTripInv (y ++ x) (x.foldl compressStep cst) := by
  induction x generalizing y cst with
  | nil => rwa [List.append_nil]
  | cons c x ih =>
    have := ih (h.step hc c) (hc.step c)
    rwa [List.append_assoc] at this

theorem roundTripInv_compressRead (x : List Byte) : RoundTripInv x (compressRead x) :=
  RoundTripInv.foldl (y := []) (.inl ⟨rfl, rfl, rfl⟩) .init x

/-- `decompress` takes the codes of a list that is not empty, gives the list back, and ends with the dictionary of
`compress`. -/
theorem decompresses_compress (hx : x ≠ []) :
    ∃ dst, Decompresses (compress x) dst ∧ InStep x (compressRead x) dst := by
  obtain ⟨k, hk, hc⟩ := compress_eq hx
  rw [hc]
  exact (roundTripInv_compressRead x).inStep (compressRead_inv x) hk

theorem Decompresses.decompress_eq {ks : List Nat} (h : Decompresses ks dst) : decompress ks = .ok dst.result := by
  obtain ⟨k0, rest, rfl, hk0, hfold⟩ := h
  rw [decompress_cons_of_seed hk0, hfold]
  rfl

/-! ### The block -/

/-- Settles O52: on the reference functions by the invariant, and on the block because each call has the outcome and the
dictionary of its reference function. -/
theorem roundTrip : Obligations.RoundTrip := by
  unfold Obligations.RoundTrip
  intro s x hs hx hfit
  obtain ⟨dst, hdst, hstep⟩ := decompresses_compress hx
  refine ⟨hstep.result ▸ hdst.decompress_eq, ?_⟩
  obtain ⟨t, rs, hrun, hok, hcodes, henc, hcfg, -, -, hsim⟩ := runsTo_compress_of_fits hs hfit
  obtain ⟨k0, rest, hks, hk0, hfold⟩ := hdst
  have hks32 : ∀ c ∈ k0 :: rest, c < 2 ^ 32 := by
    rw [← hks, ← hcodes]
    exact List.forall_mem_map.mpr fun w _ => w.isLt
  have hroom : rest.length ≤ t.cfg.dictCap.toNat - 256 := by
    rw [insertions, hks, List.length_cons, Nat.add_sub_cancel] at hfit
    exact hcfg ▸ hfit
  obtain ⟨u, rs', hrun', hok', hout', -, henc', hnext, hlookup⟩ :=
    runsTo_decompress_of_ok (hrun.inv hs) hk0 (List.forall_mem_cons.mp hks32).2 hroom hfold
  have hdict : u.enc.dict = (s.freshPushes x).enc.dict := by
    rw [henc', henc]
    rfl
  refine ⟨t, rs, u, rs', hrun, hok, ?_, hok', ?_, ?_, fun n hn => ?_⟩
  · rw [hcodes, hks]
    exact hrun'
  · rw [hout', hstep.result, symbolWords_eq]
  · apply BitVec.eq_of_toNat_eq
    rw [hnext, hstep.next, hdict, hsim.next]
  · obtain ⟨v, w, hstr, -⟩ := (hrun'.inv (hrun.inv hs)).dec.dict.str_defined hn
    rw [hstr, hdict]
    exact ((hsim.lookup _ _).mp ((hstep.lookup _ _).mpr ((hlookup n).trans hstr))).symm

end Sys2Proof.Machine
end
